-- ==== Sys2Proof/Word.lean ====
section
/-! DEFINITION. The word types of the block: the 32-bit port word and the one-bit field (00_scope R8). -/

namespace Sys2Proof

/-- A word: an unsigned integer of 32 bits, the unit of the host port and of every register (R8, R61). -/
abbrev Word := BitVec 32

/-- A field of one bit: a CDIG digit, the LEAF mark of a TREE record (R39, R40). -/
abbrev Bit := BitVec 1

/-- A byte of a port word, as a platform that bridges the port to a byte bus sees it (R67). -/
abbrev Byte := BitVec 8

end Sys2Proof
end

