-- ==== Sys2Proof/Config.lean ====
section
/-! DEFINITION. What one instance of the block fixes (00_scope R6, 10_state R44): the cell width, the
capacities of the seven memories, the absent-child index, and the free value an element of memory holds
that nothing has written since reset (10_state R46). -/

namespace Sys2Proof

/-- SYMW, the width of one character cell: 16, the value R6 decides for this hardware. The rules are
written over this constant; it stands between 8 and 32 (log 3). -/
abbrev symw : Nat := 16

/-- A cell: one storage element of SYMW bits that holds one character code (R8, R13, R102). -/
abbrev Cell := BitVec symw

/-- CNTMAX, the largest count the parser accepts (R6). -/
def cntMax : Nat := 4294967295

/-- NULL, the absent-child index, also the reset value of ROOT (R6, R25). -/
def null : Word := 0xFFFFFFFF#32

/-- The capacities of the seven memories, OPEN parameters of the block (R6; log 4). -/
structure Config where
  nin   : Nat
  nout  : Nat
  nkey  : Nat
  ncode : Nat
  ncdig : Nat
  nnode : Nat
  nfreq : Nat
  deriving DecidableEq, Repr

/-- The reference configuration of R6, the one the vectors of 95_test_vectors use. -/
def Config.reference : Config :=
  { nin := 4096, nout := 4096, nkey := 256, ncode := 256, ncdig := 4096, nnode := 511, nfreq := 256 }

/-- The addressable fields of the seven memories (R35 to R41, R64): one name for each array of equal fields. -/
inductive Field where
  | input | output | key
  | codeSym | codeLen | codeBase
  | cdig
  | treeLeft | treeRight | treeSym | treeLeaf
  | freqSym | freqCount
  deriving DecidableEq, Repr

/-- How many elements each array has: the capacity of its memory (R6, R35 to R41). -/
def Config.capacity (c : Config) : Field → Nat
  | .input => c.nin
  | .output => c.nout
  | .key => c.nkey
  | .codeSym | .codeLen | .codeBase => c.ncode
  | .cdig => c.ncdig
  | .treeLeft | .treeRight | .treeSym | .treeLeaf => c.nnode
  | .freqSym | .freqCount => c.nfreq

/-- FREE VALUE. What element `index` of `field` holds after the `resets`-th reset until something writes it:
any value, the same at every read (R46; 93 U1; log 2). A reader takes the low bits its field is wide. -/
opaque Config.unwritten (resets : Nat) (field : Field) (index : Nat) : Word

end Sys2Proof
end

