-- ==== Sys2Proof/Syntax.lean ====
section
/-! DEFINITION. The command set of the block: one constructor for each row of the command map (30_encoding R100). -/

namespace Sys2Proof

/-- A command. The command word carries no operand: every operand is in the registers and memories (R90). -/
inductive Instr where
  /-- NOP, OPC 0x00 (R200). -/
  | nop
  /-- ENC, OPC 0x01: symbols to digits (R130). -/
  | enc
  /-- DEC, OPC 0x02: digits to symbols (R140). -/
  | dec
  /-- XOR, OPC 0x03: the repeating-key cipher (R160). -/
  | xor
  /-- FPARSE, OPC 0x04: record text to frequency table (R170). -/
  | fparse
  /-- FSER, OPC 0x05: frequency table to record text (R185). -/
  | fser
  deriving DecidableEq, Repr

end Sys2Proof
end

