-- ==== Sys2Proof/WellFormed.lean ====
section
/-! DEFINITION. Well-formedness: of a command (no command has an operand, so each is well formed, R90) and of
the parameters of an instance (the constraints of 00_scope R6). -/

namespace Sys2Proof

/-- Every command of R100 is well formed: the command word has no operand field to check (R90). -/
def Instr.wellFormed : Instr → Bool
  | .nop => true
  | .enc => true
  | .dec => true
  | .xor => true
  | .fparse => true
  | .fser => true

/-- The constraints of R6 on the capacities: at least one element each, and no more than the address
layout of R63 reaches (2^22 elements of four bytes, 2^20 of sixteen). -/
abbrev Config.Valid (c : Config) : Prop :=
  (1 ≤ c.nin ∧ c.nin ≤ 2 ^ 22) ∧ (1 ≤ c.nout ∧ c.nout ≤ 2 ^ 22) ∧ (1 ≤ c.nkey ∧ c.nkey ≤ 2 ^ 22) ∧
  (1 ≤ c.ncode ∧ c.ncode ≤ 2 ^ 20) ∧ (1 ≤ c.ncdig ∧ c.ncdig ≤ 2 ^ 22) ∧
  (1 ≤ c.nnode ∧ c.nnode ≤ 2 ^ 20) ∧ (1 ≤ c.nfreq ∧ c.nfreq ≤ 2 ^ 20)

end Sys2Proof
end

