-- ==== Sys2Proof/Decode.lean ====
section
/-! DEFINITION. The command word (30_encoding R90, R100, R101): decoder, total and rejecting by name, then the
encoder, both from the command map, and the map itself as match and mask. -/

namespace Sys2Proof

/-- Why a word, or a list of bytes, is no command. -/
inductive DecodeError where
  /-- Fewer than four bytes: the port has no access of another size (R61). -/
  | truncated
  /-- Bits 31:8, the field ZERO, are not zero (R90, R101). -/
  | zeroField
  /-- OPC is one of the reserved values 0x06 to 0xFF (R101). -/
  | reservedOpc
  deriving DecidableEq, Repr

/-- The field OPC, bits 7:0 of the command word (R90). -/
def opcField (w : Word) : BitVec 8 := w.extractLsb' 0 8

/-- The field ZERO, bits 31:8 of the command word (R90). -/
def zeroField (w : Word) : BitVec 24 := w.extractLsb' 8 24

/-- R100: "if word[31:8] != 0 or word[7:0] > 5 the word is illegal; otherwise word[7:0] indexes the table". -/
def decodeWord (w : Word) : Except DecodeError Instr :=
  if zeroField w ≠ 0 then .error .zeroField
  else
    match (opcField w).toNat with
    | 0 => .ok .nop
    | 1 => .ok .enc
    | 2 => .ok .dec
    | 3 => .ok .xor
    | 4 => .ok .fparse
    | 5 => .ok .fser
    | _ => .error .reservedOpc

/-- Four bytes as the port word they stand for, little-endian: byte k holds bits 8k+7:8k (R67). -/
def wordOfBytes (b0 b1 b2 b3 : Byte) : Word :=
  BitVec.ofNat 32 (b0.toNat + 2 ^ 8 * b1.toNat + 2 ^ 16 * b2.toNat + 2 ^ 24 * b3.toNat)

/-- Byte k of a port word (R67). -/
def byteOfWord (w : Word) (k : Nat) : Byte := BitVec.ofNat 8 (w.toNat / 2 ^ (8 * k))

/-- The decoder over bytes: the first four bytes are the command word, the rest is handed back. -/
def decode : List Byte → Except DecodeError (Instr × List Byte)
  | b0 :: b1 :: b2 :: b3 :: rest => (decodeWord (wordOfBytes b0 b1 b2 b3)).map fun i => (i, rest)
  | _ => .error .truncated

/-- The command word of each command, the column `match` of R100. -/
def encode : Instr → Word
  | .nop => 0x00000000#32
  | .enc => 0x00000001#32
  | .dec => 0x00000002#32
  | .xor => 0x00000003#32
  | .fparse => 0x00000004#32
  | .fser => 0x00000005#32

/-- The column `mask` of R100: every bit of the word takes part. -/
def commandMask : Instr → Word
  | .nop => 0xFFFFFFFF#32
  | .enc => 0xFFFFFFFF#32
  | .dec => 0xFFFFFFFF#32
  | .xor => 0xFFFFFFFF#32
  | .fparse => 0xFFFFFFFF#32
  | .fser => 0xFFFFFFFF#32

/-- The command word as the four bytes a little-endian bus carries, lowest address first (R67). -/
def encodeBytes (i : Instr) : List Byte :=
  [byteOfWord (encode i) 0, byteOfWord (encode i) 1, byteOfWord (encode i) 2, byteOfWord (encode i) 3]

/-- The command word made of the low `nbits` bits of `w`, zero above, as spec/opcode_table.json numbers them. -/
def tableWord (nbits w : Nat) : Word := BitVec.ofNat 32 (w % 2 ^ nbits)

/-- What the decoder reads from an instruction of spec/opcode_table.json: the bits of `w` laid out as four
bytes, lowest address first, and given to `decode`. -/
def decodeTableWord (nbits w : Nat) : Option Instr :=
  match decode [byteOfWord (tableWord nbits w) 0, byteOfWord (tableWord nbits w) 1,
      byteOfWord (tableWord nbits w) 2, byteOfWord (tableWord nbits w) 3] with
  | .ok (i, _) => some i
  | .error _ => none

end Sys2Proof
end

