-- ==== Sys2Proof/Machine/State.lean ====
section
/-! DEFINITION. The state of the machine as plain data: the eleven registers and seven memories of 10_state
R20, the parameters of the instance, and the model's own port fields; the reasons a step can stop; reset. -/

namespace Sys2Proof.Machine

open Sys2Proof

/-- The eleven registers of the block (R20), in the order of their offsets (R64). -/
inductive Reg where
  | cmd | status | ctrl | ilen | olen | klen | ccnt | root | fcnt | warn | errpos
  deriving DecidableEq, Repr

/-- The error kinds of R230, codes 1 to 10. -/
inductive ErrorKind where
  /-- Code 1: ENC with nothing to encode (R231). -/
  | emptySource
  /-- Code 2, also LookupError: ENC meets a character with no code (R232). -/
  | missingCode
  /-- Code 3: DEC cannot follow the payload (R233). -/
  | malformedPayload
  /-- Code 4: an empty key (R234). -/
  | invalidKey
  /-- Code 5, also EmptyTableError: FPARSE recovers no entry (R235). -/
  | tableParse
  /-- Code 6: reserved for host software, raised by no command (R230). -/
  | treeConstruction
  /-- Code 7: something does not fit (R236). -/
  | capacity
  /-- Code 8: an illegal command word (R237). -/
  | illegalCommand
  /-- Code 9: ROOT or a child index outside TREE (R238). -/
  | treeFormat
  /-- Code 10: a code outside CDIG (R239). -/
  | codeFormat
  deriving DecidableEq, Repr

/-- `raise E(pos)` of the pseudocode: the error kind and the position ERRPOS receives (R10, R240). -/
structure Raise where
  kind : ErrorKind
  pos  : Nat
  deriving DecidableEq, Repr

/-- Something the host does to the block: one port transaction (R60, R61), or the external reset (R260).
`addr` is the byte offset in the window, `size` the access size in bytes. -/
inductive HostEvent where
  | read (addr size : Nat)
  | write (addr size : Nat) (v : Word)
  | reset
  deriving DecidableEq, Repr

/-- What the port answers to one transaction (R61). -/
inductive PortResponse where
  | okRead (w : Word)
  | okWrite
  | busError
  deriving DecidableEq, Repr

/-- One array of equal fields of `w` bits: the elements written since reset, by index. In canonical form the
indices rise strictly; an index that is not listed holds nothing written, and reads as the free value
`Config.unwritten` (R46; log 1, log 2). -/
abbrev Memory (w : Nat) := List (Nat × BitVec w)

/-- Everything the spec gives the machine (R20), its parameters (R44) and the model's own port fields. -/
structure State where
  /-- The capacities of this instance (R6); no step changes them. -/
  cfg : Config
  cmd : Word
  status : Word
  ctrl : Word
  ilen : Word
  olen : Word
  klen : Word
  ccnt : Word
  root : Word
  fcnt : Word
  warn : Word
  errpos : Word
  /-- IN (R35). -/
  inMem : Memory symw
  /-- OUT (R36). -/
  outMem : Memory symw
  /-- KEY (R37). -/
  keyMem : Memory symw
  /-- CODE (R38), field by field. -/
  codeSym : Memory symw
  codeLen : Memory 32
  codeBase : Memory 32
  /-- CDIG (R39). -/
  cdig : Memory 1
  /-- TREE (R40), field by field. -/
  treeLeft : Memory 32
  treeRight : Memory 32
  treeSym : Memory symw
  treeLeaf : Memory 1
  /-- FREQ (R41), field by field. -/
  freqSym : Memory symw
  freqCount : Memory 32
  /-- The model's own: how many reset events there have been, the counter of the free value (log 2). -/
  resets : Nat
  /-- The model's own: the host's transactions not yet performed, oldest first (R60; log 5). -/
  pending : List HostEvent
  /-- The model's own: the port's answer to the last transaction (R61; log 6). -/
  response : Option PortResponse
  deriving DecidableEq, Repr

/-- The reasons the machine stops. There is none: "No behaviour of the block is treated as stuck" (93), a
fault of a command is a next state (R240), a BusError is an answer of the port (R246) (log 10). Nobody
raises one; safe. -/
inductive Fault where
  deriving DecidableEq, Repr

/-- The reasons an instruction has no meaning. -/
inductive Refusal where
  /-- Raised by an arm of exec whose instruction has no meaning yet; safe. No arm raises it now. -/
  | notModelled (mnemonic : String)
  deriving DecidableEq, Repr

/-- The outcome of a step of this machine. -/
abbrev Result := Host.Outcome State Fault Refusal

/-- The block right after reset (R45, R260), for an instance with the capacities `c`: the registers at the
values of the table, the memories with nothing written, no transaction waiting. -/
def State.resetWith (c : Config) : State :=
  { cfg := c
    cmd := 0#32, status := 0#32, ctrl := 1#32, ilen := 0#32, olen := 0#32, klen := 0#32, ccnt := 0#32
    root := null, fcnt := 0#32, warn := 0#32, errpos := 0#32
    inMem := [], outMem := [], keyMem := []
    codeSym := [], codeLen := [], codeBase := []
    cdig := []
    treeLeft := [], treeRight := [], treeSym := [], treeLeaf := []
    freqSym := [], freqCount := []
    resets := 0, pending := [], response := none }

/-- The machine right after reset, in the reference configuration of R6 (log 4). -/
def State.reset : State := State.resetWith Config.reference

end Sys2Proof.Machine
end

