-- ==== Sys2Proof/Machine/Flags.lean ====
section
/-! DEFINITION. The fields of STATUS and CTRL (10_state R29, R31) and the numbering of the errors (60_exceptions R230). -/

namespace Sys2Proof.Machine

open Sys2Proof

/-- The error codes of R230. -/
def ErrorKind.code : ErrorKind → BitVec 8
  | .emptySource => 1#8
  | .missingCode => 2#8
  | .malformedPayload => 3#8
  | .invalidKey => 4#8
  | .tableParse => 5#8
  | .treeConstruction => 6#8
  | .capacity => 7#8
  | .illegalCommand => 8#8
  | .treeFormat => 9#8
  | .codeFormat => 10#8

/-- STATUS as a command leaves it: ERR in bits 7:0, DONE = 1 in bit 8, the reserved bits 0 (R29). -/
def statusWord (err : BitVec 8) : Word := 0x100#32 ||| err.setWidth 32

/-- The bits of STATUS that are not reserved: ERR and DONE (R29). -/
def statusMask : Word := 0x1FF#32

/-- The bits of CTRL that are not reserved: STRICT and CIPH (R31). -/
def ctrlMask : Word := 0x3#32

/-- STATUS.ERR: 0 when the last command completed, otherwise its error code (R29). -/
def State.err (s : State) : BitVec 8 := s.status.extractLsb' 0 8

/-- STATUS.DONE: a command has finished since reset (R29). -/
def State.done (s : State) : Bool := s.status.getLsbD 8

/-- CTRL.STRICT: DEC faults on a cell that is no digit (R31). -/
def State.strict (s : State) : Bool := s.ctrl.getLsbD 0

/-- CTRL.CIPH: DEC deciphers its input with KEY (R31). -/
def State.ciph (s : State) : Bool := s.ctrl.getLsbD 1

end Sys2Proof.Machine
end

