-- ==== Sys2Proof/Machine/Ops.lean ====
section
/-! DEFINITION. The operations every command is built from: reading and writing one array of a memory, the
elements as the port sees them (20_memory R64), the end of a command that completes, and the entry of a fault
(60_exceptions R240). -/

namespace Sys2Proof.Machine

open Sys2Proof

/-! ### One array of a memory -/

/-- What has been written at `index` since reset, if anything has. -/
def Memory.find? {w : Nat} : Memory w → Nat → Option (BitVec w)
  | [], _ => none
  | (k, v) :: rest, index => if k = index then some v else Memory.find? rest index

/-- The value an element holds: what was last written, or else the free value, cut to the field's width (R46, R71). -/
def Memory.read {w : Nat} (m : Memory w) (free : Nat → Word) (index : Nat) : BitVec w :=
  match Memory.find? m index with
  | some v => v
  | none => (free index).setWidth w

/-- Store one element; the indices stay in rising order. -/
def Memory.write {w : Nat} : Memory w → Nat → BitVec w → Memory w
  | [], index, v => [(index, v)]
  | (k, x) :: rest, index, v =>
    if index < k then (index, v) :: (k, x) :: rest
    else if index = k then (index, v) :: rest
    else (k, x) :: Memory.write rest index v

/-- Store a sequence of elements from `index` on (the form "sequential output" of R76). -/
def Memory.writeFrom {w : Nat} : Memory w → Nat → List (BitVec w) → Memory w
  | m, _, [] => m
  | m, index, v :: vs => Memory.writeFrom (Memory.write m index v) (index + 1) vs

/-- The keys of a list of elements rise strictly, starting at or above `low`, and stay below `cap`. -/
def Memory.sortedFrom {w : Nat} (cap : Nat) : Nat → Memory w → Bool
  | _, [] => true
  | low, (k, _) :: rest => decide (low ≤ k) && decide (k < cap) && Memory.sortedFrom cap (k + 1) rest

/-- The canonical form of an array of `cap` elements: strictly rising indices, all below the capacity.
No entry repeats what an unlisted index holds, since an unlisted index holds nothing written (log 1). -/
def Memory.wf {w : Nat} (cap : Nat) (m : Memory w) : Bool := Memory.sortedFrom cap 0 m

/-! ### The elements by field, as the port sees them -/

/-- The free value of an array, at the state's count of resets (R46). -/
def State.free (s : State) (f : Field) : Nat → Word := Config.unwritten s.resets f

/-- The word the port reads for one element: the element in the low bits, zero above (R64). -/
def State.element (s : State) (f : Field) (index : Nat) : Word :=
  match f with
  | .input => (Memory.read s.inMem (s.free .input) index).setWidth 32
  | .output => (Memory.read s.outMem (s.free .output) index).setWidth 32
  | .key => (Memory.read s.keyMem (s.free .key) index).setWidth 32
  | .codeSym => (Memory.read s.codeSym (s.free .codeSym) index).setWidth 32
  | .codeLen => Memory.read s.codeLen (s.free .codeLen) index
  | .codeBase => Memory.read s.codeBase (s.free .codeBase) index
  | .cdig => (Memory.read s.cdig (s.free .cdig) index).setWidth 32
  | .treeLeft => Memory.read s.treeLeft (s.free .treeLeft) index
  | .treeRight => Memory.read s.treeRight (s.free .treeRight) index
  | .treeSym => (Memory.read s.treeSym (s.free .treeSym) index).setWidth 32
  | .treeLeaf => (Memory.read s.treeLeaf (s.free .treeLeaf) index).setWidth 32
  | .freqSym => (Memory.read s.freqSym (s.free .freqSym) index).setWidth 32
  | .freqCount => Memory.read s.freqCount (s.free .freqCount) index

/-- Store a port word into one element; the bits above the field's width are dropped (R64). -/
def State.setElement (s : State) (f : Field) (index : Nat) (v : Word) : State :=
  match f with
  | .input => { s with inMem := Memory.write s.inMem index (v.setWidth symw) }
  | .output => { s with outMem := Memory.write s.outMem index (v.setWidth symw) }
  | .key => { s with keyMem := Memory.write s.keyMem index (v.setWidth symw) }
  | .codeSym => { s with codeSym := Memory.write s.codeSym index (v.setWidth symw) }
  | .codeLen => { s with codeLen := Memory.write s.codeLen index v }
  | .codeBase => { s with codeBase := Memory.write s.codeBase index v }
  | .cdig => { s with cdig := Memory.write s.cdig index (v.setWidth 1) }
  | .treeLeft => { s with treeLeft := Memory.write s.treeLeft index v }
  | .treeRight => { s with treeRight := Memory.write s.treeRight index v }
  | .treeSym => { s with treeSym := Memory.write s.treeSym index (v.setWidth symw) }
  | .treeLeaf => { s with treeLeaf := Memory.write s.treeLeaf index (v.setWidth 1) }
  | .freqSym => { s with freqSym := Memory.write s.freqSym index (v.setWidth symw) }
  | .freqCount => { s with freqCount := Memory.write s.freqCount index v }

/-- The width in bits of an element of each array (R35 to R41). -/
def fieldWidth : Field → Nat
  | .input | .output | .key | .codeSym | .treeSym | .freqSym => symw
  | .codeLen | .codeBase | .treeLeft | .treeRight | .freqCount => 32
  | .cdig | .treeLeaf => 1

/-- A register as it is stored. -/
def State.reg (s : State) : Reg → Word
  | .cmd => s.cmd
  | .status => s.status
  | .ctrl => s.ctrl
  | .ilen => s.ilen
  | .olen => s.olen
  | .klen => s.klen
  | .ccnt => s.ccnt
  | .root => s.root
  | .fcnt => s.fcnt
  | .warn => s.warn
  | .errpos => s.errpos

/-! ### How a command ends -/

/-- A command that completes: STATUS.ERR <- 0, STATUS.DONE <- 1, ERRPOS <- 0 (R29, R33, R241). -/
def complete (s : State) : State := { s with status := statusWord 0#8, errpos := 0#32 }

/-- The three columns of R240: which length register a fault zeroes, and WARN. -/
inductive FaultClass where
  /-- ENC, DEC, XOR, FSER: OLEN <- 0. -/
  | output
  /-- FPARSE: FCNT <- 0, WARN <- `warn`. -/
  | table (warn : Nat)
  /-- An illegal word: neither. -/
  | illegal
  deriving DecidableEq, Repr

/-- FAULT ENTRY (R240): the error code, DONE and the position are recorded, the command's result length is
zeroed, and nothing else changes. Control goes nowhere; there is no return (R243). -/
def takeFault (c : FaultClass) (r : Raise) (s : State) : State :=
  let recorded := { s with status := statusWord r.kind.code, errpos := BitVec.ofNat 32 r.pos }
  match c with
  | .output => { recorded with olen := 0#32 }
  | .table warn => { recorded with fcnt := 0#32, warn := BitVec.ofNat 32 warn }
  | .illegal => recorded

/-- Commit a result stream: OUT[0..n-1] and OLEN <- n, then the command completes (R36, R241). -/
def commitOutput (out : List Cell) (s : State) : State :=
  complete { s with outMem := Memory.writeFrom s.outMem 0 out, olen := BitVec.ofNat 32 out.length }

/-- Commit a frequency table and the count of skipped lines: FREQ[0..n-1], FCNT <- n, WARN <- w, then the
command completes (R170, R241). -/
def commitTable (table : List (Cell × Word)) (warn : Nat) (s : State) : State :=
  complete { s with
    freqSym := Memory.writeFrom s.freqSym 0 (table.map Prod.fst)
    freqCount := Memory.writeFrom s.freqCount 0 (table.map Prod.snd)
    fcnt := BitVec.ofNat 32 table.length
    warn := BitVec.ofNat 32 warn }

/-- The end of ENC, DEC, XOR and FSER: the shadow output is committed whole, or the fault is taken (R241). -/
def finishOutput (shadow : Except Raise (List Cell)) (s : State) : Result :=
  match shadow with
  | .ok out => .next (commitOutput out s)
  | .error r => .next (takeFault .output r s)

/-- An illegal command word: ERR <- 8, DONE <- 1, ERRPOS <- 0, nothing else (R201, R237). -/
def illegalCommand (s : State) : State := takeFault .illegal { kind := .illegalCommand, pos := 0 } s

/-- The external reset (R260): the registers at the values of R45, every memory unspecified again (a new count
for the free value), nothing run. The host's transactions not yet performed stay the host's (log 9). -/
def State.resetEvent (s : State) : State :=
  { State.resetWith s.cfg with resets := s.resets + 1, pending := s.pending }

end Sys2Proof.Machine
end

