-- ==== Sys2Proof/Machine/Operands.lean ====
section
/-! DEFINITION. The operand forms of 20_memory R76: the named characters (00_scope R9), the cells, digits and
records a command reads, and the streams it works on. -/

namespace Sys2Proof.Machine

open Sys2Proof

/-! ### The named characters of R9 -/

/-- CH_0, the digit cell of digit 0. -/
def ch0 : Cell := 0x30#symw
/-- CH_1, the digit cell of digit 1. -/
def ch1 : Cell := 0x31#symw
/-- CH_9, the last decimal digit. -/
def ch9 : Cell := 0x39#symw
/-- CH_COLON, the separator of a record line. -/
def chColon : Cell := 0x3A#symw
/-- CH_NL, the newline. -/
def chNL : Cell := 0x0A#symw
/-- CH_N, first cell of the newline token. -/
def chN : Cell := 0x4E#symw
/-- CH_L, second cell of the newline token. -/
def chL : Cell := 0x4C#symw
/-- CH_SP, the space. -/
def chSP : Cell := 0x20#symw
/-- CH_TAB, the tabulator. -/
def chTAB : Cell := 0x09#symw
/-- CH_CR, the carriage return. -/
def chCR : Cell := 0x0D#symw

/-- The cell CH_0 + d: the character of the decimal digit `d`, or of the binary digit `d` (R9, R103). -/
def digitCell (d : Nat) : Cell := ch0 + BitVec.ofNat symw d

/-! ### Elements -/

/-- IN[i]. -/
def State.inCell (s : State) (i : Nat) : Cell := Memory.read s.inMem (s.free .input) i
/-- OUT[i]. -/
def State.outCell (s : State) (i : Nat) : Cell := Memory.read s.outMem (s.free .output) i
/-- KEY[i]. -/
def State.keyCell (s : State) (i : Nat) : Cell := Memory.read s.keyMem (s.free .key) i
/-- CDIG[t]. -/
def State.digit (s : State) (t : Nat) : Bit := Memory.read s.cdig (s.free .cdig) t

/-- One CODE entry (R38). -/
structure CodeEntry where
  sym  : Cell
  len  : Word
  base : Word
  deriving DecidableEq, Repr

/-- CODE[j]. -/
def State.codeEntry (s : State) (j : Nat) : CodeEntry :=
  { sym := Memory.read s.codeSym (s.free .codeSym) j
    len := Memory.read s.codeLen (s.free .codeLen) j
    base := Memory.read s.codeBase (s.free .codeBase) j }

/-- One TREE record (R40). -/
structure TreeNode where
  left  : Word
  right : Word
  sym   : Cell
  leaf  : Bit
  deriving DecidableEq, Repr

/-- TREE[n]. -/
def State.node (s : State) (n : Nat) : TreeNode :=
  { left := Memory.read s.treeLeft (s.free .treeLeft) n
    right := Memory.read s.treeRight (s.free .treeRight) n
    sym := Memory.read s.treeSym (s.free .treeSym) n
    leaf := Memory.read s.treeLeaf (s.free .treeLeaf) n }

/-- FREQ[e], its SYM and its COUNT (R41). -/
def State.freqEntry (s : State) (e : Nat) : Cell × Word :=
  (Memory.read s.freqSym (s.free .freqSym) e, Memory.read s.freqCount (s.free .freqCount) e)

/-! ### Streams -/

/-- The form "sequential input": IN[0..ILEN-1] (R21, R76). -/
def State.input (s : State) : List Cell := (List.range s.ilen.toNat).map s.inCell

/-- The last result: OUT[0..OLEN-1] (R22). -/
def State.output (s : State) : List Cell := (List.range s.olen.toNat).map s.outCell

/-- The form "modulo": IN[i] ^ KEY[i mod KLEN], cell i of the cipher (R142, R162). -/
def State.cipherCell (s : State) (i : Nat) : Cell := s.inCell i ^^^ s.keyCell (i % s.klen.toNat)

/-- The whole input through the cipher (R160, R162). -/
def State.cipherInput (s : State) : List Cell := (List.range s.ilen.toNat).map s.cipherCell

/-- The frequency table FREQ[0..FCNT-1] (R26, R41). -/
def State.table (s : State) : List (Cell × Word) := (List.range s.fcnt.toNat).map s.freqEntry

/-! ### The associative and the base plus offset form -/

/-- `lookup(s)` of R132: the lowest j < CCNT with CODE[j].SYM = s and CODE[j].LEN != 0. -/
def State.lookup (s : State) (sym : Cell) : Option Nat :=
  (List.range s.ccnt.toNat).find? fun j => (s.codeEntry j).sym == sym && (s.codeEntry j).len != 0#32

/-- The digits CDIG[BASE], ..., CDIG[BASE+LEN-1] of CODE entry j (R38), first digit first. -/
def State.codeDigits (s : State) (j : Nat) : List Bit :=
  (List.range (s.codeEntry j).len.toNat).map fun t => s.digit ((s.codeEntry j).base.toNat + t)

/-- Digit 0 as CH_0 and digit 1 as CH_1 (R103, R133). -/
def bitCell (b : Bit) : Cell := digitCell b.toNat

/-! ### The pointer form -/

/-- The two directions of the walk (R144). -/
inductive Dir where
  | left | right
  deriving DecidableEq, Repr

/-- A node with both children NULL (R146). -/
def TreeNode.childless (n : TreeNode) : Bool := n.left == null && n.right == null

/-- The child index a direction selects (R146). -/
def TreeNode.child (n : TreeNode) : Dir → Word
  | .left => n.left
  | .right => n.right

end Sys2Proof.Machine
end

