-- ==== Sys2Proof/Machine/Cipher.lean ====
section
/-! DEFINITION. XOR, the repeating-key cipher (42_xor R160 to R165). -/

namespace Sys2Proof.Machine

open Sys2Proof

/-- The checks of XOR, in order (R161, R242). -/
def xorCheck (s : State) : Option Raise :=
  if s.klen = 0#32 then some { kind := .invalidKey, pos := 0 }
  else if s.cfg.nkey < s.klen.toNat then some { kind := .capacity, pos := s.cfg.nkey }
  else if s.cfg.nin < s.ilen.toNat then some { kind := .capacity, pos := s.cfg.nin }
  else if s.cfg.nout < s.ilen.toNat then some { kind := .capacity, pos := s.cfg.nout }
  else none

/-- The shadow of XOR: every input cell through the cipher, or the fault (R160). -/
def xorShadow (s : State) : Except Raise (List Cell) :=
  match xorCheck s with
  | some r => .error r
  | none => .ok s.cipherInput

/-- XOR (R160). -/
def execXor (s : State) : Result := finishOutput (xorShadow s) s

end Sys2Proof.Machine
end

