-- ==== Sys2Proof/Machine/DecodeTree.lean ====
section
/-! DEFINITION. DEC, the digits-to-symbol tree walk (41_decode R140 to R153). -/

namespace Sys2Proof.Machine

open Sys2Proof

/-- The checks before the first digit, in order (R143, R242). -/
def decCheck (s : State) : Option Raise :=
  if s.cfg.nin < s.ilen.toNat then some { kind := .capacity, pos := s.cfg.nin }
  else if s.ciph = true ∧ s.klen = 0#32 then some { kind := .invalidKey, pos := 0 }
  else if s.ciph = true ∧ s.cfg.nkey < s.klen.toNat then some { kind := .capacity, pos := s.cfg.nkey }
  else if s.cfg.nnode ≤ s.root.toNat then some { kind := .treeFormat, pos := 0 }
  else none

/-- The payload cells DEC walks on: deciphered one by one when CTRL.CIPH = 1, as they stand otherwise (R142). -/
def State.payload (s : State) : List Cell := if s.ciph then s.cipherInput else s.input

/-- The direction a payload cell selects; none when CTRL.STRICT = 1 and the cell is no digit (R144). -/
def direction (strict : Bool) (d : Cell) : Option Dir :=
  if d = ch0 then some .left
  else if d = ch1 then some .right
  else if strict then none
  else some .right

/-- The transient of DEC: the walk position `p` and the shadow output (R28, R42). -/
structure Walk where
  p   : Word
  out : List Cell
  deriving DecidableEq, Repr

/-- `emit` of R140: append a symbol if OUT has room, and go on from `next`. -/
def emit (s : State) (i : Nat) (sym : Cell) (next : Word) (w : Walk) : Except Raise Walk :=
  if s.cfg.nout < w.out.length + 1 then .error { kind := .capacity, pos := i }
  else .ok { p := next, out := w.out ++ [sym] }

/-- One move in direction `dir` from the walk position (R145 to R149): on a childless node, the degenerate
tree; otherwise to the selected child, whose symbol is emitted if it is a leaf. -/
def walkMove (s : State) (i : Nat) (dir : Dir) (w : Walk) : Except Raise Walk :=
  let here := s.node w.p.toNat
  if here.childless then
    if here.leaf = 0#1 then .error { kind := .malformedPayload, pos := i }
    else if dir = .right then .error { kind := .malformedPayload, pos := i }
    else emit s i here.sym w.p w
  else
    let c := here.child dir
    if c = null then .error { kind := .malformedPayload, pos := i }
    else if s.cfg.nnode ≤ c.toNat then .error { kind := .treeFormat, pos := i }
    else
      let next := s.node c.toNat
      if next.childless then
        if next.leaf = 0#1 then .error { kind := .malformedPayload, pos := i }
        else emit s i next.sym s.root w
      else .ok { p := c, out := w.out }

/-- One payload cell `d` at index `i`: its direction, then the move (R140, R144). -/
def walkStep (s : State) (i : Nat) (d : Cell) (w : Walk) : Except Raise Walk :=
  match direction s.strict d with
  | none => .error { kind := .malformedPayload, pos := i }
  | some dir => walkMove s i dir w

/-- The loop over the payload from index `i` on: one cell a step (R146, R151). -/
def walkFrom (s : State) : Nat → List Cell → Walk → Except Raise Walk
  | _, [], w => .ok w
  | i, d :: cells, w =>
    match walkStep s i d w with
    | .error r => .error r
    | .ok w' => walkFrom s (i + 1) cells w'

/-- The shadow of DEC: the symbols, or the fault; at the end of the input the walk must stand at ROOT (R150). -/
def decShadow (s : State) : Except Raise (List Cell) :=
  match decCheck s with
  | some r => .error r
  | none =>
    match walkFrom s 0 s.payload { p := s.root, out := [] } with
    | .error r => .error r
    | .ok w => if w.p = s.root then .ok w.out else .error { kind := .malformedPayload, pos := s.ilen.toNat }

/-- DEC (R140). -/
def execDec (s : State) : Result := finishOutput (decShadow s) s

end Sys2Proof.Machine
end

