-- ==== Sys2Proof/Machine/Encode.lean ====
section
/-! DEFINITION. ENC, symbol-to-digits encoding (40_encode R130 to R135). -/

namespace Sys2Proof.Machine

open Sys2Proof

/-- The checks before the first character, in order (R131, R242). -/
def encCheck (s : State) : Option Raise :=
  if s.cfg.nin < s.ilen.toNat then some { kind := .capacity, pos := s.cfg.nin }
  else if s.cfg.ncode < s.ccnt.toNat then some { kind := .capacity, pos := s.cfg.ncode }
  else if s.ilen = 0#32 then some { kind := .emptySource, pos := 0 }
  else none

/-- One character of the loop: look its code up, check it, append its digit cells to the shadow `out`
(R132, R133). -/
def encStep (s : State) (i : Nat) (sym : Cell) (out : List Cell) : Except Raise (List Cell) :=
  match s.lookup sym with
  | none => .error { kind := .missingCode, pos := i }
  | some j =>
    if s.cfg.ncdig < (s.codeEntry j).base.toNat + (s.codeEntry j).len.toNat then
      .error { kind := .codeFormat, pos := i }
    else if s.cfg.nout < out.length + (s.codeEntry j).len.toNat then
      .error { kind := .capacity, pos := i }
    else .ok (out ++ (s.codeDigits j).map bitCell)

/-- The loop over the text from position `i` on. -/
def encFrom (s : State) : Nat → List Cell → List Cell → Except Raise (List Cell)
  | _, [], out => .ok out
  | i, sym :: text, out =>
    match encStep s i sym out with
    | .error r => .error r
    | .ok out' => encFrom s (i + 1) text out'

/-- The shadow of ENC: the digit stream, or the fault (R130). -/
def encShadow (s : State) : Except Raise (List Cell) :=
  match encCheck s with
  | some r => .error r
  | none => encFrom s 0 s.input []

/-- ENC (R130). -/
def execEnc (s : State) : Result := finishOutput (encShadow s) s

end Sys2Proof.Machine
end

