-- ==== Sys2Proof/Machine/FreqTable.lean ====
section
/-! DEFINITION. FPARSE and FSER, the frequency-table record (43_freqtable R170 to R188; the grammar of 30_encoding R105). -/

namespace Sys2Proof.Machine

open Sys2Proof

/-! ### FPARSE: lines -/

/-- The lines of the input, each with the index of its first cell (R171). `start` is where the current line
began, `pos` the index of the next cell, `line` the cells of the current line so far. A newline at the very
end starts no further line. -/
def linesFrom (start pos : Nat) (line : List Cell) : List Cell → List (Nat × List Cell)
  | [] => if start < pos then [(start, line)] else []
  | c :: cells =>
    if c = chNL then (start, line) :: linesFrom (pos + 1) (pos + 1) [] cells
    else linesFrom start (pos + 1) (line ++ [c]) cells

/-- The lines of a whole record (R171). -/
def recordLines (text : List Cell) : List (Nat × List Cell) := linesFrom 0 0 [] text

/-! ### FPARSE: one line -/

/-- A cell that may stand in a blank line: space, tab, carriage return (R172). -/
def isBlankCell (c : Cell) : Bool := c == chSP || c == chTAB || c == chCR

/-- A blank line: no cell, or blank cells only (R172). -/
def isBlankLine (line : List Cell) : Bool := line.all isBlankCell

/-- The split on the first colon: the token before it and the count text after it; none without a colon (R173). -/
def splitColon : List Cell → Option (List Cell × List Cell)
  | [] => none
  | c :: cells =>
    if c = chColon then some ([], cells)
    else (splitColon cells).map fun fields => (c :: fields.1, fields.2)

/-- The symbol a token stands for: the two cells N L are the newline, one cell is itself (R174). -/
def tokenSymbol : List Cell → Option Cell
  | [c] => some c
  | [a, b] => if a = chN ∧ b = chL then some chNL else none
  | _ => none

/-- A decimal digit character, CH_0 to CH_9 (R175). -/
def isDecimal (c : Cell) : Bool := decide (ch0 ≤ c) && decide (c ≤ ch9)

/-- The number the digits spell, most significant first, without wrap-around (R176). -/
def decimalValue (digits : List Cell) : Nat := digits.foldl (fun v c => 10 * v + (c.toNat - ch0.toNat)) 0

/-- The count a text stands for: at least one digit, digits only, no more than CNTMAX (R175, R176). -/
def countValue (text : List Cell) : Option Word :=
  if text.isEmpty || !(text.all isDecimal) then none
  else if cntMax < decimalValue text then none
  else some (BitVec.ofNat 32 (decimalValue text))

/-- What one line of the record is. -/
inductive LineVerdict where
  /-- Passed over without a warning (R172). -/
  | blank
  /-- Malformed: passed over with a warning (R177). -/
  | skipped
  /-- A symbol and its count. -/
  | entry (sym : Cell) (count : Word)
  deriving DecidableEq, Repr

/-- The verdict on one line, in the order of the pseudocode (R170, R172 to R176). -/
def lineVerdict (line : List Cell) : LineVerdict :=
  if isBlankLine line then .blank
  else
    match splitColon line with
    | none => .skipped
    | some (token, count) =>
      match tokenSymbol token with
      | none => .skipped
      | some sym =>
        match countValue count with
        | none => .skipped
        | some v => .entry sym v

/-! ### FPARSE: the table -/

/-- The shadow of FPARSE: the table F and the warning count w (R170). -/
structure Parse where
  table : List (Cell × Word)
  warn  : Nat
  deriving DecidableEq, Repr

/-- Replace the count of the lowest entry that has the symbol; none if no entry has it (R178). -/
def replaceCount (sym : Cell) (count : Word) : List (Cell × Word) → Option (List (Cell × Word))
  | [] => none
  | (x, v) :: rest =>
    if x = sym then some ((x, count) :: rest)
    else (replaceCount sym count rest).map fun rest' => (x, v) :: rest'

/-- The form "associative insert" of R76: a known symbol's count is replaced in place, a new symbol is
appended; `a` is the index of the line's first cell, the position of the capacity fault (R178, R179). -/
def insertEntry (nfreq a : Nat) (sym : Cell) (count : Word) (table : List (Cell × Word)) :
    Except Raise (List (Cell × Word)) :=
  match replaceCount sym count table with
  | some table' => .ok table'
  | none =>
    if nfreq ≤ table.length then .error { kind := .capacity, pos := a }
    else .ok (table ++ [(sym, count)])

/-- One line of the parse (R170, R177). -/
def parseLine (nfreq : Nat) (line : Nat × List Cell) (p : Parse) : Except Raise Parse :=
  match lineVerdict line.2 with
  | .blank => .ok p
  | .skipped => .ok { p with warn := p.warn + 1 }
  | .entry sym count =>
    match insertEntry nfreq line.1 sym count p.table with
    | .error r => .error r
    | .ok table => .ok { p with table := table }

/-- The parse of the lines, one after another. -/
def parseLines (nfreq : Nat) : List (Nat × List Cell) → Parse → Except Raise Parse
  | [], p => .ok p
  | line :: lines, p =>
    match parseLine nfreq line p with
    | .error r => .error r
    | .ok p' => parseLines nfreq lines p'

/-- The shadow of FPARSE: table and warnings, or the fault and the value WARN then takes (R170, R179). -/
def fparseShadow (s : State) : Except (Raise × Nat) Parse :=
  if s.cfg.nin < s.ilen.toNat then .error ({ kind := .capacity, pos := s.cfg.nin }, 0)
  else
    match parseLines s.cfg.nfreq (recordLines s.input) { table := [], warn := 0 } with
    | .error r => .error (r, 0)
    | .ok p =>
      if p.table.length = 0 then .error ({ kind := .tableParse, pos := s.ilen.toNat }, p.warn)
      else .ok p

/-- FPARSE (R170). -/
def execFparse (s : State) : Result :=
  match fparseShadow s with
  | .ok p => .next (commitTable p.table p.warn s)
  | .error (r, warn) => .next (takeFault (.table warn) r s)

/-! ### FSER -/

/-- The decimal digits of a number, most significant first; `fuel` bounds their number. -/
def decimalDigits : Nat → Nat → List Nat
  | 0, _ => []
  | fuel + 1, v => if v < 10 then [v] else decimalDigits fuel (v / 10) ++ [v % 10]

/-- `dec(v)` of R186: the count in decimal, one to ten cells, no leading zero. -/
def decimalCells (v : Word) : List Cell := (decimalDigits 10 v.toNat).map digitCell

/-- The token of a symbol: N L for the newline, the symbol's own cell otherwise (R186). -/
def symbolToken (sym : Cell) : List Cell := if sym = chNL then [chN, chL] else [sym]

/-- The written line of an entry: token, colon, count, newline (R186). -/
def recordLine (entry : Cell × Word) : List Cell :=
  symbolToken entry.1 ++ [chColon] ++ decimalCells entry.2 ++ [chNL]

/-- The loop over the table from entry `e` on. -/
def fserFrom (nout : Nat) : Nat → List (Cell × Word) → List Cell → Except Raise (List Cell)
  | _, [], out => .ok out
  | e, entry :: table, out =>
    if nout < out.length + (recordLine entry).length then .error { kind := .capacity, pos := e }
    else fserFrom nout (e + 1) table (out ++ recordLine entry)

/-- The shadow of FSER: the record text, or the fault (R185). -/
def fserShadow (s : State) : Except Raise (List Cell) :=
  if s.cfg.nfreq < s.fcnt.toNat then .error { kind := .capacity, pos := s.cfg.nfreq }
  else fserFrom s.cfg.nout 0 s.table []

/-- FSER (R185). -/
def execFser (s : State) : Result := finishOutput (fserShadow s) s

end Sys2Proof.Machine
end

