-- ==== Sys2Proof/Machine/System.lean ====
section
/-! DEFINITION. NOP (44_system R200). -/

namespace Sys2Proof.Machine

/-- NOP (R200): STATUS.ERR <- 0, STATUS.DONE <- 1, ERRPOS <- 0. -/
def execNop (s : State) : Result := .next (complete s)

end Sys2Proof.Machine
end

