-- ==== Sys2Proof/Machine/Port.lean ====
section
/-! DEFINITION. The host port (20_memory R60 to R67): the address map, the registers and elements as the port
reads and writes them, and one host event performed whole, a command inside its CMD write. -/

namespace Sys2Proof.Machine

open Sys2Proof

/-! ### The registers -/

/-- The register at an offset of space REG; none from 0x2C on (R34, R64). -/
def Reg.ofOffset : Nat → Option Reg
  | 0x00 => some .cmd
  | 0x04 => some .status
  | 0x08 => some .ctrl
  | 0x0C => some .ilen
  | 0x10 => some .olen
  | 0x14 => some .klen
  | 0x18 => some .ccnt
  | 0x1C => some .root
  | 0x20 => some .fcnt
  | 0x24 => some .warn
  | 0x28 => some .errpos
  | _ => none

/-- A register as the port reads it: reserved bits of STATUS and CTRL read 0 (R29, R31, R66). -/
def State.readReg (s : State) (r : Reg) : Word :=
  match r with
  | .status => s.reg .status &&& statusMask
  | .ctrl => s.reg .ctrl &&& ctrlMask
  | .cmd | .ilen | .olen | .klen | .ccnt | .root | .fcnt | .warn | .errpos => s.reg r

/-- A port write to a register: read-only registers ignore it, reserved bits of CTRL are dropped, the others
store all 32 bits (R66). For CMD this is the storing alone; what the write then runs is `startCommand`. -/
def State.writeReg (s : State) (r : Reg) (v : Word) : State :=
  match r with
  | .cmd => { s with cmd := v }
  | .status => s
  | .ctrl => { s with ctrl := v &&& ctrlMask }
  | .ilen => { s with ilen := v }
  | .olen => s
  | .klen => { s with klen := v }
  | .ccnt => { s with ccnt := v }
  | .root => { s with root := v }
  | .fcnt => { s with fcnt := v }
  | .warn => s
  | .errpos => s

/-! ### The address map -/

/-- What a port address names. -/
inductive Loc where
  | reg (r : Reg)
  | element (f : Field) (index : Nat)
  /-- A reserved word of a CODE or FREQ record: reads 0, ignores writes (R64). -/
  | reserved
  deriving DecidableEq, Repr

/-- The words of a CODE entry (R64). -/
def codeWordAt (j : Nat) : Nat → Loc
  | 0 => .element .codeSym j
  | 4 => .element .codeLen j
  | 8 => .element .codeBase j
  | _ => .reserved

/-- The words of a TREE record (R64). -/
def treeWordAt (n : Nat) : Nat → Loc
  | 0 => .element .treeLeft n
  | 4 => .element .treeRight n
  | 8 => .element .treeSym n
  | _ => .element .treeLeaf n

/-- The words of a FREQ entry (R64). -/
def freqWordAt (e : Nat) : Nat → Loc
  | 0 => .element .freqSym e
  | 4 => .element .freqCount e
  | _ => .reserved

/-- The address map (R63, R65): what a transaction on `addr` with access size `size` reaches, none where it
answers BusError. `addr[26:24]` selects the space, `addr[23:0]` is the offset in it. -/
def locate (c : Config) (addr size : Nat) : Option Loc :=
  let off := addr % 2 ^ 24
  if addr % 4 ≠ 0 then none
  else if size ≠ 4 then none
  else if 0x07FFFFFF < addr then none
  else
    match addr / 2 ^ 24 with
    | 0 => (Reg.ofOffset off).map .reg
    | 1 => if off / 4 < c.nin then some (.element .input (off / 4)) else none
    | 2 => if off / 4 < c.nout then some (.element .output (off / 4)) else none
    | 3 => if off / 4 < c.nkey then some (.element .key (off / 4)) else none
    | 4 => if off / 16 < c.ncode then some (codeWordAt (off / 16) (off % 16)) else none
    | 5 => if off / 4 < c.ncdig then some (.element .cdig (off / 4)) else none
    | 6 => if off / 16 < c.nnode then some (treeWordAt (off / 16) (off % 16)) else none
    | 7 => if off / 16 < c.nfreq then some (freqWordAt (off / 16) (off % 16)) else none
    | _ => none

/-- The word a location reads as (R64, R66). -/
def State.readLoc (s : State) : Loc → Word
  | .reg r => s.readReg r
  | .element f index => s.element f index
  | .reserved => 0#32

/-- Store a word at a location (R64, R66). -/
def State.writeLoc (s : State) (l : Loc) (v : Word) : State :=
  match l with
  | .reg r => s.writeReg r v
  | .element f index => s.setElement f index v
  | .reserved => s

/-- The port's view of the window as bytes, little-endian: byte k of the word at an aligned address (R67). -/
def State.windowByte (s : State) (addr : Nat) : Option Byte :=
  (locate s.cfg (addr - addr % 4) 4).map fun l => byteOfWord (s.readLoc l) (addr % 4)

/-! ### One host event -/

/-- The answer of the port, recorded (R61; log 6). -/
def State.respond (s : State) (r : PortResponse) : State := { s with response := some r }

/-- The write to CMD: the word is stored, then the command it encodes runs to its end, or the
illegal-command behaviour does (R30, R60, R101, R201). -/
def startCommand (w : Word) (s : State) : Result :=
  match decodeWord w with
  | .ok i => exec i (s.writeReg .cmd w)
  | .error _ => .next (illegalCommand (s.writeReg .cmd w))

/-- `MemRead(addr, size)`: no side effect but the answer (R61, R62). -/
def portRead (addr size : Nat) (s : State) : State :=
  match locate s.cfg addr size with
  | none => s.respond .busError
  | some l => s.respond (.okRead (s.readLoc l))

/-- `MemWrite(addr, size, v)`: BusError and no change, or the store; only a store to CMD runs a command (R61, R62, R65). -/
def portWrite (addr size : Nat) (v : Word) (s : State) : Result :=
  match locate s.cfg addr size with
  | none => .next (s.respond .busError)
  | some (.reg .cmd) => startCommand v (s.respond .okWrite)
  | some l => .next ((s.writeLoc l v).respond .okWrite)

/-- One host event, performed whole (R60, R260). -/
def perform (e : HostEvent) (s : State) : Result :=
  match e with
  | .read addr size => .next (portRead addr size s)
  | .write addr size v => portWrite addr size v s
  | .reset => .next s.resetEvent

end Sys2Proof.Machine
end

