-- ==== Sys2Proof/Machine/Step.lean ====
section
/-! DEFINITION. The step: the host's next event is performed whole; with none waiting the block is idle
(20_memory R60, 60_exceptions R255, 70_reset R261). -/

namespace Sys2Proof.Machine

open Sys2Proof

/-- One step of the machine (R60): the oldest waiting event leaves the queue and is performed. With no event
waiting the block is idle and holds its state (R255, R261). -/
def step (s : State) : Host.Outcome State Fault Refusal :=
  match s.pending with
  | [] => .next s
  | e :: rest => perform e { s with pending := rest }

/-- The host's next transaction becomes the write of a command word to CMD (offset 0x00 of space REG): the
word made of the low `nbits` bits of `w`. That write is where this machine takes its next instruction from
(R28, R30; log 5). -/
def State.withFetchWord (s : State) (nbits w : Nat) : State :=
  { s with pending := .write 0 4 (tableWord nbits w) :: s.pending }

end Sys2Proof.Machine
end

