-- ==== Sys2Proof/Machine/HostScript.lean ====
section
/-! DEFINITION. The host script notation and the pseudo-instructions (30_encoding R108, R109), each as the
port transactions it expands to. Host software: no step of the block calls anything here. -/

namespace Sys2Proof.Machine

open Sys2Proof

/-- The offset of a register in space REG (R64). -/
def regAddr : Reg → Nat
  | .cmd => 0x00
  | .status => 0x04
  | .ctrl => 0x08
  | .ilen => 0x0C
  | .olen => 0x10
  | .klen => 0x14
  | .ccnt => 0x18
  | .root => 0x1C
  | .fcnt => 0x20
  | .warn => 0x24
  | .errpos => 0x28

/-- The port address of one element: the base of its space, its index, the offset of its field (R63, R108). -/
def elementAddr : Field → Nat → Nat
  | .input, i => 0x01000000 + 4 * i
  | .output, i => 0x02000000 + 4 * i
  | .key, i => 0x03000000 + 4 * i
  | .codeSym, j => 0x04000000 + 16 * j
  | .codeLen, j => 0x04000000 + 16 * j + 4
  | .codeBase, j => 0x04000000 + 16 * j + 8
  | .cdig, t => 0x05000000 + 4 * t
  | .treeLeft, n => 0x06000000 + 16 * n
  | .treeRight, n => 0x06000000 + 16 * n + 4
  | .treeSym, n => 0x06000000 + 16 * n + 8
  | .treeLeaf, n => 0x06000000 + 16 * n + 12
  | .freqSym, e => 0x07000000 + 16 * e
  | .freqCount, e => 0x07000000 + 16 * e + 4

/-- `wr REGNAME, v` (R108). -/
def wrReg (r : Reg) (v : Word) : HostEvent := .write (regAddr r) 4 v
/-- `rd REGNAME` (R108). -/
def rdReg (r : Reg) : HostEvent := .read (regAddr r) 4
/-- `wr SPACE[i], v` and `wr SPACE[i].FIELD, v` (R108). -/
def wrElem (f : Field) (i : Nat) (v : Word) : HostEvent := .write (elementAddr f i) 4 v
/-- `rd SPACE[i]` and `rd SPACE[i].FIELD` (R108). -/
def rdElem (f : Field) (i : Nat) : HostEvent := .read (elementAddr f i) 4
/-- `cmd MNEMONIC` (R108). -/
def cmdEvent (i : Instr) : HostEvent := wrReg .cmd (encode i)

/-- `ldcells SPACE, v0 v1 ...`, from index `i` on (R109). -/
def ldcellsFrom (f : Field) : Nat → List Word → List HostEvent
  | _, [] => []
  | i, v :: vs => wrElem f i v :: ldcellsFrom f (i + 1) vs

/-- `ldcells SPACE, v0 v1 ...` (R109). -/
def ldcells (f : Field) (vs : List Word) : List HostEvent := ldcellsFrom f 0 vs

/-- `ldstr SPACE, "text"` (R109); it writes no length register. -/
def ldstr (f : Field) (text : List Cell) : List HostEvent := ldcells f (text.map fun c => c.setWidth 32)

/-- `node n, l, r, s, f` (R109). -/
def nodeScript (n : Nat) (l r s f : Word) : List HostEvent :=
  [wrElem .treeLeft n l, wrElem .treeRight n r, wrElem .treeSym n s, wrElem .treeLeaf n f]

/-- `code j, s, len, base` (R109). -/
def codeScript (j : Nat) (s len base : Word) : List HostEvent :=
  [wrElem .codeSym j s, wrElem .codeLen j len, wrElem .codeBase j base]

/-- `freq e, s, c` (R109). -/
def freqScript (e : Nat) (s c : Word) : List HostEvent :=
  [wrElem .freqSym e s, wrElem .freqCount e c]

/-- `mvout` (R109), given the state it starts in: n = rd OLEN; for i = 0 to n-1: v = rd OUT[i]; wr IN[i], v;
then wr ILEN, n. -/
def mvoutScript (s : State) : List HostEvent :=
  rdReg .olen ::
    (List.range s.olen.toNat).flatMap (fun i => [rdElem .output i, wrElem .input i (s.element .output i)]) ++
    [wrReg .ilen s.olen]

/-- `decx` (R109), given the state it starts in: CTRL with bit 1 set, then DEC. -/
def decxScript (s : State) : List HostEvent :=
  [rdReg .ctrl, wrReg .ctrl (s.readReg .ctrl ||| 0x2#32), cmdEvent .dec]

/-- The host performs a list of events, one after another (R60). DESIGN CHOICE (log 17): the host does not look at
the answers of a script, so after a BusError, which is the host's affair (R246), it goes on with the next event. -/
def performAll : List HostEvent → State → Result
  | [], s => .next s
  | e :: es, s =>
    match perform e s with
    | .next s' => performAll es s'
    | .fault r => .fault r
    | .refused r => .refused r

/-- `encx` (R109): `cmd ENC`; `mvout`; `cmd XOR`, the host testing STATUS.ERR after each `cmd`. DESIGN CHOICE
(log 15): the rule does not say what the host does when the test finds a fault; here it stops, so that
STATUS still reports the fault of ENC. The test after XOR is the caller's, on the state this answers. -/
def encx (s : State) : Result :=
  match performAll [cmdEvent .enc] s with
  | .next t => if t.err = 0#8 then performAll (mvoutScript t ++ [cmdEvent .xor]) t else .next t
  | .fault r => .fault r
  | .refused r => .refused r

/-- The word `rd` gives the host (R61, R108): none when the port answers BusError. A read changes nothing but
the recorded answer (R62), so a host may take several words from one state. -/
def rdWord (e : HostEvent) (s : State) : Option Word :=
  match perform e s with
  | .next t =>
    match t.response with
    | some (.okRead w) => some w
    | some .okWrite => none
    | some .busError => none
    | none => none
  | .fault _ => none
  | .refused _ => none

/-- The last result as the host reads it: `rd OLEN`, then `rd OUT[i]` for each i below it (R219 to R222). -/
def readOutput (s : State) : Option (List Cell) :=
  (rdWord (rdReg .olen) s).bind fun n =>
    (List.range n.toNat).mapM fun i => (rdWord (rdElem .output i) s).map fun w => w.setWidth symw

/-- What `mvout` leaves behind: the last result stands in IN and its length in ILEN (R109). -/
def State.movedOut (s : State) : State :=
  { s with inMem := Memory.writeFrom s.inMem 0 s.output, ilen := s.olen }

end Sys2Proof.Machine
end

