-- ==== Sys2Proof/Machine/HostTables.lean ====
section
/-! DEFINITION. What the host computes and loads (45_host_collaborators R210 to R219): the frequency counter,
the reference tree builder, the code generator, their loading, the payload file. The spec's scope file puts
these on the host (00_scope R5); no step of the block calls anything here. They are what the premises of the
round-trip property (R152) are stated with. -/

namespace Sys2Proof.Machine

open Sys2Proof

/-- A node of the host's tree (R211): a leaf holds a character and its frequency, an internal node the sum
of its two required children. `index` is the TREE record the node is loaded into (R216). -/
inductive HTree where
  | leaf (index : Nat) (sym : Cell) (freq : Nat)
  | node (index : Nat) (freq : Nat) (left right : HTree)
  deriving DecidableEq, Repr

/-- The frequency of a node (R211). -/
def HTree.freq : HTree → Nat
  | .leaf _ _ f => f
  | .node _ f _ _ => f

/-- The TREE record of a node (R216). -/
def HTree.index : HTree → Nat
  | .leaf i _ _ => i
  | .node i _ _ _ => i

/-- The characters and frequencies of the leaves, left to right. -/
def HTree.leaves : HTree → List (Cell × Nat)
  | .leaf _ sym f => [(sym, f)]
  | .node _ _ l r => l.leaves ++ r.leaves

/-- The TREE records of the nodes, the root's last. -/
def treeIndices : HTree → List Nat
  | .leaf i _ _ => [i]
  | .node i _ l r => treeIndices l ++ treeIndices r ++ [i]

/-! ### Counting (R210) -/

/-- Count one more occurrence of a character; a new one is appended (R210, D35). -/
def countOne (sym : Cell) : List (Cell × Nat) → List (Cell × Nat)
  | [] => [(sym, 1)]
  | (x, n) :: rest => if x = sym then (x, n + 1) :: rest else (x, n) :: countOne sym rest

/-- FrequencyCounter: the table of a text, in order of first appearance (R210). -/
def countText (text : List Cell) : List (Cell × Nat) := text.foldl (fun t c => countOne c t) []

/-! ### Building (R211 to R213) -/

/-- Every internal node's frequency is the sum of its two children's (R218). -/
def HTree.Conserves : HTree → Prop
  | .leaf _ _ _ => True
  | .node _ f l r => f = l.freq + r.freq ∧ l.Conserves ∧ r.Conserves

/-- A node in the builder's priority order: ascending (frequency, sequence number) (R212). The sequence
number is also the record index of the reference layout (R216). -/
def HTree.before (a b : HTree) : Bool :=
  decide (a.freq < b.freq) || (decide (a.freq = b.freq) && decide (a.index < b.index))

/-- Put a node into the ordered collection. -/
def insertNode (t : HTree) : List HTree → List HTree
  | [] => [t]
  | x :: rest => if t.before x then t :: x :: rest else x :: insertNode t rest

/-- The leaves of a table, leaf of entry e with sequence number e (R212). -/
def tableLeaves : Nat → List (Cell × Nat) → List HTree
  | _, [] => []
  | e, (sym, f) :: rest => .leaf e sym f :: tableLeaves (e + 1) rest

/-- Extract the two first nodes, join them (first LEFT, second RIGHT), reinsert, until one is left; `seq` is
the next internal node's sequence number, `fuel` bounds the rounds (R211, R212). -/
def mergeNodes : Nat → Nat → List HTree → Option HTree
  | _, _, [] => none
  | _, _, [t] => some t
  | 0, _, _ :: _ :: _ => none
  | fuel + 1, seq, a :: b :: rest =>
    mergeNodes fuel (seq + 1) (insertNode (.node seq (a.freq + b.freq) a b) rest)

/-- HuffmanTreeBuilder, the reference builder (R211 to R213); an empty table is a TreeConstructionError. -/
def buildTree (table : List (Cell × Nat)) : Except ErrorKind HTree :=
  match mergeNodes table.length table.length ((tableLeaves 0 table).foldr insertNode []) with
  | some t => .ok t
  | none => .error .treeConstruction

/-! ### Codes (R214, R217) -/

/-- The paths of the leaves below a node: digit 0 left, digit 1 right; `path` is the node's own path (R214). -/
def HTree.paths : HTree → List Bit → List (Cell × List Bit)
  | .leaf _ sym _, path => [(sym, path)]
  | .node _ _ l r, path => l.paths (path ++ [0#1]) ++ r.paths (path ++ [1#1])

/-- CodeTableGenerator: each leaf's path from the root; a single leaf has the code "0" (R214). -/
def HTree.codes : HTree → List (Cell × List Bit)
  | .leaf _ sym _ => [(sym, [0#1])]
  | .node i f l r => (HTree.node i f l r).paths []

/-- The code a table gives a symbol, the empty list if it gives none. -/
def codeOf (codes : List (Cell × List Bit)) (sym : Cell) : List Bit :=
  match codes.find? fun entry => entry.1 == sym with
  | some entry => entry.2
  | none => []

/-- The digits of a text under a code table: the codes one after another, in source order (R103). -/
def textDigits (codes : List (Cell × List Bit)) (text : List Cell) : List Bit :=
  (text.map (codeOf codes)).flatten

/-! ### Loading (R215, R216) -/

/-- Load the code table in the reference layout: entry j, codes packed from CDIG[base] on; then CCNT (R215).
DESIGN CHOICE (log 18): LEN, BASE and CCNT receive the low 32 bits of the number. -/
def loadCodesFrom : Nat → Nat → List (Cell × List Bit) → List HostEvent
  | j, _, [] => [wrReg .ccnt (BitVec.ofNat 32 j)]
  | j, base, (sym, digits) :: rest =>
    codeScript j (sym.setWidth 32) (BitVec.ofNat 32 digits.length) (BitVec.ofNat 32 base) ++
      ldcellsFrom .cdig base (digits.map fun d => d.setWidth 32) ++
      loadCodesFrom (j + 1) (base + digits.length) rest

/-- Load a code table (R215). -/
def loadCodes (codes : List (Cell × List Bit)) : List HostEvent := loadCodesFrom 0 0 codes

/-- Load the records of a tree (R216). DESIGN CHOICE (log 18): LEFT and RIGHT receive the low 32 bits of the
child's index. -/
def HTree.loadNodes : HTree → List HostEvent
  | .leaf i sym _ => nodeScript i null null (sym.setWidth 32) 1#32
  | .node i _ l r =>
    l.loadNodes ++ r.loadNodes ++ nodeScript i (BitVec.ofNat 32 l.index) (BitVec.ofNat 32 r.index) 0#32 0#32

/-- Load a tree and ROOT, which receives the low 32 bits of the root's index (R216; DESIGN CHOICE, log 18). -/
def loadTree (t : HTree) : List HostEvent := t.loadNodes ++ [wrReg .root (BitVec.ofNat 32 t.index)]

/-! ### What the block's memories hold -/

/-- TREE holds the tree `t`: every node either has no child and LEAF = 1, or two children in range (R152, R216, R266). -/
def HTree.held (s : State) : HTree → Prop
  | .leaf i sym _ =>
    i < s.cfg.nnode ∧ (s.node i).left = null ∧ (s.node i).right = null ∧
      (s.node i).sym = sym ∧ (s.node i).leaf = 1#1
  | .node i _ l r =>
    i < s.cfg.nnode ∧ (s.node i).left.toNat = l.index ∧ (s.node i).right.toNat = r.index ∧
      l.held s ∧ r.held s

/-- CODE and CDIG hold a code table: for each of its symbols the lookup finds an entry inside CDIG whose digits
are the symbol's code (R152, R215). -/
def codesHeld (s : State) (codes : List (Cell × List Bit)) : Prop :=
  ∀ entry ∈ codes, ∃ j, s.lookup entry.1 = some j ∧ s.codeDigits j = entry.2 ∧
    (s.codeEntry j).base.toNat + (s.codeEntry j).len.toNat ≤ s.cfg.ncdig

/-! ### The payload file (R107, R219) -/

/-- The marker line of a ciphered payload. -/
def markEncrypted : List Cell := "ENCRYPTED".toList.map fun c => BitVec.ofNat symw c.toNat
/-- The marker line of a plain payload. -/
def markPlain : List Cell := "PLAIN".toList.map fun c => BitVec.ofNat symw c.toNat

/-- The payload file: the marker, then the cells (R107, R219). DESIGN CHOICE (log 14): a line ends with CH_NL
alone, and the payload stands on one line; the spec names no separator (91 N11) and lets the host break lines
as it likes. -/
def payloadFile (ciphered : Bool) (payload : List Cell) : List Cell :=
  (if ciphered then markEncrypted else markPlain) ++ [chNL] ++ payload ++ [chNL]

/-- Reading it: the marker gives CTRL.CIPH, the other lines are joined without their separators; none when
the first line is no marker (R107, R219). DESIGN CHOICE (log 14): CH_NL alone separates lines, so a CH_CR
belongs to the marker line or the payload it stands in. -/
def readPayloadFile (file : List Cell) : Option (Bool × List Cell) :=
  match recordLines file with
  | [] => none
  | (_, mark) :: lines =>
    if mark = markEncrypted then some (true, (lines.map Prod.snd).flatten)
    else if mark = markPlain then some (false, (lines.map Prod.snd).flatten)
    else none

end Sys2Proof.Machine
end

