-- ==== Sys2Proof/Machine/HostPaths.lean ====
section
/-! DEFINITION. The two paths of the host (45_host_collaborators R220 to R222): what the host computes, loads,
commands and reads to encode a text into its two files, and to decode them. Host software: no step of the block
calls anything here (log 12). -/

namespace Sys2Proof.Machine

open Sys2Proof

/-- The host performs events that end in a command and looks at STATUS.ERR, as it must after each command
(R109, R240): the state if no fault is reported. DESIGN CHOICE (log 15): on a fault the path ends with none. -/
def runChecked (events : List HostEvent) (s : State) : Option State :=
  match performAll events s with
  | .next t => if t.err = 0#8 then some t else none
  | .fault _ => none
  | .refused _ => none

/-- Load a text or payload into IN and its length into ILEN (R219, R221). DESIGN CHOICE (log 18): ILEN receives
the low 32 bits of the length; a text of 2^32 cells or more the spec does not speak of. -/
def loadInput (cells : List Cell) : List HostEvent :=
  ldstr .input cells ++ [wrReg .ilen (BitVec.ofNat 32 cells.length)]

/-- Load a key into KEY and its length into KLEN (R221). DESIGN CHOICE (log 18): KLEN receives the low 32 bits
of the length. -/
def loadKey (key : List Cell) : List HostEvent :=
  ldstr .key key ++ [wrReg .klen (BitVec.ofNat 32 key.length)]

/-- Load the entries of a frequency table from index `e` on, then FCNT (R220, R221). DESIGN CHOICE (log 18): each
COUNT, and FCNT, receives the low 32 bits of the number. -/
def loadFreqFrom : Nat → List (Cell × Nat) → List HostEvent
  | e, [] => [wrReg .fcnt (BitVec.ofNat 32 e)]
  | e, (sym, n) :: rest => freqScript e (sym.setWidth 32) (BitVec.ofNat 32 n) ++ loadFreqFrom (e + 1) rest

/-- The code table of a tree in the order of the frequency table, as the reference layout loads it (R215). -/
def codesInTableOrder (table : List (Cell × Nat)) (tree : HTree) : List (Cell × List Bit) :=
  table.map fun entry => (entry.1, codeOf tree.codes entry.1)

/-- Set or clear CTRL.CIPH and keep STRICT (R219; R109 `decx`). -/
def setCiph (ciphered : Bool) (s : State) : HostEvent :=
  wrReg .ctrl (if ciphered then s.readReg .ctrl ||| 0x2#32 else s.readReg .ctrl &&& 0x1#32)

/-! ### The frequency-table file (R220) -/

/-- Writing the file: load FREQ and FCNT, run FSER, store OUT[0..OLEN-1]; the file and the state after. -/
def writeTableFile (table : List (Cell × Nat)) (s : State) : Option (List Cell × State) :=
  (runChecked (loadFreqFrom 0 table ++ [cmdEvent .fser]) s).bind fun (t : State) =>
  (readOutput t).map fun file => (file, t)

/-- The characters of a file with the CH_CR of every line end removed, so that CH_NL alone stands between lines
(R171, R220, R268). DESIGN CHOICE (log 16): a CH_CR elsewhere in a line stays, for it may be the line's own
symbol, which FSER writes literally and FPARSE reads back (R187 c). -/
def dropLineEndCR : List Cell → List Cell
  | [] => []
  | c :: rest =>
    if c = chCR ∧ (rest.head? = none ∨ rest.head? = some chNL) then dropLineEndCR rest else c :: dropLineEndCR rest

/-- What the host reads after FPARSE (R220): FCNT, WARN and FREQ[0..FCNT-1]. -/
structure TableReading where
  fcnt  : Word
  warn  : Word
  table : List (Cell × Word)
  deriving DecidableEq, Repr

/-- `rd FCNT`, `rd WARN`, then SYM and COUNT of each entry below FCNT (R220). -/
def readTable (s : State) : Option TableReading :=
  (rdWord (rdReg .fcnt) s).bind fun n =>
  (rdWord (rdReg .warn) s).bind fun warn =>
  ((List.range n.toNat).mapM fun e =>
    (rdWord (rdElem .freqSym e) s).bind fun sym =>
    (rdWord (rdElem .freqCount e) s).map fun count => (sym.setWidth symw, count)).map fun table =>
      { fcnt := n, warn := warn, table := table }

/-- Reading the file: its characters into IN without the CH_CR of a line end, ILEN, FPARSE, then FCNT, WARN and
FREQ (R220); what was read, and the state after. -/
def readTableFile (file : List Cell) (s : State) : Option (TableReading × State) :=
  (runChecked (loadInput (dropLineEndCR file) ++ [cmdEvent .fparse]) s).bind fun (t : State) =>
  (readTable t).map fun reading => (reading, t)

/-! ### The two paths -/

/-- The encode path (R221): the payload file and the frequency-table file of a text; with a key the payload is
ciphered. None when the text is empty, when a host part fails or when a command reports a fault (log 15). -/
def encodePath (text : List Cell) (key : Option (List Cell)) (s : State) : Option (List Cell × List Cell) :=
  let table := countText text
  match buildTree table with
  | .error _ => none
  | .ok tree =>
    (runChecked (loadCodes (codesInTableOrder table tree) ++ loadInput text ++ [cmdEvent .enc]) s).bind fun (t : State) =>
    (match key with
      | none => some t
      | some k => runChecked (loadKey k ++ mvoutScript t ++ [cmdEvent .xor]) t).bind fun (u : State) =>
    (readOutput u).bind fun payload =>
    (writeTableFile table u).map fun (written : List Cell × State) => (payloadFile key.isSome payload, written.1)

/-- The decode path (R222): what was read of the frequency-table file, WARN included, and the text. None when a
host part fails or a command reports a fault (log 15). -/
def decodePath (tableFile payload : List Cell) (key : List Cell) (s : State) : Option (TableReading × List Cell) :=
  (readTableFile tableFile s).bind fun (read : TableReading × State) =>
  match buildTree (read.1.table.map fun entry => (entry.1, entry.2.toNat)), readPayloadFile payload with
  | .ok tree, some (ciphered, cells) =>
    (runChecked (loadTree tree ++ loadInput cells ++ (if ciphered then loadKey key else []) ++
      [setCiph ciphered read.2, cmdEvent .dec]) read.2).bind fun (u : State) =>
    (readOutput u).map fun text => (read.1, text)
  | .ok _, none => none
  | .error _, _ => none

end Sys2Proof.Machine
end

