-- ==== Sys2Proof/Safety.lean ====
section
/-! DEFINITION. The terms the statements use: the invariant of the block, the errors each command may report
(60_exceptions R230), what stays unchanged (10_state R27), and which operands a command depends on (70_reset R262). -/

namespace Sys2Proof.Machine

open Sys2Proof

/-! ### The invariant -/

/-- Every array of the seven memories is in canonical form, inside its capacity (log 1). -/
structure State.MemoriesWf (s : State) : Prop where
  input : Memory.wf s.cfg.nin s.inMem = true
  output : Memory.wf s.cfg.nout s.outMem = true
  key : Memory.wf s.cfg.nkey s.keyMem = true
  codeSym : Memory.wf s.cfg.ncode s.codeSym = true
  codeLen : Memory.wf s.cfg.ncode s.codeLen = true
  codeBase : Memory.wf s.cfg.ncode s.codeBase = true
  cdig : Memory.wf s.cfg.ncdig s.cdig = true
  treeLeft : Memory.wf s.cfg.nnode s.treeLeft = true
  treeRight : Memory.wf s.cfg.nnode s.treeRight = true
  treeSym : Memory.wf s.cfg.nnode s.treeSym = true
  treeLeaf : Memory.wf s.cfg.nnode s.treeLeaf = true
  freqSym : Memory.wf s.cfg.nfreq s.freqSym = true
  freqCount : Memory.wf s.cfg.nfreq s.freqCount = true

/-- The errors a command may report: the column "raised by" of R230, read by command. -/
def commandErrors : Instr → List ErrorKind
  | .nop => []
  | .enc => [.emptySource, .missingCode, .capacity, .codeFormat]
  | .dec => [.malformedPayload, .invalidKey, .capacity, .treeFormat]
  | .xor => [.invalidKey, .capacity]
  | .fparse => [.tableParse, .capacity]
  | .fser => [.capacity]

/-- STATUS.ERR agrees with the word in CMD (R29, R230, R237): after an illegal word it is 8; after a command it
is 0 or one of that command's error codes, and OLEN is 0 if a command with an output faulted (R240). -/
def State.ErrHonest (s : State) : Prop :=
  match decodeWord s.cmd with
  | .error _ => s.err = ErrorKind.illegalCommand.code
  | .ok i =>
    (s.err = 0#8 ∨ ∃ k ∈ commandErrors i, s.err = k.code) ∧
    (s.err ≠ 0#8 → i ≠ .fparse → s.olen = 0#32)

/-- The invariant of the block: what holds after reset and after every step. -/
structure State.Inv (s : State) : Prop where
  /-- The parameters are within R6. -/
  cfgValid : s.cfg.Valid
  /-- The reserved bits of STATUS are 0 (R29). -/
  statusReserved : s.status.toNat < 2 ^ 9
  /-- The reserved bits of CTRL are 0 (R31, R66). -/
  ctrlReserved : s.ctrl.toNat < 2 ^ 2
  /-- OLEN never exceeds NOUT (R22). -/
  olenFits : s.olen.toNat ≤ s.cfg.nout
  /-- WARN counts lines of an input that fitted IN (R32, R177). -/
  warnFits : s.warn.toNat ≤ s.cfg.nin
  /-- ERRPOS is 0 on success (R33). -/
  successPos : s.err = 0#8 → s.errpos = 0#32
  /-- Before the first command, the registers only commands write hold their reset values (R29, R30, R45). -/
  beforeFirst : s.done = false → s.cmd = 0#32 ∧ s.err = 0#8 ∧ s.olen = 0#32 ∧ s.warn = 0#32
  /-- After the first command, ERR agrees with the word in CMD (R230, R237, R240). -/
  errHonest : s.done = true → s.ErrHonest
  /-- Every array of memory is in canonical form. -/
  memories : s.MemoriesWf

/-! ### What stays unchanged -/

/-- `t` has the parameters and the port fields of `s`, every register of `s` but those in `regs`, and reads as
`s` at every element of every memory but those in `fields`. -/
def SameBut (regs : List Reg) (fields : List Field) (s t : State) : Prop :=
  t.cfg = s.cfg ∧ t.resets = s.resets ∧ t.pending = s.pending ∧ t.response = s.response ∧
  (∀ r : Reg, r ∉ regs → t.reg r = s.reg r) ∧
  (∀ (f : Field) (k : Nat), f ∉ fields → t.element f k = s.element f k)

/-- The command completed: STATUS = DONE with ERR 0, ERRPOS 0 (R29, R33). -/
def State.Completed (t : State) : Prop := t.status = 0x100#32 ∧ t.errpos = 0#32

/-- The state a fault of ENC, DEC, XOR or FSER leaves: STATUS and ERRPOS tell the fault, OLEN is 0, and
nothing else changed (R240, R241). -/
def State.outputFault (s : State) (status : Word) (pos : Nat) : State :=
  { s with status := status, errpos := BitVec.ofNat 32 pos, olen := 0#32 }

/-- The state a fault of FPARSE leaves (R179, R240). -/
def State.tableFault (s : State) (status : Word) (pos warn : Nat) : State :=
  { s with status := status, errpos := BitVec.ofNat 32 pos, fcnt := 0#32, warn := BitVec.ofNat 32 warn }

/-! ### What a record says -/

/-- The entries among lines of a record, in line order. -/
def lineEntries (lines : List (Nat × List Cell)) : List (Cell × Word) :=
  lines.filterMap fun line =>
    match lineVerdict line.2 with
    | .entry sym count => some (sym, count)
    | .blank => none
    | .skipped => none

/-- The number of skipped lines among lines of a record. -/
def linesSkipped (lines : List (Nat × List Cell)) : Nat :=
  (lines.filter fun line => lineVerdict line.2 == .skipped).length

/-- The entries of a record. -/
def recordEntries (text : List Cell) : List (Cell × Word) := lineEntries (recordLines text)

/-- The number of skipped lines of a record. -/
def recordSkipped (text : List Cell) : Nat := linesSkipped (recordLines text)

/-- The symbols of a list of entries, each once, in order of first appearance. -/
def firstSymbols (entries : List (Cell × Word)) : List Cell := (entries.map Prod.fst).eraseDups

/-! ### What a command depends on -/

/-- The TREE records a walk from ROOT can stand on or look at (R262). -/
inductive State.Reach (s : State) : Nat → Prop where
  | root : State.Reach s s.root.toNat
  | child (n : Nat) (dir : Dir) : State.Reach s n → ((s.node n).child dir).toNat < s.cfg.nnode →
      State.Reach s ((s.node n).child dir).toNat

/-- `s` and `u` agree on what a command reads (R27, R262): the parameters, the length registers, and the
elements those bound. -/
def AgreeFor (i : Instr) (s u : State) : Prop :=
  match i with
  | .nop => True
  | .enc =>
    s.cfg = u.cfg ∧ s.ilen = u.ilen ∧ (∀ k < s.ilen.toNat, s.inCell k = u.inCell k) ∧ s.ccnt = u.ccnt ∧
    (∀ j < s.ccnt.toNat, s.codeEntry j = u.codeEntry j ∧
      ∀ t < (s.codeEntry j).len.toNat,
        s.digit ((s.codeEntry j).base.toNat + t) = u.digit ((s.codeEntry j).base.toNat + t))
  | .dec =>
    s.cfg = u.cfg ∧ s.strict = u.strict ∧ s.ciph = u.ciph ∧ s.ilen = u.ilen ∧
    (∀ k < s.ilen.toNat, s.inCell k = u.inCell k) ∧
    (s.ciph = true → s.klen = u.klen ∧ ∀ k < s.klen.toNat, s.keyCell k = u.keyCell k) ∧
    s.root = u.root ∧ (∀ n, s.Reach n → s.node n = u.node n)
  | .xor =>
    s.cfg = u.cfg ∧ s.ilen = u.ilen ∧ (∀ k < s.ilen.toNat, s.inCell k = u.inCell k) ∧
    s.klen = u.klen ∧ (∀ k < s.klen.toNat, s.keyCell k = u.keyCell k)
  | .fparse => s.cfg = u.cfg ∧ s.ilen = u.ilen ∧ (∀ k < s.ilen.toNat, s.inCell k = u.inCell k)
  | .fser => s.cfg = u.cfg ∧ s.fcnt = u.fcnt ∧ (∀ e < s.fcnt.toNat, s.freqEntry e = u.freqEntry e)

end Sys2Proof.Machine
end

