-- ==== Sys2Proof/Certificates/Slice0/Obligations.lean ====
section
/-! DEFINITION. The statements for the provers, from the numbered rules of spec/. -/

open Sys2Proof Sys2Proof.Machine

/-! ### The command word -/

/-- R100, R101 on words written out: the six command words, and three illegal words of vectors V6b to V6d. -/
def Obligations.SampleCommandWords : Prop :=
  decodeWord 0x00000000#32 = .ok .nop ∧ decodeWord 0x00000001#32 = .ok .enc ∧
  decodeWord 0x00000002#32 = .ok .dec ∧ decodeWord 0x00000003#32 = .ok .xor ∧
  decodeWord 0x00000004#32 = .ok .fparse ∧ decodeWord 0x00000005#32 = .ok .fser ∧
  decodeWord 0x00000006#32 = .error .reservedOpc ∧ decodeWord 0x00000101#32 = .error .zeroField ∧
  decodeWord 0xFFFFFFFF#32 = .error .zeroField

/-- R100: `word & mask = match` selects the row of the command map, and the decoder rejects exactly the words
with a bit of 31:8 set or OPC above 5. -/
def Obligations.DecodeMatchesCommandMap : Prop :=
  ∀ w : Word,
    (decodeWord w = .ok .nop ↔ w &&& 0xFFFFFFFF#32 = 0x00000000#32) ∧
    (decodeWord w = .ok .enc ↔ w &&& 0xFFFFFFFF#32 = 0x00000001#32) ∧
    (decodeWord w = .ok .dec ↔ w &&& 0xFFFFFFFF#32 = 0x00000002#32) ∧
    (decodeWord w = .ok .xor ↔ w &&& 0xFFFFFFFF#32 = 0x00000003#32) ∧
    (decodeWord w = .ok .fparse ↔ w &&& 0xFFFFFFFF#32 = 0x00000004#32) ∧
    (decodeWord w = .ok .fser ↔ w &&& 0xFFFFFFFF#32 = 0x00000005#32) ∧
    ((∃ e, decodeWord w = .error e) ↔ w.toNat / 2 ^ 8 ≠ 0 ∨ 5 < w.toNat % 2 ^ 8)

/-- Decode and encode agree over bytes: an encoded command followed by anything decodes to it and hands the
rest back, and nothing else decodes to it (R67, R90, R100). -/
def Obligations.DecodeEncodeBytesAgree : Prop :=
  (∀ (i : Instr) (rest : List Byte), i.wellFormed = true → decode (encodeBytes i ++ rest) = .ok (i, rest)) ∧
  (∀ (bytes rest : List Byte) (i : Instr), decode bytes = .ok (i, rest) → bytes = encodeBytes i ++ rest)

/-! ### The step and the port -/

/-- A step performs the oldest waiting event, whatever it is (a read, a write, the reset), on the state without
it (R60, R71; the queue is the model's, log 5). So a step runs the decoded command: when that event writes a
command word to CMD, the step is `exec` of that command on the state that holds the word in CMD and the
write's answer; `withFetchWord` makes it so (R30). -/
def Obligations.StepRunsDecodedCommand : Prop :=
  (∀ (s : State) (e : HostEvent) (rest : List HostEvent), s.pending = e :: rest →
    step s = perform e { s with pending := rest }) ∧
  ∀ (s : State) (w : Word) (i : Instr), decodeWord w = .ok i →
    (∀ rest, s.pending = .write 0 4 w :: rest →
      step s = exec i { s with cmd := w, pending := rest, response := some .okWrite }) ∧
    step (s.withFetchWord 32 w.toNat) = exec i { s with cmd := w, response := some .okWrite }

/-- R201: an illegal word is stored in CMD, ERR becomes 8, DONE 1, ERRPOS 0; nothing else changes, and the
write answers Ok. -/
def Obligations.IllegalWordEffect : Prop :=
  ∀ (s : State) (w : Word) (rest : List HostEvent),
    s.pending = .write 0 4 w :: rest → (w.toNat / 2 ^ 8 ≠ 0 ∨ 5 < w.toNat % 2 ^ 8) →
    step s = .next { s with cmd := w, status := 0x108#32, errpos := 0#32, pending := rest, response := some .okWrite }

/-- With no transaction waiting the block executes nothing and holds its state (R255, R261; the queue of
transactions is the model's, log 5). -/
def Obligations.IdleBlockHoldsState : Prop :=
  ∀ s : State, s.pending = [] → step s = .next s

/-- R62: a read has no side effect (only the answer is new) and is idempotent, at every address and size. -/
def Obligations.ReadHasNoSideEffect : Prop :=
  ∀ (s : State) (addr size : Nat), ∃ answer : PortResponse,
    perform (.read addr size) s = .next { s with response := some answer } ∧
    perform (.read addr size) { s with response := some answer } = .next { s with response := some answer }

/-- The cases (a) to (f) of R65. -/
def Obligations.BusErrorExactlyWhenR65Says : Prop :=
  ∀ (s : State) (addr size : Nat) (v : Word),
    let space := addr / 2 ^ 24
    let off := addr % 2 ^ 24
    let bad := addr % 4 ≠ 0 ∨ size ≠ 4 ∨ 0x07FFFFFF < addr ∨
      (space = 0 ∧ 0x2C ≤ off) ∨
      (space = 1 ∧ s.cfg.nin ≤ off / 4) ∨ (space = 2 ∧ s.cfg.nout ≤ off / 4) ∨
      (space = 3 ∧ s.cfg.nkey ≤ off / 4) ∨ (space = 5 ∧ s.cfg.ncdig ≤ off / 4) ∨
      (space = 4 ∧ s.cfg.ncode ≤ off / 16) ∨ (space = 6 ∧ s.cfg.nnode ≤ off / 16) ∨
      (space = 7 ∧ s.cfg.nfreq ≤ off / 16)
    (bad → perform (.read addr size) s = .next { s with response := some .busError } ∧
      perform (.write addr size v) s = .next { s with response := some .busError }) ∧
    (¬bad → (∃ w, perform (.read addr size) s = .next { s with response := some (.okRead w) }) ∧
      ∃ t, perform (.write addr size v) s = .next t ∧ t.response = some .okWrite)

/-- R63, R64 for the elements: at the address of an element the port reads the element, zero above its width;
a write stores the low bits, and changes no register and no other element. -/
def Obligations.PortReadsAndWritesElements : Prop :=
  ∀ (s : State) (f : Field) (k : Nat) (v : Word), s.cfg.Valid → k < s.cfg.capacity f →
    perform (.read (elementAddr f k) 4) s = .next { s with response := some (.okRead (s.element f k)) } ∧
    (s.element f k).toNat < 2 ^ fieldWidth f ∧
    ∃ t, perform (.write (elementAddr f k) 4 v) s = .next t ∧
      (t.element f k).toNat = v.toNat % 2 ^ fieldWidth f ∧
      (∀ (g : Field) (j : Nat), (g ≠ f ∨ j ≠ k) → t.element g j = s.element g j) ∧
      (∀ r : Reg, t.reg r = s.reg r) ∧
      t.cfg = s.cfg ∧ t.resets = s.resets ∧ t.pending = s.pending ∧ t.response = some .okWrite

/-- R64: the fourth word of a CODE entry and the third and fourth of a FREQ entry read 0 and ignore writes. -/
def Obligations.ReservedWordsReadZero : Prop :=
  ∀ (s : State) (k : Nat) (v : Word), s.cfg.Valid →
    (k < s.cfg.ncode → ∀ addr ∈ [0x04000000 + 16 * k + 12],
      perform (.read addr 4) s = .next { s with response := some (.okRead 0#32) } ∧
      perform (.write addr 4 v) s = .next { s with response := some .okWrite }) ∧
    (k < s.cfg.nfreq → ∀ addr ∈ [0x07000000 + 16 * k + 8, 0x07000000 + 16 * k + 12],
      perform (.read addr 4) s = .next { s with response := some (.okRead 0#32) } ∧
      perform (.write addr 4 v) s = .next { s with response := some .okWrite })

/-- R66: writes to the read-only registers change nothing; CTRL keeps its two bits and drops the rest; ILEN,
KLEN, CCNT, ROOT and FCNT store all 32 bits, whatever the capacities are; reserved bits of STATUS and CTRL
read 0. The offsets are those of R64. -/
def Obligations.PortReadsAndWritesRegisters : Prop :=
  ∀ (s : State) (v : Word),
    (∀ addr ∈ [0x04, 0x10, 0x24, 0x28],
      perform (.write addr 4 v) s = .next { s with response := some .okWrite }) ∧
    perform (.write 0x08 4 v) s = .next { s with ctrl := v &&& 0x3#32, response := some .okWrite } ∧
    perform (.write 0x0C 4 v) s = .next { s with ilen := v, response := some .okWrite } ∧
    perform (.write 0x14 4 v) s = .next { s with klen := v, response := some .okWrite } ∧
    perform (.write 0x18 4 v) s = .next { s with ccnt := v, response := some .okWrite } ∧
    perform (.write 0x1C 4 v) s = .next { s with root := v, response := some .okWrite } ∧
    perform (.write 0x20 4 v) s = .next { s with fcnt := v, response := some .okWrite } ∧
    (∀ entry ∈ [(0x00, s.cmd), (0x04, s.status &&& 0x1FF#32), (0x08, s.ctrl &&& 0x3#32), (0x0C, s.ilen),
        (0x10, s.olen), (0x14, s.klen), (0x18, s.ccnt), (0x1C, s.root), (0x20, s.fcnt), (0x24, s.warn),
        (0x28, s.errpos)],
      perform (.read entry.1 4) s = .next { s with response := some (.okRead entry.2) })

/-- R67: byte `addr + k` of the window holds bits 8k+7:8k of the word at the aligned `addr`. -/
def Obligations.WindowBytesAreLittleEndian : Prop :=
  ∀ (s : State) (addr k : Nat) (w : Word), addr % 4 = 0 → k < 4 →
    perform (.read addr 4) s = .next { s with response := some (.okRead w) } →
    s.windowByte (addr + k) = some (BitVec.ofNat 8 (w.toNat / 2 ^ (8 * k)))

/-! ### Reset -/

/-- R45, R260: the reset state, for every choice of the capacities, and the reset event from every state: the
registers at the values of the table, every element of every memory at an unknown value (the free value of
log 2, whatever it is). That the reset event keeps the host's waiting transactions is the model's choice
(log 9). -/
def Obligations.ResetState : Prop :=
  (∀ c : Config, (State.resetWith c).cfg = c ∧ (State.resetWith c).done = false ∧
    (∀ r : Reg, (State.resetWith c).reg r =
      if r = .ctrl then 0x1#32 else if r = .root then 0xFFFFFFFF#32 else 0#32) ∧
    (∀ (f : Field) (k : Nat), ((State.resetWith c).element f k).toNat =
      (Config.unwritten (State.resetWith c).resets f k).toNat % 2 ^ fieldWidth f)) ∧
  (∀ s : State, ∃ t, perform .reset s = .next t ∧ t.cfg = s.cfg ∧ t.pending = s.pending ∧
    (∀ r : Reg, t.reg r = if r = .ctrl then 0x1#32 else if r = .root then 0xFFFFFFFF#32 else 0#32) ∧
    t.done = false ∧
    (∀ (f : Field) (k : Nat),
      (t.element f k).toNat = (Config.unwritten t.resets f k).toNat % 2 ^ fieldWidth f))

/-! ### NOP -/

/-- R200: NOP writes STATUS (ERR 0, DONE 1) and ERRPOS (0), and nothing else; it completes in every state. The
host's write that runs it also stores the word 0 in CMD. -/
def Obligations.NopClearsStatus : Prop :=
  (∀ s : State, exec .nop s = .next { s with status := 0x100#32, errpos := 0#32 }) ∧
  ∀ (s : State) (rest : List HostEvent), s.pending = .write 0 4 0x00000000#32 :: rest →
    step s = .next { s with cmd := 0#32, status := 0x100#32, errpos := 0#32, pending := rest,
                            response := some .okWrite }

/-! ### ENC -/

/-- R131: the checks of ENC before the first character, in their order, and the fault each raises. -/
def Obligations.EncChecksInOrder : Prop :=
  ∀ s : State,
    (s.cfg.nin < s.ilen.toNat → exec .enc s = .next (s.outputFault 0x107#32 s.cfg.nin)) ∧
    (s.ilen.toNat ≤ s.cfg.nin → s.cfg.ncode < s.ccnt.toNat →
      exec .enc s = .next (s.outputFault 0x107#32 s.cfg.ncode)) ∧
    (s.ilen.toNat ≤ s.cfg.nin → s.ccnt.toNat ≤ s.cfg.ncode → s.ilen = 0#32 →
      exec .enc s = .next (s.outputFault 0x101#32 0))

/-- R132: the lookup finds the lowest valid entry with the symbol and a non-zero LEN, and none only if there is none. -/
def Obligations.LookupFindsLowestEntry : Prop :=
  ∀ (s : State) (sym : Cell),
    (∀ j, s.lookup sym = some j ↔
      j < s.ccnt.toNat ∧ (s.codeEntry j).sym = sym ∧ (s.codeEntry j).len ≠ 0#32 ∧
      ∀ k < j, ¬((s.codeEntry k).sym = sym ∧ (s.codeEntry k).len ≠ 0#32)) ∧
    (s.lookup sym = none ↔
      ∀ k < s.ccnt.toNat, ¬((s.codeEntry k).sym = sym ∧ (s.codeEntry k).len ≠ 0#32))

/-- ENC completes, and what it leaves (R130, R132, R133): if the checks pass, every character has a code inside
CDIG and all the digits fit OUT, then OUT[0..OLEN-1] is the concatenation of the codes, digit 0 as 0x0030 and
1 as 0x0031, and nothing else changes. `j i` is the entry of character i. -/
def Obligations.EncConcatenatesCodes : Prop :=
  ∀ (s : State) (j : Nat → Nat),
    s.cfg.Valid → s.ilen.toNat ≤ s.cfg.nin → s.ccnt.toNat ≤ s.cfg.ncode → s.ilen ≠ 0#32 →
    (∀ i < s.ilen.toNat, s.lookup (s.inCell i) = some (j i) ∧
      (s.codeEntry (j i)).base.toNat + (s.codeEntry (j i)).len.toNat ≤ s.cfg.ncdig) →
    ((List.range s.ilen.toNat).map fun i => (s.codeEntry (j i)).len.toNat).sum ≤ s.cfg.nout →
    ∃ t, exec .enc s = .next t ∧ t.Completed ∧
      t.olen.toNat = ((List.range s.ilen.toNat).map fun i => (s.codeEntry (j i)).len.toNat).sum ∧
      t.output = ((List.range s.ilen.toNat).map fun i =>
        (s.codeDigits (j i)).map fun d => if d = 1#1 then 0x0031#symw else 0x0030#symw).flatten ∧
      (∀ k, t.olen.toNat ≤ k → t.outCell k = s.outCell k) ∧
      SameBut [.status, .errpos, .olen] [.output] s t

/-- R132, R133, R135, R232, R236, R239: the fault of ENC at character i, when every earlier character was
encoded: no code, a code outside CDIG, an output that does not fit, tested in this order. -/
def Obligations.EncFaultsAtCharacter : Prop :=
  ∀ (s : State) (j : Nat → Nat) (i : Nat),
    s.ilen.toNat ≤ s.cfg.nin → s.ccnt.toNat ≤ s.cfg.ncode → i < s.ilen.toNat →
    (∀ k < i, s.lookup (s.inCell k) = some (j k) ∧
      (s.codeEntry (j k)).base.toNat + (s.codeEntry (j k)).len.toNat ≤ s.cfg.ncdig) →
    ((List.range i).map fun k => (s.codeEntry (j k)).len.toNat).sum ≤ s.cfg.nout →
    (s.lookup (s.inCell i) = none → exec .enc s = .next (s.outputFault 0x102#32 i)) ∧
    (s.lookup (s.inCell i) = some (j i) →
      s.cfg.ncdig < (s.codeEntry (j i)).base.toNat + (s.codeEntry (j i)).len.toNat →
      exec .enc s = .next (s.outputFault 0x10A#32 i)) ∧
    (s.lookup (s.inCell i) = some (j i) →
      (s.codeEntry (j i)).base.toNat + (s.codeEntry (j i)).len.toNat ≤ s.cfg.ncdig →
      s.cfg.nout < ((List.range (i + 1)).map fun k => (s.codeEntry (j k)).len.toNat).sum →
      exec .enc s = .next (s.outputFault 0x107#32 i))

/-- R134: after a successful ENC, (a) OLEN is the sum of the LENs of the chosen entries, and OLEN >= ILEN >= 1;
(b) every result cell is CH_0 or CH_1; (c) nothing but OLEN, STATUS and ERRPOS changes outside OUT (CMD is
written by the write that started the command); (d) OUT cells from OLEN on are unchanged. -/
def Obligations.EncSuccessFacts : Prop :=
  ∀ s t : State, s.cfg.Valid → exec .enc s = .next t → t.err = 0#8 →
    (∃ j : Nat → Nat, (∀ i < s.ilen.toNat, s.lookup (s.inCell i) = some (j i)) ∧
      t.olen.toNat = ((List.range s.ilen.toNat).map fun i => (s.codeEntry (j i)).len.toNat).sum) ∧
    s.ilen.toNat ≤ t.olen.toNat ∧ 1 ≤ s.ilen.toNat ∧
    (∀ c ∈ t.output, c = 0x0030#symw ∨ c = 0x0031#symw) ∧
    SameBut [.status, .errpos, .olen] [.output] s t ∧
    (∀ k, t.olen.toNat ≤ k → t.outCell k = s.outCell k)

/-! ### DEC -/

/-- R143: the checks of DEC before the first digit, in their order; the key is looked at only when CIPH = 1. -/
def Obligations.DecChecksInOrder : Prop :=
  ∀ s : State,
    (s.cfg.nin < s.ilen.toNat → exec .dec s = .next (s.outputFault 0x107#32 s.cfg.nin)) ∧
    (s.ilen.toNat ≤ s.cfg.nin → s.ciph = true → s.klen = 0#32 →
      exec .dec s = .next (s.outputFault 0x104#32 0)) ∧
    (s.ilen.toNat ≤ s.cfg.nin → s.ciph = true → s.cfg.nkey < s.klen.toNat → s.klen ≠ 0#32 →
      exec .dec s = .next (s.outputFault 0x107#32 s.cfg.nkey)) ∧
    (s.ilen.toNat ≤ s.cfg.nin → (s.ciph = true → s.klen ≠ 0#32 ∧ s.klen.toNat ≤ s.cfg.nkey) →
      s.cfg.nnode ≤ s.root.toNat → exec .dec s = .next (s.outputFault 0x109#32 0))

/-- DEC completes, and what it leaves (R140, R142, R145, R146): if TREE holds a tree at ROOT and the payload,
deciphered when CIPH = 1, is the concatenation of the codes of a sequence of leaves, then OUT[0..OLEN-1] is
their symbols and nothing else changes, in both modes of STRICT; the one-leaf tree included. -/
def Obligations.DecDecodesCodeSequence : Prop :=
  ∀ (s : State) (tree : HTree) (leaves : List (Cell × List Bit)),
    s.cfg.Valid → s.ilen.toNat ≤ s.cfg.nin →
    (s.ciph = true → s.klen ≠ 0#32 ∧ s.klen.toNat ≤ s.cfg.nkey) →
    tree.held s → s.root.toNat = tree.index →
    (∀ leaf ∈ leaves, leaf ∈ tree.codes) →
    ((List.range s.ilen.toNat).map fun i =>
      if s.ciph then s.inCell i ^^^ s.keyCell (i % s.klen.toNat) else s.inCell i) =
      (leaves.map fun leaf => leaf.2.map fun d => if d = 1#1 then 0x0031#symw else 0x0030#symw).flatten →
    leaves.length ≤ s.cfg.nout →
    ∃ t, exec .dec s = .next t ∧ t.Completed ∧ t.olen.toNat = leaves.length ∧
      t.output = leaves.map Prod.fst ∧
      (∀ k, t.olen.toNat ≤ k → t.outCell k = s.outCell k) ∧
      SameBut [.status, .errpos, .olen] [.output] s t

/-- A payload cut inside a code (R150, S3): after the codes of a sequence of leaves, a non-empty proper
beginning of one more code. DEC raises MalformedPayloadError at ILEN and no text is returned. -/
def Obligations.DecRejectsTruncatedPayload : Prop :=
  ∀ (s : State) (tree : HTree) (leaves : List (Cell × List Bit)) (sym : Cell) (cut left : List Bit),
    s.cfg.Valid → s.ilen.toNat ≤ s.cfg.nin →
    (s.ciph = true → s.klen ≠ 0#32 ∧ s.klen.toNat ≤ s.cfg.nkey) →
    tree.held s → s.root.toNat = tree.index →
    (∀ leaf ∈ leaves, leaf ∈ tree.codes) → (sym, cut ++ left) ∈ tree.codes → cut ≠ [] → left ≠ [] →
    s.payload = ((leaves.map Prod.snd).flatten ++ cut).map (fun d => if d = 1#1 then 0x0031#symw else 0x0030#symw) →
    leaves.length ≤ s.cfg.nout →
    exec .dec s = .next (s.outputFault 0x103#32 s.ilen.toNat)

/-- R150: the end of the input. When the walk over the whole payload raises nothing and stands at `w`, DEC
completes with the emitted symbols if `w` is at ROOT, and raises MalformedPayloadError(ILEN) otherwise; an
empty payload decodes to the empty text. -/
def Obligations.DecTestsRootAtEnd : Prop :=
  ∀ s : State, s.cfg.Valid → s.ilen.toNat ≤ s.cfg.nin →
    (s.ciph = true → s.klen ≠ 0#32 ∧ s.klen.toNat ≤ s.cfg.nkey) → s.root.toNat < s.cfg.nnode →
    (∀ w, walkFrom s 0 s.payload { p := s.root, out := [] } = .ok w →
      (w.p = s.root → ∃ t, exec .dec s = .next t ∧ t.Completed ∧ t.output = w.out) ∧
      (w.p ≠ s.root → exec .dec s = .next (s.outputFault 0x103#32 s.ilen.toNat))) ∧
    (s.ilen = 0#32 → exec .dec s = .next { s with status := 0x100#32, errpos := 0#32, olen := 0#32 })

/-- The outcome of DEC on a payload of one digit, by the shape of the tree at ROOT (R144 to R150): the
direction; the degenerate tree; the absent child; the child out of range; the childless node that is no
designated leaf; the leaf; the inner node. -/
def Obligations.DecOneDigitCases : Prop :=
  ∀ s : State, s.cfg.Valid → s.ilen = 1#32 →
    (s.ciph = true → s.klen ≠ 0#32 ∧ s.klen.toNat ≤ s.cfg.nkey) → s.root.toNat < s.cfg.nnode →
    let cell := if s.ciph then s.inCell 0 ^^^ s.keyCell 0 else s.inCell 0
    let top := s.node s.root.toNat
    let childlessTop := top.left = null ∧ top.right = null
    let child := if cell = 0x0030#symw then top.left else top.right
    let next := s.node child.toNat
    let childlessNext := next.left = null ∧ next.right = null
    (s.strict = true → cell ≠ 0x0030#symw → cell ≠ 0x0031#symw → exec .dec s = .next (s.outputFault 0x103#32 0)) ∧
    ((s.strict = false ∨ cell = 0x0030#symw ∨ cell = 0x0031#symw) →
      (childlessTop → (top.leaf = 0#1 ∨ cell ≠ 0x0030#symw) → exec .dec s = .next (s.outputFault 0x103#32 0)) ∧
      (childlessTop → top.leaf = 1#1 → cell = 0x0030#symw →
        ∃ t, exec .dec s = .next t ∧ t.Completed ∧ t.output = [top.sym]) ∧
      (¬childlessTop → child = null → exec .dec s = .next (s.outputFault 0x103#32 0)) ∧
      (¬childlessTop → child ≠ null → s.cfg.nnode ≤ child.toNat →
        exec .dec s = .next (s.outputFault 0x109#32 0)) ∧
      (¬childlessTop → child.toNat < s.cfg.nnode → childlessNext → next.leaf = 0#1 →
        exec .dec s = .next (s.outputFault 0x103#32 0)) ∧
      (¬childlessTop → child.toNat < s.cfg.nnode → childlessNext → next.leaf = 1#1 →
        ∃ t, exec .dec s = .next t ∧ t.Completed ∧ t.output = [next.sym]) ∧
      (¬childlessTop → child.toNat < s.cfg.nnode → ¬childlessNext → child ≠ s.root →
        exec .dec s = .next (s.outputFault 0x103#32 1)) ∧
      (¬childlessTop → child = s.root →
        ∃ t, exec .dec s = .next t ∧ t.Completed ∧ t.output = []))

/-- The first fault met in input order is the one DEC reports (R144, R236, R242): if the walk over the cells
before i raises nothing and the step on cell i raises, DEC takes that fault. When OUT is full before cell i
(R153 f, R236, R242), an emission at cell i is a CapacityError at i, and the tests of the node it would come
from stand before it: a childless node that is no designated leaf, or a right digit on the degenerate tree,
is a MalformedPayloadError. In particular, after the codes of NOUT leaves one more whole code is a
CapacityError at its last digit. -/
def Obligations.DecReportsFirstFault : Prop :=
  (∀ (s : State) (before after : List Cell) (d : Cell) (w : Walk) (r : Raise),
    s.ilen.toNat ≤ s.cfg.nin →
    (s.ciph = true → s.klen ≠ 0#32 ∧ s.klen.toNat ≤ s.cfg.nkey) → s.root.toNat < s.cfg.nnode →
    s.payload = before ++ d :: after →
    walkFrom s 0 before { p := s.root, out := [] } = .ok w →
    walkStep s before.length d w = .error r →
    exec .dec s = .next (s.outputFault (statusWord r.kind.code) before.length)) ∧
  (∀ (s : State) (before after : List Cell) (d : Cell) (w : Walk), s.cfg.Valid →
    s.ilen.toNat ≤ s.cfg.nin →
    (s.ciph = true → s.klen ≠ 0#32 ∧ s.klen.toNat ≤ s.cfg.nkey) → s.root.toNat < s.cfg.nnode →
    s.payload = before ++ d :: after →
    walkFrom s 0 before { p := s.root, out := [] } = .ok w → w.out.length = s.cfg.nout →
    (s.strict = false ∨ d = 0x0030#symw ∨ d = 0x0031#symw) →
    let here := s.node w.p.toNat
    let childlessHere := here.left = null ∧ here.right = null
    let child := if d = 0x0030#symw then here.left else here.right
    let next := s.node child.toNat
    let childlessNext := next.left = null ∧ next.right = null
    (childlessHere → here.leaf = 1#1 → d = 0x0030#symw →
      exec .dec s = .next (s.outputFault 0x107#32 before.length)) ∧
    (childlessHere → (here.leaf = 0#1 ∨ d ≠ 0x0030#symw) →
      exec .dec s = .next (s.outputFault 0x103#32 before.length)) ∧
    (¬childlessHere → child.toNat < s.cfg.nnode → childlessNext → next.leaf = 1#1 →
      exec .dec s = .next (s.outputFault 0x107#32 before.length)) ∧
    (¬childlessHere → child.toNat < s.cfg.nnode → childlessNext → next.leaf = 0#1 →
      exec .dec s = .next (s.outputFault 0x103#32 before.length))) ∧
  (∀ (s : State) (tree : HTree) (leaves : List (Cell × List Bit)) (sym : Cell) (digits : List Bit) (more : List Cell),
    s.cfg.Valid → s.ilen.toNat ≤ s.cfg.nin →
    (s.ciph = true → s.klen ≠ 0#32 ∧ s.klen.toNat ≤ s.cfg.nkey) →
    tree.held s → s.root.toNat = tree.index →
    (∀ leaf ∈ leaves, leaf ∈ tree.codes) → leaves.length = s.cfg.nout → (sym, digits) ∈ tree.codes →
    s.payload = ((leaves.map Prod.snd).flatten ++ digits).map
      (fun d => if d = 1#1 then 0x0031#symw else 0x0030#symw) ++ more →
    exec .dec s = .next (s.outputFault 0x107#32 (((leaves.map Prod.snd).flatten ++ digits).length - 1)))

/-- R144: with STRICT = 1 a DEC that completes met digit cells only, and with STRICT = 0 it completes with the
same result; the step of the walk on a cell that is no digit raises MalformedPayloadError at its index. With
STRICT = 0 the step on every cell other than CH_0 is the step on CH_1. -/
def Obligations.StrictSelectsNonDigitCells : Prop :=
  (∀ s t : State, s.strict = true → exec .dec s = .next t → t.err = 0#8 →
    (∀ d ∈ s.payload, d = 0x0030#symw ∨ d = 0x0031#symw) ∧
    exec .dec { s with ctrl := s.ctrl &&& 0xFFFFFFFE#32 } = .next { t with ctrl := s.ctrl &&& 0xFFFFFFFE#32 }) ∧
  (∀ (s : State) (i : Nat) (d : Cell) (w : Walk), s.strict = true → d ≠ 0x0030#symw → d ≠ 0x0031#symw →
    walkStep s i d w = .error { kind := .malformedPayload, pos := i }) ∧
  (∀ (s : State) (i : Nat) (d : Cell) (w : Walk), s.strict = false → d ≠ 0x0030#symw →
    walkStep s i d w = walkStep s i 0x0031#symw w)

/-- R151 (a), (c), (d): after a successful DEC, OLEN <= ILEN; nothing but OLEN, STATUS and ERRPOS changes
outside OUT; OUT cells from OLEN on are unchanged. -/
def Obligations.DecSuccessFacts : Prop :=
  ∀ s t : State, s.cfg.Valid → exec .dec s = .next t → t.err = 0#8 →
    t.olen.toNat ≤ s.ilen.toNat ∧
    SameBut [.status, .errpos, .olen] [.output] s t ∧
    (∀ k, t.olen.toNat ≤ k → t.outCell k = s.outCell k)

/-- R142: DEC with CIPH = 1 gives the OUT, OLEN and STATUS of XOR, then `mvout`, then DEC with CIPH = 0,
whenever that XOR succeeds. -/
def Obligations.DecipherStageIsXorThenDec : Prop :=
  ∀ s t u v : State, s.cfg.Valid → s.ciph = true → exec .xor s = .next t → t.err = 0#8 →
    exec .dec s = .next u → exec .dec { t.movedOut with ctrl := s.ctrl &&& 0xFFFFFFFD#32 } = .next v →
    u.status = v.status ∧ u.errpos = v.errpos ∧ u.olen = v.olen ∧ u.output = v.output

/-! ### XOR -/

/-- R161: the checks of XOR, in their order, and the fault each raises. -/
def Obligations.XorChecksInOrder : Prop :=
  ∀ s : State,
    (s.klen = 0#32 → exec .xor s = .next (s.outputFault 0x104#32 0)) ∧
    (s.klen ≠ 0#32 → s.cfg.nkey < s.klen.toNat → exec .xor s = .next (s.outputFault 0x107#32 s.cfg.nkey)) ∧
    (s.klen ≠ 0#32 → s.klen.toNat ≤ s.cfg.nkey → s.cfg.nin < s.ilen.toNat →
      exec .xor s = .next (s.outputFault 0x107#32 s.cfg.nin)) ∧
    (s.klen ≠ 0#32 → s.klen.toNat ≤ s.cfg.nkey → s.ilen.toNat ≤ s.cfg.nin → s.cfg.nout < s.ilen.toNat →
      exec .xor s = .next (s.outputFault 0x107#32 s.cfg.nout))

/-- XOR completes, and what it leaves (R160, R162): bit b of OUT[i] is 1 exactly when bit b of IN[i] and of
KEY[i mod KLEN] differ, OLEN is ILEN, and nothing else changes. -/
def Obligations.XorCiphersEveryCell : Prop :=
  ∀ s : State, s.klen ≠ 0#32 → s.klen.toNat ≤ s.cfg.nkey → s.ilen.toNat ≤ s.cfg.nin →
    s.ilen.toNat ≤ s.cfg.nout →
    ∃ t, exec .xor s = .next t ∧ t.Completed ∧ t.olen = s.ilen ∧
      (∀ i < s.ilen.toNat, ∀ b < symw, (t.outCell i).getLsbD b =
        ((s.inCell i).getLsbD b != (s.keyCell (i % s.klen.toNat)).getLsbD b)) ∧
      (∀ i, s.ilen.toNat ≤ i → t.outCell i = s.outCell i) ∧
      SameBut [.status, .errpos, .olen] [.output] s t

/-- R163: the cipher is its own inverse. -/
def Obligations.XorTwiceRestoresData : Prop :=
  ∀ s t : State, exec .xor s = .next t → t.err = 0#8 →
    ∃ u, exec .xor t.movedOut = .next u ∧ u.Completed ∧ u.output = s.input

/-! ### FPARSE -/

/-- R171: the lines of a record. A record written as lines with a newline after each has exactly those lines,
each starting where it stands; a last line without a newline is a line if it has a cell. -/
def Obligations.RecordSplitsAtNewlines : Prop :=
  ∀ (lines : List (List Cell)) (last : List Cell),
    (∀ l ∈ lines, 0x000A#symw ∉ l) → 0x000A#symw ∉ last →
    (recordLines ((lines.map (· ++ [0x000A#symw])).flatten ++ last)).map Prod.snd =
      lines ++ (if last = [] then [] else [last]) ∧
    ∀ k start l, (recordLines ((lines.map (· ++ [0x000A#symw])).flatten ++ last))[k]? = some (start, l) →
      start = (((lines.map (· ++ [0x000A#symw])).flatten ++ last).take start).length ∧
      start = ((lines.take k).map (fun l => l.length + 1)).sum

/-- R172 to R176: the verdict on a line, by the form of the line. `token` holds no colon, so the first colon
of the line is the one after it; the value of the count is the sum R176 writes out. -/
def Obligations.LineVerdictByForm : Prop :=
  (∀ line : List Cell, (∀ c ∈ line, c = 0x0020#symw ∨ c = 0x0009#symw ∨ c = 0x000D#symw) → lineVerdict line = .blank) ∧
  (∀ line : List Cell, 0x003A#symw ∉ line → (∃ c ∈ line, c ≠ 0x0020#symw ∧ c ≠ 0x0009#symw ∧ c ≠ 0x000D#symw) →
    lineVerdict line = .skipped) ∧
  (∀ token count : List Cell, 0x003A#symw ∉ token →
    let value := ((List.range count.length).map fun k =>
      ((count[k]?.getD 0).toNat - 0x30) * 10 ^ (count.length - 1 - k)).sum
    let numeric := count ≠ [] ∧ (∀ c ∈ count, 0x30 ≤ c.toNat ∧ c.toNat ≤ 0x39)
    ((¬numeric ∨ 4294967295 < value) → lineVerdict (token ++ 0x003A#symw :: count) = .skipped) ∧
    (numeric → value ≤ 4294967295 → token = [0x004E#symw, 0x004C#symw] →
      lineVerdict (token ++ 0x003A#symw :: count) = .entry 0x000A#symw (BitVec.ofNat 32 value)) ∧
    (numeric → value ≤ 4294967295 → ∀ c, token = [c] →
      lineVerdict (token ++ 0x003A#symw :: count) = .entry c (BitVec.ofNat 32 value)) ∧
    (token.length ≠ 1 → token ≠ [0x004E#symw, 0x004C#symw] →
      lineVerdict (token ++ 0x003A#symw :: count) = .skipped))

/-- The table of R181, row by row (a line that repeats a symbol is `FparseBuildsTable`'s). -/
def Obligations.LineVerdictTable : Prop :=
  lineVerdict [0x61#symw, 0x3A#symw, 0x32#symw] = .entry 0x61#symw 2#32 ∧
  lineVerdict [0x4E#symw, 0x4C#symw, 0x3A#symw, 0x31#symw] = .entry 0x0A#symw 1#32 ∧
  lineVerdict [0x4E#symw, 0x3A#symw, 0x33#symw] = .entry 0x4E#symw 3#32 ∧
  lineVerdict [0x20#symw, 0x3A#symw, 0x35#symw] = .entry 0x20#symw 5#32 ∧
  lineVerdict [] = .blank ∧
  lineVerdict [0x20#symw, 0x20#symw, 0x20#symw] = .blank ∧
  lineVerdict [0x61#symw, 0x62#symw, 0x63#symw] = .skipped ∧
  lineVerdict [0x61#symw, 0x62#symw, 0x3A#symw, 0x31#symw] = .skipped ∧
  lineVerdict [0x3A#symw, 0x35#symw] = .skipped ∧
  lineVerdict [0x3A#symw, 0x3A#symw, 0x35#symw] = .skipped ∧
  lineVerdict [0x61#symw, 0x3A#symw] = .skipped ∧
  lineVerdict [0x61#symw, 0x3A#symw, 0x2D#symw, 0x31#symw] = .skipped ∧
  lineVerdict [0x61#symw, 0x3A#symw, 0x2B#symw, 0x31#symw] = .skipped ∧
  lineVerdict [0x61#symw, 0x3A#symw, 0x20#symw, 0x31#symw] = .skipped ∧
  lineVerdict [0x61#symw, 0x3A#symw, 0x31#symw, 0x3A#symw, 0x32#symw] = .skipped ∧
  lineVerdict [0x61#symw, 0x3A#symw, 0x31#symw, 0x32#symw, 0x78#symw] = .skipped ∧
  lineVerdict [0x61#symw, 0x3A#symw, 0x30#symw, 0x30#symw, 0x37#symw] = .entry 0x61#symw 7#32 ∧
  lineVerdict [0x61#symw, 0x3A#symw, 0x30#symw] = .entry 0x61#symw 0#32 ∧
  lineVerdict [0x61#symw, 0x3A#symw, 0x34#symw, 0x32#symw, 0x39#symw, 0x34#symw, 0x39#symw, 0x36#symw, 0x37#symw, 0x32#symw,
    0x39#symw, 0x35#symw] = .entry 0x61#symw 4294967295#32 ∧
  lineVerdict [0x61#symw, 0x3A#symw, 0x34#symw, 0x32#symw, 0x39#symw, 0x34#symw, 0x39#symw, 0x36#symw, 0x37#symw, 0x32#symw,
    0x39#symw, 0x36#symw] = .skipped ∧
  lineVerdict [0x61#symw, 0x3A#symw, 0x31#symw, 0x0D#symw] = .skipped

/-- FPARSE completes, and what it leaves (R170, R177, R178): if the input fits, some line is valid and the
distinct symbols fit FREQ, then FREQ[0..FCNT-1] is the distinct symbols in order of first appearance, each
with the count of its last valid line, WARN is the number of skipped lines, and nothing else changes. -/
def Obligations.FparseBuildsTable : Prop :=
  ∀ s : State, s.cfg.Valid → s.ilen.toNat ≤ s.cfg.nin →
    recordEntries s.input ≠ [] → (firstSymbols (recordEntries s.input)).length ≤ s.cfg.nfreq →
    ∃ t, exec .fparse s = .next t ∧ t.Completed ∧
      t.table.map Prod.fst = firstSymbols (recordEntries s.input) ∧
      (∀ entry ∈ t.table, (recordEntries s.input).reverse.find? (fun x => x.1 == entry.1) = some entry) ∧
      t.fcnt.toNat = (firstSymbols (recordEntries s.input)).length ∧
      t.warn.toNat = recordSkipped s.input ∧
      (∀ k, t.fcnt.toNat ≤ k → t.freqEntry k = s.freqEntry k) ∧
      SameBut [.status, .errpos, .fcnt, .warn] [.freqSym, .freqCount] s t

/-- R179: the faults of FPARSE. (a) an input longer than IN; (b) a new symbol when the table is full, at the
first cell of that line; (c) no valid entry, with WARN the number of lines skipped. -/
def Obligations.FparseFaults : Prop :=
  ∀ s : State, s.cfg.Valid →
    (s.cfg.nin < s.ilen.toNat → exec .fparse s = .next (s.tableFault 0x107#32 s.cfg.nin 0)) ∧
    (s.ilen.toNat ≤ s.cfg.nin →
      ∀ (lines more : List (Nat × List Cell)) (a : Nat) (line : List Cell) (p : Parse) (sym : Cell) (count : Word),
        recordLines s.input = lines ++ (a, line) :: more →
        parseLines s.cfg.nfreq lines { table := [], warn := 0 } = .ok p →
        lineVerdict line = .entry sym count → sym ∉ p.table.map Prod.fst → p.table.length = s.cfg.nfreq →
        exec .fparse s = .next (s.tableFault 0x107#32 a 0)) ∧
    (s.ilen.toNat ≤ s.cfg.nin → recordEntries s.input = [] →
      exec .fparse s = .next (s.tableFault 0x105#32 s.ilen.toNat (recordSkipped s.input)))

/-- R180: after a successful FPARSE, (a) 1 <= FCNT <= NFREQ; (b) the symbols are pairwise different; (c) FCNT +
WARN is at most the number of non-blank lines, equal when no symbol occurs on two valid lines; (d) FREQ from
FCNT on and everything else is unchanged. -/
def Obligations.FparseSuccessFacts : Prop :=
  ∀ s t : State, s.cfg.Valid → exec .fparse s = .next t → t.err = 0#8 →
    let nonBlank := ((recordLines s.input).filter fun line => lineVerdict line.2 != .blank).length
    (1 ≤ t.fcnt.toNat ∧ t.fcnt.toNat ≤ s.cfg.nfreq) ∧
    (t.table.map Prod.fst).Nodup ∧
    t.fcnt.toNat + t.warn.toNat ≤ nonBlank ∧
    (((recordEntries s.input).map Prod.fst).Nodup → t.fcnt.toNat + t.warn.toNat = nonBlank) ∧
    (∀ k, t.fcnt.toNat ≤ k → t.freqEntry k = s.freqEntry k) ∧
    SameBut [.status, .errpos, .fcnt, .warn] [.freqSym, .freqCount] s t

/-! ### FSER -/

/-- R186, `dec(v)`: digits only, most significant first, spelling v, no leading zero, between 1 and 10 cells. -/
def Obligations.DecimalRendering : Prop :=
  ∀ v : Word, decimalValue (decimalCells v) = v.toNat ∧
    (∀ c ∈ decimalCells v, 0x30 ≤ c.toNat ∧ c.toNat ≤ 0x39) ∧
    1 ≤ (decimalCells v).length ∧ (decimalCells v).length ≤ 10 ∧
    (v ≠ 0#32 → (decimalCells v).head? ≠ some 0x0030#symw) ∧
    (v = 0#32 → decimalCells v = [0x0030#symw])

/-- FSER completes, and what it leaves (R185, R186): if the table and the text fit, OUT[0..OLEN-1] is the
written lines in index order, each TOKEN:COUNT and a newline, and nothing else changes. -/
def Obligations.FserWritesRecord : Prop :=
  ∀ s : State, s.cfg.Valid → s.fcnt.toNat ≤ s.cfg.nfreq →
    let line := fun e => (if (s.freqEntry e).1 = 0x000A#symw then [0x004E#symw, 0x004C#symw] else [(s.freqEntry e).1]) ++
      [0x003A#symw] ++ decimalCells (s.freqEntry e).2 ++ [0x000A#symw]
    let text := ((List.range s.fcnt.toNat).map line).flatten
    text.length ≤ s.cfg.nout →
    ∃ t, exec .fser s = .next t ∧ t.Completed ∧ t.olen.toNat = text.length ∧ t.output = text ∧
      (∀ k, t.olen.toNat ≤ k → t.outCell k = s.outCell k) ∧
      SameBut [.status, .errpos, .olen] [.output] s t

/-- R236, the rows of FSER: FCNT above NFREQ; the first entry whose line does not fit OUT. -/
def Obligations.FserCapacityFaults : Prop :=
  ∀ s : State,
    (s.cfg.nfreq < s.fcnt.toNat → exec .fser s = .next (s.outputFault 0x107#32 s.cfg.nfreq)) ∧
    (s.fcnt.toNat ≤ s.cfg.nfreq → ∀ e < s.fcnt.toNat,
      ((List.range e).map fun k => (recordLine (s.freqEntry k)).length).sum ≤ s.cfg.nout →
      s.cfg.nout < ((List.range (e + 1)).map fun k => (recordLine (s.freqEntry k)).length).sum →
      exec .fser s = .next (s.outputFault 0x107#32 e))

/-- R188: the table round trip. A table with distinct symbols, none of them the colon, written by FSER, moved
to IN and parsed by FPARSE, is the same table in the same order, with WARN = 0. -/
def Obligations.TableRoundTrip : Prop :=
  ∀ s t : State, s.cfg.Valid → 1 ≤ s.fcnt.toNat → s.fcnt.toNat ≤ s.cfg.nfreq →
    (s.table.map Prod.fst).Nodup → 0x003A#symw ∉ s.table.map Prod.fst →
    (s.table.map fun entry => (recordLine entry).length).sum ≤ s.cfg.nout →
    (s.table.map fun entry => (recordLine entry).length).sum ≤ s.cfg.nin →
    exec .fser s = .next t →
    t.err = 0#8 ∧ ∃ u, exec .fparse t.movedOut = .next u ∧ u.Completed ∧ u.warn = 0#32 ∧
      u.fcnt = s.fcnt ∧ ∀ e < s.fcnt.toNat, u.freqEntry e = s.freqEntry e

/-! ### Whole-machine rules -/

/-- R27, R36: the frame of ENC, DEC, XOR and FSER. They write STATUS, ERRPOS and OLEN and no other register, no
memory but OUT, and of OUT only the cells below the new OLEN (none after a fault). -/
def Obligations.OutputCommandsFrame : Prop :=
  ∀ i ∈ [Instr.enc, Instr.dec, Instr.xor, Instr.fser], ∀ s t : State, s.cfg.Valid → exec i s = .next t →
    SameBut [.status, .errpos, .olen] [.output] s t ∧
    ∀ k, t.olen.toNat ≤ k → t.outCell k = s.outCell k

/-- R27, R41: the frame of FPARSE and NOP. FPARSE writes STATUS, ERRPOS, FCNT and WARN and no other register,
no memory but FREQ, and of FREQ only the entries below the new FCNT; NOP writes STATUS and ERRPOS only. -/
def Obligations.TableCommandAndNopFrame : Prop :=
  ∀ s t : State, s.cfg.Valid →
    (exec .fparse s = .next t →
      SameBut [.status, .errpos, .fcnt, .warn] [.freqSym, .freqCount] s t ∧
      ∀ k, t.fcnt.toNat ≤ k → t.freqEntry k = s.freqEntry k) ∧
    (exec .nop s = .next t → SameBut [.status, .errpos] [] s t)

/-- R240, R241: a fault has its table's effect alone. Whatever command faults, DONE is 1, STATUS holds nothing
but DONE and the code, and the state is the old one with STATUS, ERRPOS and the command's result length (OLEN;
for FPARSE FCNT = 0 and WARN) rewritten: no cell of OUT or FREQ is touched. -/
def Obligations.FaultsArePreciseAndAtomic : Prop :=
  ∀ (i : Instr) (s t : State), exec i s = .next t → t.err ≠ 0#8 →
    t.status = 0x100#32 ||| t.err.setWidth 32 ∧
    match i with
    | .nop => False
    | .enc | .dec | .xor | .fser => t = { s with status := t.status, errpos := t.errpos, olen := 0#32 }
    | .fparse =>
      t = { s with status := t.status, errpos := t.errpos, fcnt := 0#32, warn := t.warn } ∧
      (t.err = 7#8 → t.warn = 0#32)

/-- R230: the error a command leaves is 0 or one of the codes its row of the table allows; DONE is set and the
reserved bits are 0 after every command. -/
def Obligations.CommandsRaiseOnlyTheirErrors : Prop :=
  ∀ (i : Instr) (s t : State), exec i s = .next t →
    t.done = true ∧ t.status.toNat < 2 ^ 9 ∧ (t.err = 0#8 → t.errpos = 0#32) ∧
    (t.err = 0#8 ∨ match i with
      | .nop => False
      | .enc => t.err = 1#8 ∨ t.err = 2#8 ∨ t.err = 7#8 ∨ t.err = 10#8
      | .dec => t.err = 3#8 ∨ t.err = 4#8 ∨ t.err = 7#8 ∨ t.err = 9#8
      | .xor => t.err = 4#8 ∨ t.err = 7#8
      | .fparse => t.err = 5#8 ∨ t.err = 7#8
      | .fser => t.err = 7#8)

/-- R275 and the last sentence of part 1 of 93: every command word, on every state, ends in a next state; so
does every host event, and every step. -/
def Obligations.EveryStepAnswersNext : Prop :=
  (∀ (i : Instr) (s : State), ∃ t, exec i s = .next t) ∧
  (∀ (e : HostEvent) (s : State), ∃ t, perform e s = .next t) ∧
  (∀ s : State, ∃ t, step s = .next t)

/-- The invariant holds right after reset, for every valid choice of the capacities, the reference
configuration among them (R6, R45). -/
def Obligations.ResetMeetsInvariant : Prop :=
  (∀ c : Config, c.Valid → (State.resetWith c).Inv) ∧ State.reset.Inv

/-- The invariant is kept by every step from every state that meets it: the parameters valid, the reserved bits
of STATUS and CTRL 0, OLEN within NOUT, WARN within NIN, ERRPOS 0 on success, STATUS.ERR in agreement with the
word in CMD, the registers only commands write at reset values before the first command, every memory in
canonical form (R22, R29 to R33, R66, R230, R240; log 1). -/
def Obligations.StepKeepsInvariant : Prop :=
  ∀ s t : State, s.Inv → step s = .next t → t.Inv

/-- No step changes the parameters of the instance (R44). -/
def Obligations.StepKeepsParameters : Prop :=
  ∀ s t : State, step s = .next t → t.cfg = s.cfg

/-- R27, R46, R262: what a command leaves in its result depends on the operands the rules say it reads and on
nothing else: not on OUT, on CODE entries from CCNT on, on TREE records the walk cannot reach, on any element
nothing has written outside those. -/
def Obligations.ResultsDependOnlyOnOperands : Prop :=
  ∀ (i : Instr) (s u t v : State), s.cfg.Valid → AgreeFor i s u → exec i s = .next t → exec i u = .next v →
    t.status = v.status ∧ t.errpos = v.errpos ∧
    match i with
    | .nop => True
    | .enc | .dec | .xor | .fser => t.olen = v.olen ∧ t.output = v.output
    | .fparse => t.fcnt = v.fcnt ∧ t.warn = v.warn ∧ t.table = v.table

/-- R243: issuing a command again right after it faulted gives the same fault and changes nothing more. -/
def Obligations.ReissuedFaultRepeats : Prop :=
  ∀ (i : Instr) (s t : State), exec i s = .next t → t.err ≠ 0#8 → exec i t = .next t

/-! ### The host's tables and the round trips -/

/-- R109, `mvout`: performing its transactions leaves the last result in IN and its length in ILEN, and
changes nothing else. -/
def Obligations.MvoutMovesLastResult : Prop :=
  ∀ s : State, s.cfg.Valid → s.olen.toNat ≤ s.cfg.nin → s.olen.toNat ≤ s.cfg.nout →
    performAll (mvoutScript s) s = .next { s.movedOut with response := some .okWrite } ∧
    s.movedOut.input = s.output

/-- R217: in the code table of a tree no code is a beginning of the code of another leaf (the leaves taken by
position, so that equal characters are not assumed different). -/
def Obligations.CodesArePrefixFree : Prop :=
  ∀ (tree : HTree) (a b : Nat) (x y : Cell × List Bit),
    tree.codes[a]? = some x → tree.codes[b]? = some y → a ≠ b → ¬List.IsPrefix x.2 y.2

/-- R211, R213, R218: the reference builder makes a tree from every non-empty table, its leaves are the table's
entries, every internal node's frequency is the sum of its children's, and the root's is the sum of the
leaves', which for a counted text is its length; an empty table is a TreeConstructionError. -/
def Obligations.BuilderConservesFrequency : Prop :=
  (∀ table : List (Cell × Nat), table ≠ [] → ∃ tree, buildTree table = .ok tree ∧
    tree.leaves.Perm table ∧ tree.Conserves ∧ tree.freq = (table.map Prod.snd).sum) ∧
  (∀ (sym : Cell) (count : Nat), buildTree [(sym, count)] = .ok (.leaf 0 sym count)) ∧
  (∀ text : List Cell, ((countText text).map Prod.snd).sum = text.length ∧
    ∀ c, c ∈ text ↔ c ∈ (countText text).map Prod.fst) ∧
  buildTree [] = .error .treeConstruction

/-- R216: performing the transactions that load a tree (distinct record indices, all in TREE) leaves that tree
in TREE and its root in ROOT. -/
def Obligations.LoadTreeLoadsTree : Prop :=
  ∀ (s : State) (tree : HTree), s.cfg.Valid → (treeIndices tree).Nodup → (∀ i ∈ treeIndices tree, i < s.cfg.nnode) →
    ∃ t, performAll (loadTree tree) s = .next t ∧ tree.held t ∧ t.root.toNat = tree.index ∧ t.cfg = s.cfg

/-- R215: performing the transactions that load a code table (distinct symbols, no empty code, room in CODE and
CDIG) leaves CCNT at the number of entries and the table in CODE and CDIG. -/
def Obligations.LoadCodesLoadsTable : Prop :=
  ∀ (s : State) (codes : List (Cell × List Bit)), s.cfg.Valid → (codes.map Prod.fst).Nodup →
    (∀ entry ∈ codes, entry.2 ≠ []) → codes.length ≤ s.cfg.ncode →
    ((codes.map Prod.snd).flatten).length ≤ s.cfg.ncdig →
    ∃ t, performAll (loadCodes codes) s = .next t ∧ t.ccnt.toNat = codes.length ∧ codesHeld t codes ∧
      t.cfg = s.cfg

/-- R152: the round trip. TREE and ROOT hold a tree with distinct symbols, CODE and CDIG hold its code table, IN
holds a non-empty text over its symbols, the capacities suffice: ENC succeeds, and after `mvout` DEC with
CIPH = 0 and either value of STRICT succeeds and returns the text. -/
def Obligations.EncodeThenDecodeRestoresText : Prop :=
  ∀ (s : State) (tree : HTree), s.cfg.Valid →
    tree.held s → s.root.toNat = tree.index → (tree.leaves.map Prod.fst).Nodup → codesHeld s tree.codes →
    s.ccnt.toNat ≤ s.cfg.ncode → 1 ≤ s.ilen.toNat → s.ilen.toNat ≤ s.cfg.nin →
    (∀ c ∈ s.input, c ∈ tree.leaves.map Prod.fst) →
    (textDigits tree.codes s.input).length ≤ s.cfg.nout → (textDigits tree.codes s.input).length ≤ s.cfg.nin →
    ∃ t, exec .enc s = .next t ∧ t.Completed ∧
      ∀ ctrl : Word, ctrl.getLsbD 1 = false →
        ∃ u, exec .dec { t.movedOut with ctrl := ctrl } = .next u ∧ u.Completed ∧ u.olen = s.ilen ∧
          u.output = s.input

/-- R152, last sentence, and R164: the same through the cipher. The payload of ENC, moved, ciphered with a
non-empty key and moved, is decoded by DEC with CIPH = 1 and the same key. -/
def Obligations.CipheredRoundTripRestoresText : Prop :=
  ∀ (s t : State) (tree : HTree), s.cfg.Valid →
    tree.held s → s.root.toNat = tree.index → (tree.leaves.map Prod.fst).Nodup → codesHeld s tree.codes →
    s.ccnt.toNat ≤ s.cfg.ncode → 1 ≤ s.ilen.toNat → s.ilen.toNat ≤ s.cfg.nin →
    (∀ c ∈ s.input, c ∈ tree.leaves.map Prod.fst) → s.klen ≠ 0#32 → s.klen.toNat ≤ s.cfg.nkey →
    exec .enc s = .next t → t.err = 0#8 → t.olen.toNat ≤ s.cfg.nin →
    ∃ v, exec .xor t.movedOut = .next v ∧ v.Completed ∧
      ∀ ctrl : Word, ctrl.getLsbD 1 = true →
        ∃ u, exec .dec { v.movedOut with ctrl := ctrl } = .next u ∧ u.Completed ∧ u.olen = s.ilen ∧
          u.output = s.input

/-- A payload file is read back as it was written, if no cell of the payload is a newline (R107, R219). It rests
on the model's choice of log 14: the spec names no line separator (91 N11); here CH_NL alone separates lines, a
CH_CR is kept as a cell, and the payload stands on one line. -/
def Obligations.PayloadFileReadsBack : Prop :=
  ∀ (ciphered : Bool) (payload : List Cell), 0x000A#symw ∉ payload →
    readPayloadFile (payloadFile ciphered payload) = some (ciphered, payload)

/-- R220, the frequency-table file. Writing loads the table and stores the lines FSER writes. Reading loads the
characters of the file with CH_NL alone between lines, and hands on what it reads after FPARSE: FCNT, WARN and
the entries, which are the record's distinct symbols in order of first appearance with their last counts, WARN
the number of skipped lines. A written table is read back the same, in the same order, with WARN = 0. A file
with CR LF line ends is presented as the same lines with CH_NL; that a CH_CR inside a line stays is the
model's choice (log 16). -/
def Obligations.TableFileReadsBack : Prop :=
  (∀ (s u : State) (table : List (Cell × Nat)), s.cfg.Valid → u.cfg.Valid → 1 ≤ table.length →
    table.length ≤ s.cfg.nfreq → table.length ≤ u.cfg.nfreq → (∀ entry ∈ table, entry.2 ≤ 4294967295) →
    (table.map Prod.fst).Nodup → 0x003A#symw ∉ table.map Prod.fst →
    let entries := table.map fun entry => (entry.1, BitVec.ofNat 32 entry.2)
    let file := (entries.map recordLine).flatten
    file.length ≤ s.cfg.nout → file.length ≤ u.cfg.nin →
    ∃ reading t v, writeTableFile table s = some (file, t) ∧ readTableFile file u = some (reading, v) ∧
      reading.fcnt.toNat = table.length ∧ reading.warn = 0#32 ∧
      (reading.table.map fun entry => (entry.1, entry.2.toNat)) = table) ∧
  (∀ (s : State) (file : List Cell), s.cfg.Valid →
    let record := dropLineEndCR file
    record.length ≤ s.cfg.nin → recordEntries record ≠ [] →
    (firstSymbols (recordEntries record)).length ≤ s.cfg.nfreq →
    ∃ reading t, readTableFile file s = some (reading, t) ∧
      reading.fcnt.toNat = reading.table.length ∧ reading.warn.toNat = recordSkipped record ∧
      reading.table.map Prod.fst = firstSymbols (recordEntries record) ∧
      ∀ entry ∈ reading.table, (recordEntries record).reverse.find? (fun x => x.1 == entry.1) = some entry) ∧
  (∀ lines : List (List Cell), (∀ l ∈ lines, 0x000A#symw ∉ l ∧ l.getLast? ≠ some 0x000D#symw) →
    dropLineEndCR (lines.map (· ++ [0x000D#symw, 0x000A#symw])).flatten = (lines.map (· ++ [0x000A#symw])).flatten)
end

