-- ==== Sys2Proof/Laws/State.lean ====
section
/-! SUPPORT. One lemma for each field of State under each named update, so that no proof unfolds a record update. -/

namespace Sys2Proof.Machine

open Sys2Proof

/-! ### complete -/

@[simp] theorem complete_cfg (s : State) : (complete s).cfg = s.cfg := rfl
@[simp] theorem complete_cmd (s : State) : (complete s).cmd = s.cmd := rfl
@[simp] theorem complete_status (s : State) : (complete s).status = statusWord 0#8 := rfl
@[simp] theorem complete_ctrl (s : State) : (complete s).ctrl = s.ctrl := rfl
@[simp] theorem complete_ilen (s : State) : (complete s).ilen = s.ilen := rfl
@[simp] theorem complete_olen (s : State) : (complete s).olen = s.olen := rfl
@[simp] theorem complete_klen (s : State) : (complete s).klen = s.klen := rfl
@[simp] theorem complete_ccnt (s : State) : (complete s).ccnt = s.ccnt := rfl
@[simp] theorem complete_root (s : State) : (complete s).root = s.root := rfl
@[simp] theorem complete_fcnt (s : State) : (complete s).fcnt = s.fcnt := rfl
@[simp] theorem complete_warn (s : State) : (complete s).warn = s.warn := rfl
@[simp] theorem complete_errpos (s : State) : (complete s).errpos = 0#32 := rfl
@[simp] theorem complete_inMem (s : State) : (complete s).inMem = s.inMem := rfl
@[simp] theorem complete_outMem (s : State) : (complete s).outMem = s.outMem := rfl
@[simp] theorem complete_keyMem (s : State) : (complete s).keyMem = s.keyMem := rfl
@[simp] theorem complete_codeSym (s : State) : (complete s).codeSym = s.codeSym := rfl
@[simp] theorem complete_codeLen (s : State) : (complete s).codeLen = s.codeLen := rfl
@[simp] theorem complete_codeBase (s : State) : (complete s).codeBase = s.codeBase := rfl
@[simp] theorem complete_cdig (s : State) : (complete s).cdig = s.cdig := rfl
@[simp] theorem complete_treeLeft (s : State) : (complete s).treeLeft = s.treeLeft := rfl
@[simp] theorem complete_treeRight (s : State) : (complete s).treeRight = s.treeRight := rfl
@[simp] theorem complete_treeSym (s : State) : (complete s).treeSym = s.treeSym := rfl
@[simp] theorem complete_treeLeaf (s : State) : (complete s).treeLeaf = s.treeLeaf := rfl
@[simp] theorem complete_freqSym (s : State) : (complete s).freqSym = s.freqSym := rfl
@[simp] theorem complete_freqCount (s : State) : (complete s).freqCount = s.freqCount := rfl
@[simp] theorem complete_resets (s : State) : (complete s).resets = s.resets := rfl
@[simp] theorem complete_pending (s : State) : (complete s).pending = s.pending := rfl
@[simp] theorem complete_response (s : State) : (complete s).response = s.response := rfl

/-! ### takeFault -/

@[simp] theorem takeFault_cfg (c : FaultClass) (r : Raise) (s : State) : (takeFault c r s).cfg = s.cfg := by
  cases c <;> rfl
@[simp] theorem takeFault_cmd (c : FaultClass) (r : Raise) (s : State) : (takeFault c r s).cmd = s.cmd := by
  cases c <;> rfl
@[simp] theorem takeFault_status (c : FaultClass) (r : Raise) (s : State) : (takeFault c r s).status =
    statusWord r.kind.code := by
  cases c <;> rfl
@[simp] theorem takeFault_ctrl (c : FaultClass) (r : Raise) (s : State) : (takeFault c r s).ctrl = s.ctrl := by
  cases c <;> rfl
@[simp] theorem takeFault_ilen (c : FaultClass) (r : Raise) (s : State) : (takeFault c r s).ilen = s.ilen := by
  cases c <;> rfl
@[simp] theorem takeFault_klen (c : FaultClass) (r : Raise) (s : State) : (takeFault c r s).klen = s.klen := by
  cases c <;> rfl
@[simp] theorem takeFault_ccnt (c : FaultClass) (r : Raise) (s : State) : (takeFault c r s).ccnt = s.ccnt := by
  cases c <;> rfl
@[simp] theorem takeFault_root (c : FaultClass) (r : Raise) (s : State) : (takeFault c r s).root = s.root := by
  cases c <;> rfl
@[simp] theorem takeFault_errpos (c : FaultClass) (r : Raise) (s : State) : (takeFault c r s).errpos =
    BitVec.ofNat 32 r.pos := by
  cases c <;> rfl
@[simp] theorem takeFault_inMem (c : FaultClass) (r : Raise) (s : State) : (takeFault c r s).inMem = s.inMem := by
  cases c <;> rfl
@[simp] theorem takeFault_outMem (c : FaultClass) (r : Raise) (s : State) : (takeFault c r s).outMem = s.outMem := by
  cases c <;> rfl
@[simp] theorem takeFault_keyMem (c : FaultClass) (r : Raise) (s : State) : (takeFault c r s).keyMem = s.keyMem := by
  cases c <;> rfl
@[simp] theorem takeFault_codeSym (c : FaultClass) (r : Raise) (s : State) : (takeFault c r s).codeSym =
    s.codeSym := by
  cases c <;> rfl
@[simp] theorem takeFault_codeLen (c : FaultClass) (r : Raise) (s : State) : (takeFault c r s).codeLen =
    s.codeLen := by
  cases c <;> rfl
@[simp] theorem takeFault_codeBase (c : FaultClass) (r : Raise) (s : State) : (takeFault c r s).codeBase =
    s.codeBase := by
  cases c <;> rfl
@[simp] theorem takeFault_cdig (c : FaultClass) (r : Raise) (s : State) : (takeFault c r s).cdig = s.cdig := by
  cases c <;> rfl
@[simp] theorem takeFault_treeLeft (c : FaultClass) (r : Raise) (s : State) : (takeFault c r s).treeLeft =
    s.treeLeft := by
  cases c <;> rfl
@[simp] theorem takeFault_treeRight (c : FaultClass) (r : Raise) (s : State) : (takeFault c r s).treeRight =
    s.treeRight := by
  cases c <;> rfl
@[simp] theorem takeFault_treeSym (c : FaultClass) (r : Raise) (s : State) : (takeFault c r s).treeSym =
    s.treeSym := by
  cases c <;> rfl
@[simp] theorem takeFault_treeLeaf (c : FaultClass) (r : Raise) (s : State) : (takeFault c r s).treeLeaf =
    s.treeLeaf := by
  cases c <;> rfl
@[simp] theorem takeFault_freqSym (c : FaultClass) (r : Raise) (s : State) : (takeFault c r s).freqSym =
    s.freqSym := by
  cases c <;> rfl
@[simp] theorem takeFault_freqCount (c : FaultClass) (r : Raise) (s : State) : (takeFault c r s).freqCount =
    s.freqCount := by
  cases c <;> rfl
@[simp] theorem takeFault_resets (c : FaultClass) (r : Raise) (s : State) : (takeFault c r s).resets = s.resets := by
  cases c <;> rfl
@[simp] theorem takeFault_pending (c : FaultClass) (r : Raise) (s : State) : (takeFault c r s).pending =
    s.pending := by
  cases c <;> rfl
@[simp] theorem takeFault_response (c : FaultClass) (r : Raise) (s : State) : (takeFault c r s).response =
    s.response := by
  cases c <;> rfl
@[simp] theorem takeFault_output_olen (r : Raise) (s : State) : (takeFault .output r s).olen = 0#32 := rfl
@[simp] theorem takeFault_output_fcnt (r : Raise) (s : State) : (takeFault .output r s).fcnt = s.fcnt := rfl
@[simp] theorem takeFault_output_warn (r : Raise) (s : State) : (takeFault .output r s).warn = s.warn := rfl
@[simp] theorem takeFault_table_olen (w : Nat) (r : Raise) (s : State) : (takeFault (.table w) r s).olen =
    s.olen := rfl
@[simp] theorem takeFault_table_fcnt (w : Nat) (r : Raise) (s : State) : (takeFault (.table w) r s).fcnt = 0#32 := rfl
@[simp] theorem takeFault_table_warn (w : Nat) (r : Raise) (s : State) : (takeFault (.table w) r s).warn =
    BitVec.ofNat 32 w := rfl
@[simp] theorem takeFault_illegal_olen (r : Raise) (s : State) : (takeFault .illegal r s).olen = s.olen := rfl
@[simp] theorem takeFault_illegal_fcnt (r : Raise) (s : State) : (takeFault .illegal r s).fcnt = s.fcnt := rfl
@[simp] theorem takeFault_illegal_warn (r : Raise) (s : State) : (takeFault .illegal r s).warn = s.warn := rfl

/-! ### commitOutput -/

@[simp] theorem commitOutput_cfg (out : List Cell) (s : State) : (commitOutput out s).cfg = s.cfg := rfl
@[simp] theorem commitOutput_cmd (out : List Cell) (s : State) : (commitOutput out s).cmd = s.cmd := rfl
@[simp] theorem commitOutput_status (out : List Cell) (s : State) : (commitOutput out s).status = statusWord 0#8 :=
    rfl
@[simp] theorem commitOutput_ctrl (out : List Cell) (s : State) : (commitOutput out s).ctrl = s.ctrl := rfl
@[simp] theorem commitOutput_ilen (out : List Cell) (s : State) : (commitOutput out s).ilen = s.ilen := rfl
@[simp] theorem commitOutput_olen (out : List Cell) (s : State) : (commitOutput out s).olen =
    BitVec.ofNat 32 out.length := rfl
@[simp] theorem commitOutput_klen (out : List Cell) (s : State) : (commitOutput out s).klen = s.klen := rfl
@[simp] theorem commitOutput_ccnt (out : List Cell) (s : State) : (commitOutput out s).ccnt = s.ccnt := rfl
@[simp] theorem commitOutput_root (out : List Cell) (s : State) : (commitOutput out s).root = s.root := rfl
@[simp] theorem commitOutput_fcnt (out : List Cell) (s : State) : (commitOutput out s).fcnt = s.fcnt := rfl
@[simp] theorem commitOutput_warn (out : List Cell) (s : State) : (commitOutput out s).warn = s.warn := rfl
@[simp] theorem commitOutput_errpos (out : List Cell) (s : State) : (commitOutput out s).errpos = 0#32 := rfl
@[simp] theorem commitOutput_inMem (out : List Cell) (s : State) : (commitOutput out s).inMem = s.inMem := rfl
@[simp] theorem commitOutput_outMem (out : List Cell) (s : State) : (commitOutput out s).outMem =
    Memory.writeFrom s.outMem 0 out := rfl
@[simp] theorem commitOutput_keyMem (out : List Cell) (s : State) : (commitOutput out s).keyMem = s.keyMem := rfl
@[simp] theorem commitOutput_codeSym (out : List Cell) (s : State) : (commitOutput out s).codeSym = s.codeSym := rfl
@[simp] theorem commitOutput_codeLen (out : List Cell) (s : State) : (commitOutput out s).codeLen = s.codeLen := rfl
@[simp] theorem commitOutput_codeBase (out : List Cell) (s : State) : (commitOutput out s).codeBase = s.codeBase :=
    rfl
@[simp] theorem commitOutput_cdig (out : List Cell) (s : State) : (commitOutput out s).cdig = s.cdig := rfl
@[simp] theorem commitOutput_treeLeft (out : List Cell) (s : State) : (commitOutput out s).treeLeft = s.treeLeft :=
    rfl
@[simp] theorem commitOutput_treeRight (out : List Cell) (s : State) : (commitOutput out s).treeRight =
    s.treeRight := rfl
@[simp] theorem commitOutput_treeSym (out : List Cell) (s : State) : (commitOutput out s).treeSym = s.treeSym := rfl
@[simp] theorem commitOutput_treeLeaf (out : List Cell) (s : State) : (commitOutput out s).treeLeaf = s.treeLeaf :=
    rfl
@[simp] theorem commitOutput_freqSym (out : List Cell) (s : State) : (commitOutput out s).freqSym = s.freqSym := rfl
@[simp] theorem commitOutput_freqCount (out : List Cell) (s : State) : (commitOutput out s).freqCount =
    s.freqCount := rfl
@[simp] theorem commitOutput_resets (out : List Cell) (s : State) : (commitOutput out s).resets = s.resets := rfl
@[simp] theorem commitOutput_pending (out : List Cell) (s : State) : (commitOutput out s).pending = s.pending := rfl
@[simp] theorem commitOutput_response (out : List Cell) (s : State) : (commitOutput out s).response = s.response :=
    rfl

/-! ### commitTable -/

@[simp] theorem commitTable_cfg (t : List (Cell × Word)) (w : Nat) (s : State) :
    (commitTable t w s).cfg = s.cfg := rfl
@[simp] theorem commitTable_cmd (t : List (Cell × Word)) (w : Nat) (s : State) :
    (commitTable t w s).cmd = s.cmd := rfl
@[simp] theorem commitTable_status (t : List (Cell × Word)) (w : Nat) (s : State) :
    (commitTable t w s).status = statusWord 0#8 := rfl
@[simp] theorem commitTable_ctrl (t : List (Cell × Word)) (w : Nat) (s : State) :
    (commitTable t w s).ctrl = s.ctrl := rfl
@[simp] theorem commitTable_ilen (t : List (Cell × Word)) (w : Nat) (s : State) :
    (commitTable t w s).ilen = s.ilen := rfl
@[simp] theorem commitTable_olen (t : List (Cell × Word)) (w : Nat) (s : State) :
    (commitTable t w s).olen = s.olen := rfl
@[simp] theorem commitTable_klen (t : List (Cell × Word)) (w : Nat) (s : State) :
    (commitTable t w s).klen = s.klen := rfl
@[simp] theorem commitTable_ccnt (t : List (Cell × Word)) (w : Nat) (s : State) :
    (commitTable t w s).ccnt = s.ccnt := rfl
@[simp] theorem commitTable_root (t : List (Cell × Word)) (w : Nat) (s : State) :
    (commitTable t w s).root = s.root := rfl
@[simp] theorem commitTable_fcnt (t : List (Cell × Word)) (w : Nat) (s : State) :
    (commitTable t w s).fcnt = BitVec.ofNat 32 t.length := rfl
@[simp] theorem commitTable_warn (t : List (Cell × Word)) (w : Nat) (s : State) :
    (commitTable t w s).warn = BitVec.ofNat 32 w := rfl
@[simp] theorem commitTable_errpos (t : List (Cell × Word)) (w : Nat) (s : State) :
    (commitTable t w s).errpos = 0#32 := rfl
@[simp] theorem commitTable_inMem (t : List (Cell × Word)) (w : Nat) (s : State) :
    (commitTable t w s).inMem = s.inMem := rfl
@[simp] theorem commitTable_outMem (t : List (Cell × Word)) (w : Nat) (s : State) :
    (commitTable t w s).outMem = s.outMem := rfl
@[simp] theorem commitTable_keyMem (t : List (Cell × Word)) (w : Nat) (s : State) :
    (commitTable t w s).keyMem = s.keyMem := rfl
@[simp] theorem commitTable_codeSym (t : List (Cell × Word)) (w : Nat) (s : State) :
    (commitTable t w s).codeSym = s.codeSym := rfl
@[simp] theorem commitTable_codeLen (t : List (Cell × Word)) (w : Nat) (s : State) :
    (commitTable t w s).codeLen = s.codeLen := rfl
@[simp] theorem commitTable_codeBase (t : List (Cell × Word)) (w : Nat) (s : State) :
    (commitTable t w s).codeBase = s.codeBase := rfl
@[simp] theorem commitTable_cdig (t : List (Cell × Word)) (w : Nat) (s : State) :
    (commitTable t w s).cdig = s.cdig := rfl
@[simp] theorem commitTable_treeLeft (t : List (Cell × Word)) (w : Nat) (s : State) :
    (commitTable t w s).treeLeft = s.treeLeft := rfl
@[simp] theorem commitTable_treeRight (t : List (Cell × Word)) (w : Nat) (s : State) :
    (commitTable t w s).treeRight = s.treeRight := rfl
@[simp] theorem commitTable_treeSym (t : List (Cell × Word)) (w : Nat) (s : State) :
    (commitTable t w s).treeSym = s.treeSym := rfl
@[simp] theorem commitTable_treeLeaf (t : List (Cell × Word)) (w : Nat) (s : State) :
    (commitTable t w s).treeLeaf = s.treeLeaf := rfl
@[simp] theorem commitTable_freqSym (t : List (Cell × Word)) (w : Nat) (s : State) :
    (commitTable t w s).freqSym = Memory.writeFrom s.freqSym 0 (t.map Prod.fst) := rfl
@[simp] theorem commitTable_freqCount (t : List (Cell × Word)) (w : Nat) (s : State) :
    (commitTable t w s).freqCount = Memory.writeFrom s.freqCount 0 (t.map Prod.snd) := rfl
@[simp] theorem commitTable_resets (t : List (Cell × Word)) (w : Nat) (s : State) :
    (commitTable t w s).resets = s.resets := rfl
@[simp] theorem commitTable_pending (t : List (Cell × Word)) (w : Nat) (s : State) :
    (commitTable t w s).pending = s.pending := rfl
@[simp] theorem commitTable_response (t : List (Cell × Word)) (w : Nat) (s : State) :
    (commitTable t w s).response = s.response := rfl

/-! ### respond -/

@[simp] theorem respond_cfg (s : State) (r : PortResponse) : (s.respond r).cfg = s.cfg := rfl
@[simp] theorem respond_cmd (s : State) (r : PortResponse) : (s.respond r).cmd = s.cmd := rfl
@[simp] theorem respond_status (s : State) (r : PortResponse) : (s.respond r).status = s.status := rfl
@[simp] theorem respond_ctrl (s : State) (r : PortResponse) : (s.respond r).ctrl = s.ctrl := rfl
@[simp] theorem respond_ilen (s : State) (r : PortResponse) : (s.respond r).ilen = s.ilen := rfl
@[simp] theorem respond_olen (s : State) (r : PortResponse) : (s.respond r).olen = s.olen := rfl
@[simp] theorem respond_klen (s : State) (r : PortResponse) : (s.respond r).klen = s.klen := rfl
@[simp] theorem respond_ccnt (s : State) (r : PortResponse) : (s.respond r).ccnt = s.ccnt := rfl
@[simp] theorem respond_root (s : State) (r : PortResponse) : (s.respond r).root = s.root := rfl
@[simp] theorem respond_fcnt (s : State) (r : PortResponse) : (s.respond r).fcnt = s.fcnt := rfl
@[simp] theorem respond_warn (s : State) (r : PortResponse) : (s.respond r).warn = s.warn := rfl
@[simp] theorem respond_errpos (s : State) (r : PortResponse) : (s.respond r).errpos = s.errpos := rfl
@[simp] theorem respond_inMem (s : State) (r : PortResponse) : (s.respond r).inMem = s.inMem := rfl
@[simp] theorem respond_outMem (s : State) (r : PortResponse) : (s.respond r).outMem = s.outMem := rfl
@[simp] theorem respond_keyMem (s : State) (r : PortResponse) : (s.respond r).keyMem = s.keyMem := rfl
@[simp] theorem respond_codeSym (s : State) (r : PortResponse) : (s.respond r).codeSym = s.codeSym := rfl
@[simp] theorem respond_codeLen (s : State) (r : PortResponse) : (s.respond r).codeLen = s.codeLen := rfl
@[simp] theorem respond_codeBase (s : State) (r : PortResponse) : (s.respond r).codeBase = s.codeBase := rfl
@[simp] theorem respond_cdig (s : State) (r : PortResponse) : (s.respond r).cdig = s.cdig := rfl
@[simp] theorem respond_treeLeft (s : State) (r : PortResponse) : (s.respond r).treeLeft = s.treeLeft := rfl
@[simp] theorem respond_treeRight (s : State) (r : PortResponse) : (s.respond r).treeRight = s.treeRight := rfl
@[simp] theorem respond_treeSym (s : State) (r : PortResponse) : (s.respond r).treeSym = s.treeSym := rfl
@[simp] theorem respond_treeLeaf (s : State) (r : PortResponse) : (s.respond r).treeLeaf = s.treeLeaf := rfl
@[simp] theorem respond_freqSym (s : State) (r : PortResponse) : (s.respond r).freqSym = s.freqSym := rfl
@[simp] theorem respond_freqCount (s : State) (r : PortResponse) : (s.respond r).freqCount = s.freqCount := rfl
@[simp] theorem respond_resets (s : State) (r : PortResponse) : (s.respond r).resets = s.resets := rfl
@[simp] theorem respond_pending (s : State) (r : PortResponse) : (s.respond r).pending = s.pending := rfl
@[simp] theorem respond_response (s : State) (r : PortResponse) : (s.respond r).response = some r := rfl

/-! ### movedOut -/

@[simp] theorem movedOut_cfg (s : State) : s.movedOut.cfg = s.cfg := rfl
@[simp] theorem movedOut_cmd (s : State) : s.movedOut.cmd = s.cmd := rfl
@[simp] theorem movedOut_status (s : State) : s.movedOut.status = s.status := rfl
@[simp] theorem movedOut_ctrl (s : State) : s.movedOut.ctrl = s.ctrl := rfl
@[simp] theorem movedOut_ilen (s : State) : s.movedOut.ilen = s.olen := rfl
@[simp] theorem movedOut_olen (s : State) : s.movedOut.olen = s.olen := rfl
@[simp] theorem movedOut_klen (s : State) : s.movedOut.klen = s.klen := rfl
@[simp] theorem movedOut_ccnt (s : State) : s.movedOut.ccnt = s.ccnt := rfl
@[simp] theorem movedOut_root (s : State) : s.movedOut.root = s.root := rfl
@[simp] theorem movedOut_fcnt (s : State) : s.movedOut.fcnt = s.fcnt := rfl
@[simp] theorem movedOut_warn (s : State) : s.movedOut.warn = s.warn := rfl
@[simp] theorem movedOut_errpos (s : State) : s.movedOut.errpos = s.errpos := rfl
@[simp] theorem movedOut_inMem (s : State) : s.movedOut.inMem = Memory.writeFrom s.inMem 0 s.output := rfl
@[simp] theorem movedOut_outMem (s : State) : s.movedOut.outMem = s.outMem := rfl
@[simp] theorem movedOut_keyMem (s : State) : s.movedOut.keyMem = s.keyMem := rfl
@[simp] theorem movedOut_codeSym (s : State) : s.movedOut.codeSym = s.codeSym := rfl
@[simp] theorem movedOut_codeLen (s : State) : s.movedOut.codeLen = s.codeLen := rfl
@[simp] theorem movedOut_codeBase (s : State) : s.movedOut.codeBase = s.codeBase := rfl
@[simp] theorem movedOut_cdig (s : State) : s.movedOut.cdig = s.cdig := rfl
@[simp] theorem movedOut_treeLeft (s : State) : s.movedOut.treeLeft = s.treeLeft := rfl
@[simp] theorem movedOut_treeRight (s : State) : s.movedOut.treeRight = s.treeRight := rfl
@[simp] theorem movedOut_treeSym (s : State) : s.movedOut.treeSym = s.treeSym := rfl
@[simp] theorem movedOut_treeLeaf (s : State) : s.movedOut.treeLeaf = s.treeLeaf := rfl
@[simp] theorem movedOut_freqSym (s : State) : s.movedOut.freqSym = s.freqSym := rfl
@[simp] theorem movedOut_freqCount (s : State) : s.movedOut.freqCount = s.freqCount := rfl
@[simp] theorem movedOut_resets (s : State) : s.movedOut.resets = s.resets := rfl
@[simp] theorem movedOut_pending (s : State) : s.movedOut.pending = s.pending := rfl
@[simp] theorem movedOut_response (s : State) : s.movedOut.response = s.response := rfl

/-! ### outputFault and tableFault are the faults of R240 -/

theorem takeFault_output (r : Raise) (s : State) :
    takeFault .output r s = s.outputFault (statusWord r.kind.code) r.pos := rfl

theorem takeFault_table (w : Nat) (r : Raise) (s : State) :
    takeFault (.table w) r s = s.tableFault (statusWord r.kind.code) r.pos w := rfl

end Sys2Proof.Machine
end

