-- ==== Sys2Proof/Laws/Memory.lean ====
section
/-! SUPPORT. The laws of one array of a memory: read after write, the canonical form and its preservation,
equal memories are equal data. -/

namespace Sys2Proof.Machine

open Sys2Proof

variable {w : Nat}

/-! ### Read after write -/

theorem Memory.find?_write_self (m : Memory w) (k : Nat) (v : BitVec w) :
    Memory.find? (Memory.write m k v) k = some v := by
  induction m with
  | nil => simp [Memory.write, Memory.find?]
  | cons e rest ih =>
    obtain ⟨j, x⟩ := e
    rcases lt_trichotomy k j with h | h | h
    · simp [Memory.write, Memory.find?, h]
    · simp [Memory.write, Memory.find?, h]
    · have h1 : ¬k < j := by omega
      have h2 : k ≠ j := by omega
      simp [Memory.write, Memory.find?, h1, h2, Ne.symm h2, ih]

theorem Memory.find?_write_of_ne (m : Memory w) {k j : Nat} (v : BitVec w) (h : j ≠ k) :
    Memory.find? (Memory.write m k v) j = Memory.find? m j := by
  induction m with
  | nil => simp [Memory.write, Memory.find?, h.symm]
  | cons e rest ih =>
    obtain ⟨i, x⟩ := e
    rcases lt_trichotomy k i with h1 | h1 | h1
    · simp [Memory.write, Memory.find?, h1, h.symm]
    · subst h1
      simp [Memory.write, Memory.find?, h.symm]
    · have h2 : ¬k < i := by omega
      have h3 : k ≠ i := by omega
      simp [Memory.write, Memory.find?, h2, h3, ih]

@[simp] theorem Memory.read_write_self (m : Memory w) (free : Nat → Word) (k : Nat) (v : BitVec w) :
    Memory.read (Memory.write m k v) free k = v := by
  simp [Memory.read, Memory.find?_write_self]

theorem Memory.read_write_of_ne (m : Memory w) (free : Nat → Word) {k j : Nat} (v : BitVec w) (h : j ≠ k) :
    Memory.read (Memory.write m k v) free j = Memory.read m free j := by
  simp [Memory.read, Memory.find?_write_of_ne m v h]

theorem Memory.read_write (m : Memory w) (free : Nat → Word) (k j : Nat) (v : BitVec w) :
    Memory.read (Memory.write m k v) free j = if j = k then v else Memory.read m free j := by
  by_cases h : j = k
  · simp [h]
  · simp [h, Memory.read_write_of_ne m free v h]

/-- Reading after a sequence was stored from index `k` on. -/
theorem Memory.read_writeFrom (vs : List (BitVec w)) (free : Nat → Word) (j : Nat) :
    ∀ (m : Memory w) (k : Nat), Memory.read (Memory.writeFrom m k vs) free j =
      if k ≤ j then (vs[j - k]?).getD (Memory.read m free j) else Memory.read m free j := by
  induction vs with
  | nil => intro m k; simp [Memory.writeFrom]
  | cons v vs ih =>
    intro m k
    rw [Memory.writeFrom, ih, Memory.read_write]
    rcases lt_trichotomy j k with h | h | h
    · have h1 : ¬k + 1 ≤ j := by omega
      have h2 : ¬k ≤ j := by omega
      have h3 : j ≠ k := by omega
      simp [h1, h2, h3]
    · subst h
      simp
    · have h1 : k + 1 ≤ j := by omega
      have h2 : k ≤ j := by omega
      have h3 : j ≠ k := by omega
      have h4 : j - k = (j - (k + 1)) + 1 := by omega
      simp [h1, h2, h3, h4]

/-- A stored stream reads back below its length. -/
theorem Memory.read_writeFrom_lt (m : Memory w) (free : Nat → Word) (vs : List (BitVec w)) {j : Nat}
    (h : j < vs.length) : Memory.read (Memory.writeFrom m 0 vs) free j = vs[j] := by
  simp [Memory.read_writeFrom, h]

/-- A stored stream leaves everything from its length on. -/
theorem Memory.read_writeFrom_ge (m : Memory w) (free : Nat → Word) (vs : List (BitVec w)) {j : Nat}
    (h : vs.length ≤ j) : Memory.read (Memory.writeFrom m 0 vs) free j = Memory.read m free j := by
  simp [Memory.read_writeFrom, h]

/-! ### The canonical form -/

theorem Memory.sortedFrom_write {cap : Nat} (m : Memory w) {k : Nat} (v : BitVec w) (hk : k < cap) :
    ∀ low ≤ k, Memory.sortedFrom cap low m = true → Memory.sortedFrom cap low (Memory.write m k v) = true := by
  induction m with
  | nil => intro low hl _; simp [Memory.write, Memory.sortedFrom, hl, hk]
  | cons e rest ih =>
    obtain ⟨i, x⟩ := e
    intro low hl h
    simp only [Memory.sortedFrom, Bool.and_eq_true, decide_eq_true_eq] at h
    obtain ⟨⟨h1, h2⟩, h3⟩ := h
    rcases lt_trichotomy k i with h4 | h4 | h4
    · have h5 : k + 1 ≤ i := by omega
      simp [Memory.write, h4, Memory.sortedFrom, hl, hk, h5, h2, h3]
    · subst h4
      simp [Memory.write, Memory.sortedFrom, hl, hk, h3]
    · have h5 : ¬k < i := by omega
      have h6 : k ≠ i := by omega
      simp [Memory.write, h5, h6, Memory.sortedFrom, h1, h2, ih (i + 1) h4 h3]

/-- A write inside the capacity keeps the canonical form. -/
theorem Memory.wf_write {cap : Nat} {m : Memory w} {k : Nat} (v : BitVec w) (hk : k < cap)
    (h : Memory.wf cap m = true) : Memory.wf cap (Memory.write m k v) = true :=
  Memory.sortedFrom_write m v hk 0 (Nat.zero_le k) h

/-- Storing a sequence inside the capacity keeps the canonical form. -/
theorem Memory.wf_writeFrom {cap : Nat} (vs : List (BitVec w)) :
    ∀ (m : Memory w) (k : Nat), k + vs.length ≤ cap → Memory.wf cap m = true →
      Memory.wf cap (Memory.writeFrom m k vs) = true := by
  induction vs with
  | nil => intro m k _ h; exact h
  | cons v vs ih =>
    intro m k hk h
    simp only [List.length_cons] at hk
    exact ih _ _ (by omega) (Memory.wf_write v (by omega) h)

theorem Memory.wf_nil (cap : Nat) : Memory.wf cap ([] : Memory w) = true := rfl

/-- In canonical form nothing is listed below the lower bound. -/
theorem Memory.find?_eq_none_of_lt {cap : Nat} (m : Memory w) :
    ∀ low, Memory.sortedFrom cap low m = true → ∀ k < low, Memory.find? m k = none := by
  induction m with
  | nil => intro _ _ _ _; rfl
  | cons e rest ih =>
    obtain ⟨i, x⟩ := e
    intro low h k hk
    simp only [Memory.sortedFrom, Bool.and_eq_true, decide_eq_true_eq] at h
    have h1 : i ≠ k := by omega
    simp [Memory.find?, h1, ih (i + 1) h.2 k (by omega)]

theorem Memory.ext_sortedFrom {cap : Nat} (m : Memory w) :
    ∀ (m' : Memory w) (low : Nat), Memory.sortedFrom cap low m = true → Memory.sortedFrom cap low m' = true →
      (∀ k, Memory.find? m k = Memory.find? m' k) → m = m' := by
  induction m with
  | nil =>
    intro m' low _ _ h
    cases m' with
    | nil => rfl
    | cons e rest => have := h e.1; simp [Memory.find?] at this
  | cons e rest ih =>
    obtain ⟨i, x⟩ := e
    intro m' low h1 h2 h
    cases m' with
    | nil => have := h i; simp [Memory.find?] at this
    | cons e' rest' =>
      obtain ⟨i', x'⟩ := e'
      simp only [Memory.sortedFrom, Bool.and_eq_true, decide_eq_true_eq] at h1 h2
      have hi : i = i' := by
        rcases lt_trichotomy i i' with hlt | heq | hgt
        · have ha := h i
          have hb : i' ≠ i := by omega
          simp [Memory.find?, hb, Memory.find?_eq_none_of_lt rest' (i' + 1) h2.2 i (by omega)] at ha
        · exact heq
        · have ha := h i'
          have hb : i ≠ i' := by omega
          simp [Memory.find?, hb, Memory.find?_eq_none_of_lt rest (i + 1) h1.2 i' (by omega)] at ha
      subst hi
      have hx : x = x' := by have := h i; simpa [Memory.find?] using this
      subst hx
      have hr : rest = rest' := by
        refine ih rest' (i + 1) h1.2 h2.2 fun k => ?_
        by_cases hk : i = k
        · subst hk
          rw [Memory.find?_eq_none_of_lt rest (i + 1) h1.2 i (by omega),
            Memory.find?_eq_none_of_lt rest' (i + 1) h2.2 i (by omega)]
        · have := h k
          simpa [Memory.find?, hk] using this
      rw [hr]

/-- Equal memories are equal data: two canonical arrays in which the same has been written are the same list. -/
theorem Memory.ext_of_wf {cap : Nat} {m m' : Memory w} (h : Memory.wf cap m = true) (h' : Memory.wf cap m' = true)
    (he : ∀ k, Memory.find? m k = Memory.find? m' k) : m = m' :=
  Memory.ext_sortedFrom m m' 0 h h' he

/-- The reset state's memories are in canonical form. -/
theorem resetWith_memoriesWf (c : Config) : (State.resetWith c).MemoriesWf := by
  constructor <;> rfl

/-- A port write inside the capacity of its array keeps every memory in canonical form. -/
theorem MemoriesWf_setElement {s : State} (h : s.MemoriesWf) {f : Field} {k : Nat} (v : Word)
    (hk : k < s.cfg.capacity f) : (s.setElement f k v).MemoriesWf := by
  cases f <;> constructor <;> simp only [State.setElement] <;>
    first
      | exact Memory.wf_write _ hk h.input
      | exact Memory.wf_write _ hk h.output
      | exact Memory.wf_write _ hk h.key
      | exact Memory.wf_write _ hk h.codeSym
      | exact Memory.wf_write _ hk h.codeLen
      | exact Memory.wf_write _ hk h.codeBase
      | exact Memory.wf_write _ hk h.cdig
      | exact Memory.wf_write _ hk h.treeLeft
      | exact Memory.wf_write _ hk h.treeRight
      | exact Memory.wf_write _ hk h.treeSym
      | exact Memory.wf_write _ hk h.treeLeaf
      | exact Memory.wf_write _ hk h.freqSym
      | exact Memory.wf_write _ hk h.freqCount
      | exact h.input
      | exact h.output
      | exact h.key
      | exact h.codeSym
      | exact h.codeLen
      | exact h.codeBase
      | exact h.cdig
      | exact h.treeLeft
      | exact h.treeRight
      | exact h.treeSym
      | exact h.treeLeaf
      | exact h.freqSym
      | exact h.freqCount

end Sys2Proof.Machine
end

