-- ==== Sys2Proof/Laws/Exec.lean ====
section
/-! SUPPORT. What the shared operations can do: the streams, the two ends of a command, and the inversion of
`finishOutput`. The provers cite these instead of unfolding the operations. -/

namespace Sys2Proof.Machine

open Sys2Proof

/-! ### STATUS -/

theorem statusWord_err (e : BitVec 8) : (statusWord e).extractLsb' 0 8 = e := by
  simp only [statusWord]
  ext i hi
  interval_cases i <;> simp

theorem statusWord_done (e : BitVec 8) : (statusWord e).getLsbD 8 = true := by
  simp [statusWord]

theorem statusWord_lt (e : BitVec 8) : (statusWord e).toNat < 2 ^ 9 := by
  have h : (e.setWidth 32).toNat < 2 ^ 9 := by
    simp only [BitVec.toNat_setWidth]
    omega
  simp only [statusWord, BitVec.toNat_or]
  exact Nat.or_lt_two_pow (by decide) h

/-! What STATUS reads after each error (R29, R230). -/

@[simp] theorem status_emptySource : statusWord ErrorKind.emptySource.code = 0x101#32 := by decide
@[simp] theorem status_missingCode : statusWord ErrorKind.missingCode.code = 0x102#32 := by decide
@[simp] theorem status_malformedPayload : statusWord ErrorKind.malformedPayload.code = 0x103#32 := by decide
@[simp] theorem status_invalidKey : statusWord ErrorKind.invalidKey.code = 0x104#32 := by decide
@[simp] theorem status_tableParse : statusWord ErrorKind.tableParse.code = 0x105#32 := by decide
@[simp] theorem status_capacity : statusWord ErrorKind.capacity.code = 0x107#32 := by decide
@[simp] theorem status_illegalCommand : statusWord ErrorKind.illegalCommand.code = 0x108#32 := by decide
@[simp] theorem status_treeFormat : statusWord ErrorKind.treeFormat.code = 0x109#32 := by decide
@[simp] theorem status_codeFormat : statusWord ErrorKind.codeFormat.code = 0x10A#32 := by decide

theorem code_ne_zero (k : ErrorKind) : k.code ≠ 0#8 := by cases k <;> decide

@[simp] theorem complete_err (s : State) : (complete s).err = 0#8 := statusWord_err _
@[simp] theorem complete_done (s : State) : (complete s).done = true := statusWord_done _
@[simp] theorem commitOutput_err (out : List Cell) (s : State) : (commitOutput out s).err = 0#8 := statusWord_err _
@[simp] theorem commitOutput_done (out : List Cell) (s : State) : (commitOutput out s).done = true :=
  statusWord_done _
@[simp] theorem commitTable_err (t : List (Cell × Word)) (w : Nat) (s : State) : (commitTable t w s).err = 0#8 :=
  statusWord_err _
@[simp] theorem commitTable_done (t : List (Cell × Word)) (w : Nat) (s : State) :
    (commitTable t w s).done = true := statusWord_done _
@[simp] theorem takeFault_err (c : FaultClass) (r : Raise) (s : State) : (takeFault c r s).err = r.kind.code := by
  simp only [State.err, takeFault_status]
  exact statusWord_err _
@[simp] theorem takeFault_done (c : FaultClass) (r : Raise) (s : State) : (takeFault c r s).done = true := by
  simp only [State.done, takeFault_status]
  exact statusWord_done _

theorem commitOutput_completed (out : List Cell) (s : State) : (commitOutput out s).Completed := ⟨rfl, rfl⟩
theorem commitTable_completed (t : List (Cell × Word)) (w : Nat) (s : State) : (commitTable t w s).Completed :=
  ⟨rfl, rfl⟩

/-! ### Streams -/

theorem input_length (s : State) : s.input.length = s.ilen.toNat := by simp [State.input]
theorem output_length (s : State) : s.output.length = s.olen.toNat := by simp [State.output]
theorem cipherInput_length (s : State) : s.cipherInput.length = s.ilen.toNat := by simp [State.cipherInput]
theorem table_length (s : State) : s.table.length = s.fcnt.toNat := by simp [State.table]
theorem payload_length (s : State) : s.payload.length = s.ilen.toNat := by
  unfold State.payload
  split
  · exact cipherInput_length s
  · exact input_length s

theorem toNat_ofNat_of_le {n k : Nat} (h : n ≤ k) (hk : k < 2 ^ 32) : (BitVec.ofNat 32 n).toNat = n := by
  simp only [BitVec.toNat_ofNat]
  omega

theorem commitOutput_outCell_lt (out : List Cell) (s : State) {k : Nat} (h : k < out.length) :
    (commitOutput out s).outCell k = out[k] := Memory.read_writeFrom_lt _ _ _ h

theorem commitOutput_outCell_ge (out : List Cell) (s : State) {k : Nat} (h : out.length ≤ k) :
    (commitOutput out s).outCell k = s.outCell k := Memory.read_writeFrom_ge _ _ _ h

/-- The committed stream is the last result. -/
theorem commitOutput_output (out : List Cell) (s : State) (h : out.length < 2 ^ 32) :
    (commitOutput out s).output = out := by
  apply List.ext_getElem
  · simpa [output_length] using h
  · intro k h1 h2
    simp only [State.output, List.getElem_map, List.getElem_range]
    exact commitOutput_outCell_lt out s h2

theorem commitTable_freqEntry_lt (t : List (Cell × Word)) (w : Nat) (s : State) {k : Nat} (h : k < t.length) :
    (commitTable t w s).freqEntry k = t[k] := by
  have h1 : k < (t.map Prod.fst).length := by simpa using h
  have h2 : k < (t.map Prod.snd).length := by simpa using h
  refine Prod.ext ?_ ?_
  · exact (Memory.read_writeFrom_lt _ _ _ h1).trans (List.getElem_map _)
  · exact (Memory.read_writeFrom_lt _ _ _ h2).trans (List.getElem_map _)

theorem commitTable_freqEntry_ge (t : List (Cell × Word)) (w : Nat) (s : State) {k : Nat} (h : t.length ≤ k) :
    (commitTable t w s).freqEntry k = s.freqEntry k := by
  have h1 : (t.map Prod.fst).length ≤ k := by simpa using h
  have h2 : (t.map Prod.snd).length ≤ k := by simpa using h
  refine Prod.ext ?_ ?_
  · exact Memory.read_writeFrom_ge _ _ _ h1
  · exact Memory.read_writeFrom_ge _ _ _ h2

/-- The committed table is the frequency table. -/
theorem commitTable_table (t : List (Cell × Word)) (w : Nat) (s : State) (h : t.length < 2 ^ 32) :
    (commitTable t w s).table = t := by
  apply List.ext_getElem
  · simpa [table_length] using h
  · intro k h1 h2
    simp only [State.table, List.getElem_map, List.getElem_range]
    exact commitTable_freqEntry_lt t w s h2

/-! ### Frames -/

theorem commitOutput_sameBut (out : List Cell) (s : State) :
    SameBut [.status, .errpos, .olen] [.output] s (commitOutput out s) := by
  refine ⟨rfl, rfl, rfl, rfl, fun r hr => ?_, fun f k hf => ?_⟩
  · cases r <;> first | rfl | simp at hr
  · cases f <;> first | rfl | simp at hf

theorem takeFault_output_sameBut (r : Raise) (s : State) :
    SameBut [.status, .errpos, .olen] [.output] s (takeFault .output r s) := by
  refine ⟨rfl, rfl, rfl, rfl, fun q hq => ?_, fun f k hf => ?_⟩
  · cases q <;> first | rfl | simp at hq
  · cases f <;> rfl

theorem commitTable_sameBut (t : List (Cell × Word)) (w : Nat) (s : State) :
    SameBut [.status, .errpos, .fcnt, .warn] [.freqSym, .freqCount] s (commitTable t w s) := by
  refine ⟨rfl, rfl, rfl, rfl, fun r hr => ?_, fun f k hf => ?_⟩
  · cases r <;> first | rfl | simp at hr
  · cases f <;> first | rfl | simp at hf

theorem takeFault_table_sameBut (w : Nat) (r : Raise) (s : State) :
    SameBut [.status, .errpos, .fcnt, .warn] [.freqSym, .freqCount] s (takeFault (.table w) r s) := by
  refine ⟨rfl, rfl, rfl, rfl, fun q hq => ?_, fun f k hf => ?_⟩
  · cases q <;> first | rfl | simp at hq
  · cases f <;> rfl

/-! ### The end of a command -/

theorem finishOutput_ok (out : List Cell) (s : State) : finishOutput (.ok out) s = .next (commitOutput out s) := rfl

theorem finishOutput_error (r : Raise) (s : State) :
    finishOutput (.error r) s = .next (s.outputFault (statusWord r.kind.code) r.pos) := rfl

/-- Everything ENC, DEC, XOR and FSER can do: commit the shadow, or take the fault. -/
theorem finishOutput_cases {shadow : Except Raise (List Cell)} {s t : State} (h : finishOutput shadow s = .next t) :
    (∃ out, shadow = .ok out ∧ t = commitOutput out s) ∨
    (∃ r, shadow = .error r ∧ t = takeFault .output r s) := by
  cases shadow with
  | ok out => exact .inl ⟨out, rfl, (Host.Outcome.next.inj h).symm⟩
  | error r => exact .inr ⟨r, rfl, (Host.Outcome.next.inj h).symm⟩

theorem finishOutput_total (shadow : Except Raise (List Cell)) (s : State) : ∃ t,
    finishOutput shadow s = .next t := by
  cases shadow <;> exact ⟨_, rfl⟩

/-- Everything FPARSE can do. -/
theorem execFparse_cases {s t : State} (h : execFparse s = .next t) :
    (∃ p, fparseShadow s = .ok p ∧ t = commitTable p.table p.warn s) ∨
    (∃ r w, fparseShadow s = .error (r, w) ∧ t = takeFault (.table w) r s) := by
  unfold execFparse at h
  cases hs : fparseShadow s with
  | ok p => rw [hs] at h; exact .inl ⟨p, rfl, (Host.Outcome.next.inj h).symm⟩
  | error e => rw [hs] at h; exact .inr ⟨e.1, e.2, rfl, (Host.Outcome.next.inj h).symm⟩

theorem execFparse_total (s : State) : ∃ t, execFparse s = .next t := by
  unfold execFparse
  cases fparseShadow s <;> exact ⟨_, rfl⟩

/-- The shadow behind each command with an output. -/
def outputShadow : Instr → State → Except Raise (List Cell)
  | .enc, s => encShadow s
  | .dec, s => decShadow s
  | .xor, s => xorShadow s
  | .fser, s => fserShadow s
  | .nop, _ => .ok []
  | .fparse, _ => .ok []

theorem exec_output {i : Instr} (hi : i ∈ [Instr.enc, Instr.dec, Instr.xor, Instr.fser]) (s : State) :
    exec i s = finishOutput (outputShadow i s) s := by
  cases i <;> first | rfl | simp at hi

end Sys2Proof.Machine
end

