-- ==== Sys2Proof/Laws/Cipher.lean ====
section
/-! SUPPORT. XOR's shadow, the committed stream, and the result moved to the input (42_xor R161, R162; R109 mvout). -/

namespace Sys2Proof.Machine

open Sys2Proof

/-- What a command with an output that succeeds leaves. -/
theorem finishOutput_next {out : List Cell} {s : State} (hb : out.length < 2^32) :
   ∃ t, finishOutput (.ok out) s = .next t ∧ t.Completed ∧ t.olen.toNat = out.length ∧ t.output = out ∧
     (∀ k, t.olen.toNat ≤ k → t.outCell k = s.outCell k) ∧ SameBut [.status, .errpos, .olen] [.output] s t := by
  refine ⟨_, rfl, commitOutput_completed _ _, by simpa using hb, commitOutput_output _ _ hb,
      fun k hk => commitOutput_outCell_ge _ _ ?_, commitOutput_sameBut _ _⟩
  rw [commitOutput_olen, BitVec.toNat_ofNat, Nat.mod_eq_of_lt hb] at hk
  exact hk

theorem xorShadow_ok {s : State} (h : s.klen ≠ 0#32) (h1 : s.klen.toNat ≤ s.cfg.nkey) (h2 : s.ilen.toNat ≤
    s.cfg.nin) (h3 : s.ilen.toNat ≤ s.cfg.nout) :
  xorShadow s = .ok s.cipherInput := by
  unfold xorShadow xorCheck
  rw [if_neg h, if_neg (Nat.not_lt.2 h1), if_neg (Nat.not_lt.2 h2), if_neg (Nat.not_lt.2 h3)]

/-- Everything XOR's shadow can be. -/
theorem xorShadow_cases (s : State) : (∃ r, xorShadow s = .error r ∧
    (r.kind = .invalidKey ∨ r.kind = .capacity)) ∨ (xorShadow s = .ok s.cipherInput ∧ s.klen ≠ 0#32 ∧
    s.klen.toNat ≤ s.cfg.nkey ∧ s.ilen.toNat ≤ s.cfg.nin ∧ s.ilen.toNat ≤ s.cfg.nout) := by
  unfold xorShadow xorCheck
  by_cases h : s.klen = 0#32
  · simp [h]
  by_cases h1 : s.cfg.nkey < s.klen.toNat
  · simp [h, h1]
  by_cases h2 : s.cfg.nin < s.ilen.toNat
  · simp [h, h1, h2]
  by_cases h3 : s.cfg.nout < s.ilen.toNat
  · simp [h, h1, h2, h3]
  · right
    simp only [h, h1, h2, h3, if_false]
    refine ⟨trivial, h, ?_⟩
    omega

theorem xorShadow_length {s : State} {out : List Cell} (h : xorShadow s = .ok out) :
    out.length = s.ilen.toNat ∧ out.length ≤ s.cfg.nout := by
  rcases xorShadow_cases s with ⟨r, h1, _⟩ | ⟨h1, _, _, _, h2⟩
  · rw [h] at h1; cases h1
  · rw [h] at h1
    cases h1
    rw [cipherInput_length]
    exact ⟨rfl, h2⟩

/-! ### The result moved to the input -/

theorem movedOut_inCell (s : State) {i : Nat} (h : i < s.olen.toNat) : s.movedOut.inCell i = s.outCell i := by
  have h1 : i < s.output.length := by rw [output_length]; exact h
  have := Memory.read_writeFrom_lt s.inMem (s.free .input) s.output h1
  show Memory.read (Memory.writeFrom s.inMem 0 s.output) (s.free .input) i = _
  rw [this]; simp [State.output]

theorem movedOut_input (s : State) : s.movedOut.input = s.output := by
  simp only [State.input, State.output, movedOut_ilen]
  apply List.map_congr_left
  intro i hi
  exact movedOut_inCell s (List.mem_range.1 hi)

end Sys2Proof.Machine
end

