-- ==== Sys2Proof/Laws/Encode.lean ====
section
/-! SUPPORT. What ENC's step, loop and shadow can do (40_encode R131 to R133). -/

namespace Sys2Proof.Machine

open Sys2Proof

theorem encCheck_eq_none {s : State} : encCheck s = none ↔
    s.ilen.toNat ≤ s.cfg.nin ∧ s.ccnt.toNat ≤ s.cfg.ncode ∧ s.ilen ≠ 0#32 := by
  unfold encCheck
  split
  · simp; omega
  · split
    · simp; omega
    · split
      · simp_all
      · simp_all

theorem encCheck_kind {s : State} {r : Raise} (h : encCheck s = some r) :
    r.kind = .capacity ∨ r.kind = .emptySource := by
  unfold encCheck at h
  split at h
  · cases h; exact .inl rfl
  · split at h
    · cases h; exact .inl rfl
    · split at h
      · cases h; exact .inr rfl
      · cases h

theorem codeDigits_length (s : State) (j : Nat) : (s.codeDigits j).length = (s.codeEntry j).len.toNat := by
  simp [State.codeDigits]

/-- Everything one character can do: its code is appended, or one of the three faults at its index. -/
theorem encStep_cases (s : State) (i : Nat) (sym : Cell) (out : List Cell) :
    (s.lookup sym = none ∧ encStep s i sym out = .error { kind := .missingCode, pos := i }) ∨
    ∃ j, s.lookup sym = some j ∧
      ((s.cfg.ncdig < (s.codeEntry j).base.toNat + (s.codeEntry j).len.toNat ∧
          encStep s i sym out = .error { kind := .codeFormat, pos := i }) ∨
        ((s.codeEntry j).base.toNat + (s.codeEntry j).len.toNat ≤ s.cfg.ncdig ∧
          ((s.cfg.nout < out.length + (s.codeEntry j).len.toNat ∧
              encStep s i sym out = .error { kind := .capacity, pos := i }) ∨
            (out.length + (s.codeEntry j).len.toNat ≤ s.cfg.nout ∧
              encStep s i sym out = .ok (out ++ (s.codeDigits j).map bitCell))))) := by
  cases h : s.lookup sym with
  | none => exact .inl ⟨rfl, by simp [encStep, h]⟩
  | some j =>
    refine .inr ⟨j, rfl, ?_⟩
    rcases Nat.lt_or_ge s.cfg.ncdig ((s.codeEntry j).base.toNat + (s.codeEntry j).len.toNat) with h1 | h1
    · exact .inl ⟨h1, by simp [encStep, h, h1]⟩
    · refine .inr ⟨h1, ?_⟩
      rcases Nat.lt_or_ge s.cfg.nout (out.length + (s.codeEntry j).len.toNat) with h2 | h2
      · exact .inl ⟨h2, by simp [encStep, h, Nat.not_lt.2 h1, h2]⟩
      · exact .inr ⟨h2, by simp [encStep, h, Nat.not_lt.2 h1, Nat.not_lt.2 h2]⟩

theorem encFrom_cons_ok {s : State} {i : Nat} {sym : Cell} {text out out' : List Cell}
    (h : encStep s i sym out = .ok out') : encFrom s i (sym :: text) out = encFrom s (i + 1) text out' := by
  simp [encFrom, h]

theorem encFrom_cons_error {s : State} {i : Nat} {sym : Cell} {text out : List Cell} {r : Raise}
    (h : encStep s i sym out = .error r) : encFrom s i (sym :: text) out = .error r := by
  simp [encFrom, h]

/-- The loop over a text in two parts. -/
theorem encFrom_append (s : State) (a b : List Cell) : ∀ (i : Nat) (out : List Cell),
    encFrom s i (a ++ b) out =
      match encFrom s i a out with
      | .error r => .error r
      | .ok out' => encFrom s (i + a.length) b out' := by
  induction a with
  | nil => intro i out; simp [encFrom]
  | cons c a ih =>
    intro i out
    cases h : encStep s i c out with
    | error r => simp [encFrom, h]
    | ok out' =>
      simp only [List.cons_append, encFrom, h, ih, List.length_cons]
      rw [show i + 1 + a.length = i + (a.length + 1) by omega]

/-- The loop on a text whose characters all have codes that fit: the codes, one after another. -/
theorem encFrom_ok (s : State) (entry : Cell → Nat) (text : List Cell) : ∀ (i : Nat) (out : List Cell),
    (∀ c ∈ text, s.lookup c = some (entry c) ∧
      (s.codeEntry (entry c)).base.toNat + (s.codeEntry (entry c)).len.toNat ≤ s.cfg.ncdig) →
    out.length + (text.map fun c => (s.codeEntry (entry c)).len.toNat).sum ≤ s.cfg.nout →
    encFrom s i text out = .ok (out ++ (text.map fun c => (s.codeDigits (entry c)).map bitCell).flatten) := by
  induction text with
  | nil => intro i out _ _; simp [encFrom]
  | cons c text ih =>
    intro i out h hn
    simp only [List.map_cons, List.sum_cons] at hn
    obtain ⟨h1, h2⟩ := h c (by simp)
    have h3 : encStep s i c out = .ok (out ++ (s.codeDigits (entry c)).map bitCell) := by
      have h4 : ¬s.cfg.nout < out.length + (s.codeEntry (entry c)).len.toNat := by omega
      simp [encStep, h1, Nat.not_lt.2 h2, h4]
    rw [encFrom_cons_ok h3, ih _ _ (fun d hd => h d (by simp [hd]))]
    · simp
    · simp only [List.length_append, List.length_map, codeDigits_length]
      omega

/-- The same over the positions of IN: the entries of characters i0, i0 + 1, ... -/
theorem encFrom_range (s : State) (j : Nat → Nat) (n : Nat) : ∀ (i0 : Nat) (out : List Cell),
  (∀ i < n, s.lookup (s.inCell (i0 + i)) = some (j (i0+i)) ∧
      (s.codeEntry (j (i0+i))).base.toNat + (s.codeEntry (j (i0+i))).len.toNat ≤ s.cfg.ncdig) →
  out.length + ((List.range n).map fun i => (s.codeEntry (j (i0+i))).len.toNat).sum ≤ s.cfg.nout →
  encFrom s i0 ((List.range n).map fun i => s.inCell (i0 + i)) out =
      .ok (out ++ ((List.range n).map fun i => (s.codeDigits (j (i0+i))).map bitCell).flatten) := by
  induction n with
  | zero => intro i0 out _ _; simp [encFrom]
  | succ n ih =>
    intro i0 out h hl
    rw [List.range_succ_eq_map] at *
    simp only [List.map_cons, List.map_map, Function.comp_def, List.sum_cons, Nat.add_zero, Nat.succ_eq_add_one,
        List.flatten_cons] at *
    obtain ⟨h1, h2⟩ := h 0 (by omega)
    simp only [Nat.add_zero] at h1 h2
    rcases encStep_cases s i0 (s.inCell i0) out with ⟨h3, _⟩ | ⟨k, h3, ⟨h4, _⟩ | ⟨_, ⟨h4, _⟩ | ⟨_, h4⟩⟩⟩
    · rw [h1] at h3; cases h3
    · rw [h1] at h3; cases h3; omega
    · rw [h1] at h3; cases h3; omega
    · rw [h1] at h3; cases h3
      rw [encFrom_cons_ok h4]
      have hs : ∀ i, i0 + 1 + i = i0 + (i + 1) := fun i => by omega
      have := ih (i0 + 1) (out ++ (s.codeDigits (j i0)).map bitCell)
        (fun i hi => hs i ▸ h (i + 1) (by omega))
        (by
          simp only [List.length_append, List.length_map, codeDigits_length, hs]
          omega)
      simp only [hs] at this
      rw [this]; simp

/-- A text that was encoded: every character had a code, and the shadow is the codes one after another. -/
theorem encFrom_ok_inv (s : State) (text : List Cell) : ∀ (i : Nat) (out res : List Cell),
    encFrom s i text out = .ok res → out.length ≤ s.cfg.nout →
    res.length ≤ s.cfg.nout ∧
    ∃ js : List Nat, text.map s.lookup = js.map some ∧
      (∀ j ∈ js, (s.codeEntry j).base.toNat + (s.codeEntry j).len.toNat ≤ s.cfg.ncdig) ∧
      res = out ++ (js.map fun j => (s.codeDigits j).map bitCell).flatten := by
  induction text with
  | nil =>
    intro i out res h hn
    cases h
    exact ⟨hn, [], by simp⟩
  | cons c text ih =>
    intro i out res h hn
    rcases encStep_cases s i c out with ⟨_, h2⟩ | ⟨j, h1, ⟨_, h2⟩ | ⟨h3, ⟨_, h2⟩ | ⟨h4, h2⟩⟩⟩
    · rw [encFrom_cons_error h2] at h; cases h
    · rw [encFrom_cons_error h2] at h; cases h
    · rw [encFrom_cons_error h2] at h; cases h
    · rw [encFrom_cons_ok h2] at h
      obtain ⟨h5, js, h6, h7, h8⟩ := ih _ _ _ h (by simpa [codeDigits_length] using h4)
      refine ⟨h5, j :: js, by simp [h1, h6], ?_, by simp [h8]⟩
      intro k hk
      rcases List.mem_cons.1 hk with rfl | hk
      · exact h3
      · exact h7 k hk

theorem encFrom_error_kind (s : State) (text : List Cell) : ∀ (i : Nat) (out : List Cell) (r : Raise),
    encFrom s i text out = .error r →
    (r.kind = .missingCode ∨ r.kind = .codeFormat ∨ r.kind = .capacity) ∧ i ≤ r.pos ∧ r.pos < i + text.length := by
  induction text with
  | nil => intro i out r h; cases h
  | cons c text ih =>
    intro i out r h
    rcases encStep_cases s i c out with ⟨_, h2⟩ | ⟨j, h1, ⟨_, h2⟩ | ⟨h3, ⟨_, h2⟩ | ⟨h4, h2⟩⟩⟩
    · rw [encFrom_cons_error h2] at h; cases h; simp
    · rw [encFrom_cons_error h2] at h; cases h; simp
    · rw [encFrom_cons_error h2] at h; cases h; simp
    · rw [encFrom_cons_ok h2] at h
      obtain ⟨h5, h6, h7⟩ := ih _ _ _ h
      refine ⟨h5, by omega, ?_⟩
      simp only [List.length_cons]
      omega

/-- Everything ENC's shadow can be. -/
theorem encShadow_cases (s : State) :
    (∃ out, encShadow s = .ok out ∧ encCheck s = none ∧ encFrom s 0 s.input [] = .ok out ∧ out.length ≤ s.cfg.nout) ∨
    (∃ r, encShadow s = .error r ∧
      (r.kind = .emptySource ∨ r.kind = .missingCode ∨ r.kind = .codeFormat ∨ r.kind = .capacity)) := by
  unfold encShadow
  cases hc : encCheck s with
  | some r =>
    refine .inr ⟨r, rfl, ?_⟩
    rcases encCheck_kind hc with h | h <;> simp [h]
  | none =>
    cases hf : encFrom s 0 s.input [] with
    | ok out => exact .inl ⟨out, rfl, rfl, rfl, (encFrom_ok_inv s _ _ _ _ hf (by simp)).1⟩
    | error r => exact .inr ⟨r, rfl, .inr (encFrom_error_kind s _ _ _ _ hf).1⟩

end Sys2Proof.Machine
end

