-- ==== Sys2Proof/Laws/FreqTable.lean ====
section
/-! SUPPORT. What the parts of FPARSE and FSER do: the lines, the table, the loop, the record text
(43_freqtable R171 to R188). -/

namespace Sys2Proof.Machine

open Sys2Proof

/-! ### Lines (R171) -/

/-- A record has no more lines than cells. -/
theorem linesFrom_length (cells : List Cell) : ∀ (start pos : Nat) (line : List Cell), start ≤ pos →
    (linesFrom start pos line cells).length ≤ cells.length + (pos - start) := by
  induction cells with
  | nil =>
    intro start pos line _
    by_cases h1 : start < pos
    · simp only [linesFrom, h1, if_true, List.length_cons, List.length_nil]; omega
    · simp [linesFrom, h1]
  | cons c cells ih =>
    intro start pos line h
    by_cases hc : c = chNL
    · have := ih (pos + 1) (pos + 1) [] (by omega)
      simp only [linesFrom, hc, if_true, List.length_cons]
      omega
    · have := ih start (pos + 1) (line ++ [c]) (by omega)
      simp only [linesFrom, hc, if_false, List.length_cons]
      omega

theorem recordLines_length (text : List Cell) : (recordLines text).length ≤ text.length :=
  linesFrom_length text 0 0 [] (Nat.le_refl 0)

/-- The cells up to a newline close the current line. -/
theorem linesFrom_line (l rest : List Cell) : ∀ (start pos : Nat) (acc : List Cell), chNL ∉ l →
    linesFrom start pos acc (l ++ chNL :: rest) =
      (start, acc ++ l) :: linesFrom (pos + l.length + 1) (pos + l.length + 1) [] rest := by
  induction l with
  | nil => intro start pos acc _; simp [linesFrom]
  | cons c l ih =>
    intro start pos acc h
    simp only [List.mem_cons, not_or] at h
    have hc : ¬c = chNL := fun e => h.1 e.symm
    rw [List.cons_append, linesFrom, if_neg hc, ih _ _ _ h.2]
    simp only [List.append_assoc, List.singleton_append, List.length_cons]
    rw [show pos + 1 + l.length + 1 = pos + (l.length + 1) + 1 by omega]

/-- Cells with no newline make the last line, if there is a cell. -/
theorem linesFrom_last (l : List Cell) : ∀ (start pos : Nat) (acc : List Cell), chNL ∉ l →
    linesFrom start pos acc l = if start < pos + l.length then [(start, acc ++ l)] else [] := by
  induction l with
  | nil => intro start pos acc _; simp [linesFrom]
  | cons c l ih =>
    intro start pos acc h
    simp only [List.mem_cons, not_or] at h
    have hc : ¬c = chNL := fun e => h.1 e.symm
    rw [linesFrom, if_neg hc, ih _ _ _ h.2]
    simp only [List.append_assoc, List.singleton_append, List.length_cons]
    rw [show pos + 1 + l.length = pos + (l.length + 1) by omega]

/-! ### Fields of a line (R173, R176) -/

theorem splitColon_token (token count : List Cell) (h : chColon ∉ token) : splitColon (token ++ chColon :: count) =
    some (token, count) := by
  induction token with
  | nil => simp [splitColon]
  | cons c t ih =>
    simp only [List.mem_cons, not_or] at h
    have : ¬ c = chColon := fun e => h.1 e.symm
    simp [splitColon, this, ih h.2]

theorem splitColon_none (l : List Cell) (h : chColon ∉ l) : splitColon l = none := by
  induction l with
  | nil => rfl
  | cons c t ih =>
    simp only [List.mem_cons, not_or] at h
    have : ¬ c = chColon := fun e => h.1 e.symm
    simp [splitColon, this, ih h.2]

theorem decimalValue_append (a : List Cell) (c : Cell) : decimalValue (a ++ [c]) =
    10 * decimalValue a + (c.toNat - 0x30) := by
  simp only [decimalValue, List.foldl_append, List.foldl_cons, List.foldl_nil]
  rfl

theorem digitCell_toNat {d : Nat} (h : d < 10) : (digitCell d).toNat = 0x30 + d := by
  interval_cases d <;> rfl

/-! ### The table (R178) -/

theorem replaceCount_eq_none (sym : Cell) (count : Word) (t : List (Cell × Word)) :
    replaceCount sym count t = none ↔ sym ∉ t.map Prod.fst := by
  induction t with
  | nil => simp [replaceCount]
  | cons e rest ih =>
    obtain ⟨x, v⟩ := e
    by_cases h : x = sym
    · simp [replaceCount, h]
    · have h' : ¬sym = x := fun e => h e.symm
      simp only [replaceCount, h, if_false, Option.map_eq_none_iff, ih, List.map_cons, List.mem_cons, h', false_or]

/-- A replaced count: the same symbols in the same places, the new count found for the symbol, every other
symbol's as it was. -/
theorem replaceCount_some {sym : Cell} {count : Word} {t : List (Cell × Word)} : ∀ {t' : List (Cell × Word)},
    replaceCount sym count t = some t' →
    sym ∈ t.map Prod.fst ∧ t'.map Prod.fst = t.map Prod.fst ∧
      ∀ k, t'.find? (fun x => x.1 == k) = if k = sym then some (sym, count) else t.find? (fun x => x.1 == k) := by
  induction t with
  | nil => intro t' h; cases h
  | cons e rest ih =>
    obtain ⟨x, v⟩ := e
    intro t' h
    by_cases hx : x = sym
    · subst hx
      simp only [replaceCount, if_true, Option.some.injEq] at h
      subst h
      refine ⟨by simp, by simp, fun k => ?_⟩
      by_cases hk : k = x
      · simp [hk]
      · have hk' : ¬x = k := fun e => hk e.symm
        simp [hk, hk']
    · simp only [replaceCount, hx, if_false, Option.map_eq_some_iff] at h
      obtain ⟨r, hr, rfl⟩ := h
      obtain ⟨h1, h2, h3⟩ := ih hr
      refine ⟨by simp only [List.map_cons, List.mem_cons]; exact .inr h1, by simp [h2], fun k => ?_⟩
      by_cases hk : x = k
      · subst hk
        simp [hx]
      · have hk' : (x == k) = false := by simpa using hk
        simp only [List.find?_cons, hk', h3]

/-- Everything an insertion can do: replace in place, append, or find the table full. -/
theorem insertEntry_cases (nfreq a : Nat) (sym : Cell) (count : Word) (t : List (Cell × Word)) :
    (∃ t', insertEntry nfreq a sym count t = .ok t' ∧ sym ∈ t.map Prod.fst ∧ t'.map Prod.fst = t.map Prod.fst ∧
      ∀ k, t'.find? (fun x => x.1 == k) = if k = sym then some (sym, count) else t.find? (fun x => x.1 == k)) ∨
    (sym ∉ t.map Prod.fst ∧
      ((t.length < nfreq ∧ insertEntry nfreq a sym count t = .ok (t ++ [(sym, count)])) ∨
        (nfreq ≤ t.length ∧ insertEntry nfreq a sym count t = .error { kind := .capacity, pos := a }))) := by
  cases h : replaceCount sym count t with
  | some t' => exact .inl ⟨t', by simp [insertEntry, h], replaceCount_some h⟩
  | none =>
    refine .inr ⟨(replaceCount_eq_none sym count t).1 h, ?_⟩
    rcases Nat.lt_or_ge t.length nfreq with h1 | h1
    · exact .inl ⟨h1, by simp [insertEntry, h, Nat.not_le.2 h1]⟩
    · exact .inr ⟨h1, by simp [insertEntry, h, h1]⟩

/-! ### Each symbol once, in order of first appearance -/

theorem eraseDups_absorb (xs ys : List Cell) : (xs.eraseDups ++ ys).eraseDups = (xs ++ ys).eraseDups := by
  have h1 : ∀ n, ∀ l : List Cell, l.length ≤ n → l.eraseDups.eraseDups = l.eraseDups := by
    intro n
    induction n with
    | zero => intro l h; simp [List.eq_nil_of_length_eq_zero (Nat.le_zero.1 h)]
    | succ n ih =>
      intro l h
      cases l with
      | nil => rfl
      | cons a l =>
        simp only [List.length_cons, Nat.add_le_add_iff_right] at h
        have h2 : (l.filter fun b => !b == a).length ≤ n := Nat.le_trans (List.length_filter_le _ _) h
        rw [List.eraseDups_cons, List.eraseDups_cons]
        congr 1
        have h3 : ((l.filter fun b => !b == a).eraseDups.filter fun b => !b == a) =
            (l.filter fun b => !b == a).eraseDups := by
          rw [List.filter_eq_self]
          intro b hb
          rw [List.mem_eraseDups, List.mem_filter] at hb
          exact hb.2
        rw [h3, ih _ h2]
  rw [List.eraseDups_append, List.eraseDups_append, h1 _ xs (Nat.le_refl _)]
  have h4 : ys.removeAll xs.eraseDups = ys.removeAll xs := by
    unfold List.removeAll
    apply List.filter_congr
    intro y _
    simp [List.mem_eraseDups]
  rw [h4]

theorem eraseDups_of_nodup {l : List Cell} (h : l.Nodup) : l.eraseDups = l := by
  induction l with
  | nil => rfl
  | cons a l ih =>
    rw [List.nodup_cons] at h
    have h1 : (l.filter fun b => !b == a) = l := by
      rw [List.filter_eq_self]
      intro b hb
      have : b ≠ a := fun e => h.1 (e ▸ hb)
      simp [this]
    rw [List.eraseDups_cons, h1, ih h.2]

theorem nodup_eraseDups : ∀ (n : Nat) (l : List Cell), l.length ≤ n → l.eraseDups.Nodup := by
  intro n
  induction n with
  | zero => intro l h; simp [List.eq_nil_of_length_eq_zero (Nat.le_zero.1 h)]
  | succ n ih =>
    intro l h
    cases l with
    | nil => simp
    | cons a l =>
      simp only [List.length_cons, Nat.add_le_add_iff_right] at h
      rw [List.eraseDups_cons, List.nodup_cons]
      refine ⟨?_, ih _ (Nat.le_trans (List.length_filter_le _ _) h)⟩
      rw [List.mem_eraseDups, List.mem_filter]
      simp

theorem eraseDups_length_le (xs ys : List Cell) : xs.eraseDups.length ≤ (xs ++ ys).eraseDups.length := by
  simp [List.eraseDups_append]

/-! ### The loop over the lines (R170, R177) -/

theorem parseLines_cons_ok {nfreq : Nat} {line : Nat × List Cell} {lines : List (Nat × List Cell)} {p p' : Parse}
    (h : parseLine nfreq line p = .ok p') : parseLines nfreq (line :: lines) p = parseLines nfreq lines p' := by
  simp [parseLines, h]

theorem parseLines_cons_error {nfreq : Nat} {line : Nat × List Cell} {lines : List (Nat × List Cell)} {p : Parse}
    {r : Raise} (h : parseLine nfreq line p = .error r) : parseLines nfreq (line :: lines) p = .error r := by
  simp [parseLines, h]

/-- The loop over the lines in two parts. -/
theorem parseLines_append (nfreq : Nat) (a b : List (Nat × List Cell)) : ∀ p : Parse,
    parseLines nfreq (a ++ b) p =
      match parseLines nfreq a p with
      | .error r => .error r
      | .ok p' => parseLines nfreq b p' := by
  induction a with
  | nil => intro p; simp [parseLines]
  | cons line a ih =>
    intro p
    cases h : parseLine nfreq line p with
    | error r => simp [parseLines, h]
    | ok p' => simp only [List.cons_append, parseLines, h, ih]

/-- Everything one line can do: it adds its warning, and its entry if it has one, or the table is full. -/
theorem parseLine_cases (nfreq : Nat) (line : Nat × List Cell) (p : Parse) :
    (∃ p', parseLine nfreq line p = .ok p' ∧ p'.warn = p.warn + linesSkipped [line] ∧
      (p.table.length ≤ nfreq → p'.table.length ≤ nfreq) ∧
      ((p.table.map Prod.fst).Nodup → p'.table.map Prod.fst =
        (p.table.map Prod.fst ++ (lineEntries [line]).map Prod.fst).eraseDups) ∧
      ∀ k, p'.table.find? (fun x => x.1 == k) =
        ((lineEntries [line]).reverse ++ p.table).find? (fun x => x.1 == k)) ∨
    (∃ sym count, lineVerdict line.2 = .entry sym count ∧ sym ∉ p.table.map Prod.fst ∧ nfreq ≤ p.table.length ∧
      parseLine nfreq line p = .error { kind := .capacity, pos := line.1 }) := by
  cases hv : lineVerdict line.2 with
  | blank =>
    refine .inl ⟨p, by simp [parseLine, hv], by simp [linesSkipped, hv], id, fun hn => ?_, fun k => ?_⟩
    · simp [lineEntries, hv, eraseDups_of_nodup hn]
    · simp [lineEntries, hv]
  | skipped =>
    refine .inl ⟨{ p with warn := p.warn + 1 }, by simp [parseLine, hv], by simp [linesSkipped, hv], id,
        fun hn => ?_, fun k => ?_⟩
    · simp [lineEntries, hv, eraseDups_of_nodup hn]
    · simp [lineEntries, hv]
  | entry sym count =>
    rcases insertEntry_cases nfreq line.1 sym count p.table with ⟨t', h1, h2, h3, h4⟩ | ⟨h1, ⟨h2, h3⟩ | ⟨h2, h3⟩⟩
    · refine .inl ⟨{ p with table := t' }, by simp [parseLine, hv, h1], by simp [linesSkipped, hv], ?_, ?_, ?_⟩
      · intro h
        have := congrArg List.length h3
        simp only [List.length_map] at this
        rw [this]
        exact h
      · intro hn
        simp only [lineEntries, List.filterMap_cons, List.filterMap_nil, hv, List.map_cons, List.map_nil]
        rw [h3, List.eraseDups_append, eraseDups_of_nodup hn]
        have : [sym].removeAll (p.table.map Prod.fst) = [] := by
          unfold List.removeAll
          rw [List.filter_eq_nil_iff]
          intro a ha
          rw [List.mem_singleton.1 ha]
          simpa [List.elem_eq_mem] using h2
        rw [this]
        simp
      · intro k
        simp only [lineEntries, List.filterMap_cons, List.filterMap_nil, hv, List.reverse_singleton,
          List.singleton_append, List.find?_cons, h4]
        by_cases hk : k = sym
        · simp [hk]
        · have hk' : (sym == k) = false := by simpa using fun e : sym = k => hk e.symm
          simp [hk, hk']
    · refine .inl ⟨{ p with table := p.table ++ [(sym, count)] }, by simp [parseLine, hv, h3],
        by simp [linesSkipped, hv], ?_, ?_, ?_⟩
      · intro _
        simp only [List.length_append, List.length_singleton]
        omega
      · intro hn
        have hn' : (p.table.map Prod.fst ++ [sym]).Nodup := by
          rw [List.nodup_append]
          refine ⟨hn, by simp, ?_⟩
          intro a ha b hb
          rw [List.mem_singleton.1 hb]
          exact fun e => h1 (e ▸ ha)
        simp [lineEntries, hv, eraseDups_of_nodup hn']
      · intro k
        simp only [lineEntries, List.filterMap_cons, List.filterMap_nil, hv, List.reverse_singleton,
          List.singleton_append, List.find?_append, List.find?_cons, List.find?_nil]
        by_cases hk : k = sym
        · have hf : p.table.find? (fun x => x.1 == k) = none := by
            rw [List.find?_eq_none]
            intro x hx he
            rw [beq_iff_eq, hk] at he
            exact h1 (he ▸ List.mem_map_of_mem hx)
          rw [hf]
          simp [hk]
        · have hk' : (sym == k) = false := by simpa using fun e : sym = k => hk e.symm
          simp [hk']
    · exact .inr ⟨sym, count, rfl, h1, h2, by simp [parseLine, hv, h3]⟩

theorem lineEntries_cons (line : Nat × List Cell) (lines : List (Nat × List Cell)) :
    lineEntries (line :: lines) = lineEntries [line] ++ lineEntries lines := by
  rw [show line :: lines = [line] ++ lines from rfl]
  exact List.filterMap_append

theorem linesSkipped_cons (line : Nat × List Cell) (lines : List (Nat × List Cell)) :
    linesSkipped (line :: lines) = linesSkipped [line] + linesSkipped lines := by
  unfold linesSkipped
  rw [show line :: lines = [line] ++ lines from rfl, List.filter_append, List.length_append]

/-- What the loop leaves when it raises nothing. -/
theorem parseLines_ok {nfreq : Nat} (lines : List (Nat × List Cell)) : ∀ {p p' : Parse},
    parseLines nfreq lines p = .ok p' → (p.table.map Prod.fst).Nodup →
    p'.warn = p.warn + linesSkipped lines ∧
    (p.table.length ≤ nfreq → p'.table.length ≤ nfreq) ∧
    p'.table.map Prod.fst = (p.table.map Prod.fst ++ (lineEntries lines).map Prod.fst).eraseDups ∧
    ∀ k, p'.table.find? (fun x => x.1 == k) =
      ((lineEntries lines).reverse ++ p.table).find? (fun x => x.1 == k) := by
  induction lines with
  | nil =>
    intro p p' h hn
    cases h
    exact ⟨by simp [linesSkipped], id, by simp [lineEntries, eraseDups_of_nodup hn], by simp [lineEntries]⟩
  | cons line lines ih =>
    intro p p' h hn
    rcases parseLine_cases nfreq line p with ⟨q, h1, h2, h3, h4, h5⟩ | ⟨_, _, _, _, _, h1⟩
    · rw [parseLines_cons_ok h1] at h
      have hq : (q.table.map Prod.fst).Nodup := by
        rw [h4 hn]
        exact nodup_eraseDups _ _ (Nat.le_refl _)
      obtain ⟨i1, i2, i3, i4⟩ := ih h hq
      refine ⟨by rw [i1, h2, linesSkipped_cons line lines]; omega, fun hl => i2 (h3 hl), ?_, fun k => ?_⟩
      · rw [i3, h4 hn, eraseDups_absorb, lineEntries_cons line lines, List.map_append, List.append_assoc]
      · rw [i4, List.find?_append, h5, lineEntries_cons line lines, List.reverse_append, List.append_assoc,
          List.find?_append (xs := (lineEntries lines).reverse)]
    · rw [parseLines_cons_error h1] at h
      cases h

/-- The loop raises nothing when the distinct symbols fit the table. -/
theorem parseLines_fits {nfreq : Nat} (lines : List (Nat × List Cell)) : ∀ {p : Parse},
    (p.table.map Prod.fst).Nodup →
    (p.table.map Prod.fst ++ (lineEntries lines).map Prod.fst).eraseDups.length ≤ nfreq →
    ∃ p', parseLines nfreq lines p = .ok p' := by
  induction lines with
  | nil => intro p _ _; exact ⟨p, rfl⟩
  | cons line lines ih =>
    intro p hn hl
    rw [lineEntries_cons line lines, List.map_append, ← List.append_assoc] at hl
    rcases parseLine_cases nfreq line p with ⟨q, h1, h2, h3, h4, h5⟩ | ⟨sym, count, hv, hs, hf, h1⟩
    · rw [parseLines_cons_ok h1]
      refine ih ?_ ?_
      · rw [h4 hn]
        exact nodup_eraseDups _ _ (Nat.le_refl _)
      · rw [h4 hn, eraseDups_absorb]
        exact hl
    · have h6 := Nat.le_trans (eraseDups_length_le _ _) hl
      have hn' : (p.table.map Prod.fst ++ [sym]).Nodup := by
        rw [List.nodup_append]
        refine ⟨hn, by simp, ?_⟩
        intro a ha b hb
        rw [List.mem_singleton.1 hb]
        exact fun e => hs (e ▸ ha)
      rw [show (lineEntries [line]).map Prod.fst = [sym] by simp [lineEntries, hv], eraseDups_of_nodup hn'] at h6
      simp only [List.length_append, List.length_map, List.length_singleton] at h6
      omega

/-- The loop's one fault: the table is full, at the start of a line. -/
theorem parseLines_error {nfreq : Nat} (lines : List (Nat × List Cell)) : ∀ {p : Parse} {r : Raise},
    parseLines nfreq lines p = .error r → r.kind = .capacity ∧ r.pos ∈ lines.map Prod.fst := by
  induction lines with
  | nil => intro p r h; cases h
  | cons line lines ih =>
    intro p r h
    rcases parseLine_cases nfreq line p with ⟨q, h1, _⟩ | ⟨_, _, _, _, _, h1⟩
    · rw [parseLines_cons_ok h1] at h
      obtain ⟨h2, h3⟩ := ih h
      exact ⟨h2, by simp only [List.map_cons, List.mem_cons]; exact .inr h3⟩
    · rw [parseLines_cons_error h1] at h
      cases h
      exact ⟨rfl, by simp⟩

theorem linesSkipped_le (lines : List (Nat × List Cell)) : linesSkipped lines ≤ lines.length :=
  List.length_filter_le _ _

/-- Everything FPARSE's shadow can be. -/
theorem fparseShadow_cases (s : State) :
    (∃ p, fparseShadow s = .ok p ∧ s.ilen.toNat ≤ s.cfg.nin ∧
      parseLines s.cfg.nfreq (recordLines s.input) { table := [], warn := 0 } = .ok p ∧
      1 ≤ p.table.length ∧ p.table.length ≤ s.cfg.nfreq ∧ p.warn = recordSkipped s.input ∧
      p.warn ≤ s.ilen.toNat ∧ p.table.map Prod.fst = firstSymbols (recordEntries s.input)) ∨
    (∃ r, fparseShadow s = .error (r, 0) ∧ r.kind = .capacity) ∨
    (fparseShadow s = .error ({ kind := .tableParse, pos := s.ilen.toNat }, recordSkipped s.input) ∧
      s.ilen.toNat ≤ s.cfg.nin ∧ recordSkipped s.input ≤ s.ilen.toNat ∧ recordEntries s.input = []) := by
  have hw : recordSkipped s.input ≤ s.ilen.toNat :=
    Nat.le_trans (linesSkipped_le _) (by simpa [input_length] using recordLines_length s.input)
  unfold fparseShadow
  rcases Nat.lt_or_ge s.cfg.nin s.ilen.toNat with h | h
  · exact .inr (.inl ⟨_, if_pos h, rfl⟩)
  rw [if_neg (Nat.not_lt.2 h)]
  cases hp : parseLines s.cfg.nfreq (recordLines s.input) { table := [], warn := 0 } with
  | error r => exact .inr (.inl ⟨r, rfl, (parseLines_error _ hp).1⟩)
  | ok p =>
    obtain ⟨h1, h2, h3, _⟩ := parseLines_ok _ hp (by simp)
    simp only [Nat.zero_add, List.map_nil, List.nil_append] at h1 h3
    by_cases h0 : p.table.length = 0
    · refine .inr (.inr ⟨by simp only [h0, if_true, h1]; rfl, h, hw, ?_⟩)
      rw [List.eq_nil_of_length_eq_zero h0, List.map_nil] at h3
      have : ∀ e ∈ recordEntries s.input, False := by
        intro e he
        have h5 : e.1 ∈ (((lineEntries (recordLines s.input)).map Prod.fst).eraseDups) := by
          rw [List.mem_eraseDups]
          exact List.mem_map_of_mem he
        rw [← h3] at h5
        simp at h5
      exact List.eq_nil_iff_forall_not_mem.2 this
    · exact .inl ⟨p, by simp [h0], h, rfl, by omega, h2 (by simp), h1, by rw [h1]; exact hw, h3⟩

/-! ### The record text (R185, R186) -/

/-- The loop of FSER when everything fits. -/
theorem fserFrom_ok (nout : Nat) (t : List (Cell × Word)) : ∀ (e : Nat) (out : List Cell),
    out.length + (t.map fun x => (recordLine x).length).sum ≤ nout →
    fserFrom nout e t out = .ok (out ++ (t.map recordLine).flatten) := by
  induction t with
  | nil => intro e out _; simp [fserFrom]
  | cons x t ih =>
    intro e out h
    simp only [List.map_cons, List.sum_cons] at h
    rw [fserFrom, if_neg (by omega), ih _ _ (by simp only [List.length_append]; omega)]
    simp

/-- Everything the loop of FSER can do. -/
theorem fserFrom_cases (nout : Nat) (t : List (Cell × Word)) : ∀ (e : Nat) (out : List Cell), out.length ≤ nout →
    (fserFrom nout e t out = .ok (out ++ (t.map recordLine).flatten) ∧
      out.length + (t.map fun x => (recordLine x).length).sum ≤ nout) ∨
    (∃ r, fserFrom nout e t out = .error r ∧ r.kind = .capacity ∧ e ≤ r.pos ∧ r.pos < e + t.length) := by
  induction t with
  | nil => intro e out h; exact .inl ⟨by simp [fserFrom], by simpa using h⟩
  | cons x t ih =>
    intro e out h
    by_cases h1 : nout < out.length + (recordLine x).length
    · exact .inr ⟨_, by rw [fserFrom, if_pos h1], rfl, Nat.le_refl _, by simp⟩
    · rw [fserFrom, if_neg h1]
      rcases ih (e + 1) (out ++ recordLine x) (by simp only [List.length_append]; omega) with ⟨h2, h3⟩ | ⟨r, h2,
          h3, h4⟩
      · refine .inl ⟨by rw [h2]; simp, ?_⟩
        simp only [List.length_append] at h3
        simp only [List.map_cons, List.sum_cons]
        omega
      · exact .inr ⟨r, h2, h3, by omega, by simp only [List.length_cons]; omega⟩

/-- Everything FSER's shadow can be. -/
theorem fserShadow_cases (s : State) :
    (fserShadow s = .ok (s.table.map recordLine).flatten ∧ s.fcnt.toNat ≤ s.cfg.nfreq ∧
      ((s.table.map recordLine).flatten).length ≤ s.cfg.nout) ∨
    (∃ r, fserShadow s = .error r ∧ r.kind = .capacity) := by
  unfold fserShadow
  by_cases h : s.cfg.nfreq < s.fcnt.toNat
  · exact .inr ⟨_, if_pos h, rfl⟩
  · rw [if_neg h]
    rcases fserFrom_cases s.cfg.nout s.table 0 [] (by simp) with ⟨h1, h2⟩ | ⟨r, h1, h2, _⟩
    · refine .inl ⟨by rw [h1]; rfl, by omega, ?_⟩
      rw [List.length_flatten, List.map_map]
      simpa [Function.comp_def] using h2
    · exact .inr ⟨r, h1, h2⟩

end Sys2Proof.Machine
end

