-- ==== Sys2Proof/Laws/Decode.lean ====
section
/-! SUPPORT. What the decoder and the encoder do (30_encoding R90, R100, R101). -/

namespace Sys2Proof

theorem decodeWord_encode (i : Instr) : decodeWord (encode i) = .ok i := by cases i <;> rfl

theorem encode_lt (i : Instr) : (encode i).toNat < 6 := by cases i <;> decide

/-- Everything the decoder can do on a word: it is a command's own word, or it is illegal and says so. -/
theorem decodeWord_cases (w : Word) :
    (∃ i, w = encode i ∧ decodeWord w = .ok i) ∨ ((w.toNat / 2^8 ≠ 0 ∨ 5 < w.toNat % 2^8) ∧
        ∃ e, decodeWord w = .error e) := by
  by_cases h : w.toNat < 6
  · left
    have : w = BitVec.ofNat 32 w.toNat := by simp
    rw [this]
    generalize w.toNat = n at h
    interval_cases n
    · exact ⟨.nop, rfl, rfl⟩
    · exact ⟨.enc, rfl, rfl⟩
    · exact ⟨.dec, rfl, rfl⟩
    · exact ⟨.xor, rfl, rfl⟩
    · exact ⟨.fparse, rfl, rfl⟩
    · exact ⟨.fser, rfl, rfl⟩
  · right
    refine ⟨by omega, ?_⟩
    unfold decodeWord
    split
    · exact ⟨_, rfl⟩
    · rename_i hz
      have hz : zeroField w = 0#24 := by simpa using hz
      have h2 : (zeroField w).toNat = w.toNat / 2^8 % 2^24 := by simp [zeroField, Nat.shiftRight_eq_div_pow]
      have h3 : (opcField w).toNat = w.toNat % 2^8 := by simp [opcField]
      rw [hz] at h2
      have h4 : w.toNat < 2^32 := w.isLt
      have h5 : ¬ (opcField w).toNat < 6 := by rw [h3]; simp at h2; omega
      generalize (opcField w).toNat = n at h5
      split <;> first | omega | exact ⟨_, rfl⟩

/-- The bytes of the word made of four bytes are those bytes. -/
theorem bytes_word (b0 b1 b2 b3 : Byte) : byteOfWord (wordOfBytes b0 b1 b2 b3) 0 = b0 ∧
    byteOfWord (wordOfBytes b0 b1 b2 b3) 1 = b1 ∧ byteOfWord (wordOfBytes b0 b1 b2 b3) 2 = b2 ∧
    byteOfWord (wordOfBytes b0 b1 b2 b3) 3 = b3 := by
  have h0 := b0.isLt
  have h1 := b1.isLt
  have h2 := b2.isLt
  have h3 := b3.isLt
  refine ⟨?_, ?_, ?_, ?_⟩ <;> apply BitVec.eq_of_toNat_eq <;>
      simp only [byteOfWord, wordOfBytes, BitVec.toNat_ofNat] <;> omega

end Sys2Proof
end

