-- ==== Sys2Proof/Laws/Port.lean ====
section
/-! SUPPORT. The port: what an address reaches, what a write to an element does, and what no command touches
(20_memory R60 to R66). -/

namespace Sys2Proof.Machine

open Sys2Proof

/-- Every command answers a next state. -/
theorem exec_total (i : Instr) (s : State) : ∃ t, exec i s = .next t := by
  cases i with
  | nop => exact ⟨_, rfl⟩
  | fparse => exact execFparse_total s
  | enc => exact finishOutput_total _ s
  | dec => exact finishOutput_total _ s
  | xor => exact finishOutput_total _ s
  | fser => exact finishOutput_total _ s

/-- No command touches the parameters or the port's fields. -/
theorem exec_port {i : Instr} {s t : State} (h : exec i s = .next t) : t.cfg = s.cfg ∧ t.response = s.response ∧
    t.pending = s.pending ∧ t.resets = s.resets := by
  by_cases hi : i ∈ [Instr.enc, Instr.dec, Instr.xor, Instr.fser]
  · rw [exec_output hi] at h
    rcases finishOutput_cases h with ⟨o, _, rfl⟩ | ⟨r, _, rfl⟩ <;> simp
  · cases i with
    | nop => cases h; simp
    | fparse => rcases execFparse_cases h with ⟨o, _, rfl⟩ | ⟨r, w, _, rfl⟩ <;> simp
    | _ => simp at hi

theorem startCommand_total (w : Word) (s : State) : ∃ t, startCommand w s = .next t := by
  unfold startCommand; split
  · exact exec_total _ _
  · exact ⟨_, rfl⟩

theorem perform_total (e : HostEvent) (s : State) : ∃ t, perform e s = .next t := by
  cases e with
  | read a n => exact ⟨_, rfl⟩
  | reset => exact ⟨_, rfl⟩
  | write a n v =>
    simp only [perform, portWrite]
    split
    · exact ⟨_, rfl⟩
    · exact startCommand_total _ _
    · exact ⟨_, rfl⟩

/-- R100, R101 at the port: the write to CMD runs the command of its word, or the illegal-command behaviour. -/
theorem startCommand_cases (w : Word) (s : State) :
    (∃ i, w = encode i ∧ startCommand w s = exec i { s with cmd := w }) ∨
    ((w.toNat / 2 ^ 8 ≠ 0 ∨ 5 < w.toNat % 2 ^ 8) ∧
        startCommand w s = .next (illegalCommand { s with cmd := w })) := by
  rcases decodeWord_cases w with ⟨i, h1, h2⟩ | ⟨h1, e, h2⟩
  · exact .inl ⟨i, h1, by simp only [startCommand, h2]; rfl⟩
  · exact .inr ⟨h1, by simp only [startCommand, h2]; rfl⟩

/-! ### The address map -/

theorem ofOffset_none {off : Nat} (h4 : off % 4 = 0) : Reg.ofOffset off = none ↔ 0x2C ≤ off := by
  constructor
  · intro h
    by_contra hlt
    have : off < 0x2c := by omega
    interval_cases off <;> simp_all [Reg.ofOffset]
  · intro h
    unfold Reg.ofOffset
    split <;> first | omega | rfl

/-- R65: the transactions that reach nothing. -/
theorem locate_none_iff (c : Config) (addr size : Nat) : locate c addr size = none ↔
   (addr % 4 ≠ 0 ∨ size ≠ 4 ∨ 0x07FFFFFF < addr ∨
      (addr / 2^24 = 0 ∧ 0x2C ≤ addr % 2^24) ∨
      (addr / 2^24 = 1 ∧ c.nin ≤ addr % 2^24 / 4) ∨ (addr / 2^24 = 2 ∧ c.nout ≤ addr % 2^24 / 4) ∨
      (addr / 2^24 = 3 ∧ c.nkey ≤ addr % 2^24 / 4) ∨ (addr / 2^24 = 5 ∧ c.ncdig ≤ addr % 2^24 / 4) ∨
      (addr / 2^24 = 4 ∧ c.ncode ≤ addr % 2^24 / 16) ∨ (addr / 2^24 = 6 ∧ c.nnode ≤ addr % 2^24 / 16) ∨
      (addr / 2^24 = 7 ∧ c.nfreq ≤ addr % 2^24 / 16)) := by
  unfold locate
  by_cases h1 : addr % 4 ≠ 0
  · simp [h1]
  by_cases h2 : size ≠ 4
  · simp [h2]
  by_cases h3 : 0x07FFFFFF < addr
  · simp [h3]
  have h4 : addr / 2^24 < 8 := by omega
  simp only [h1, h2, h3, if_false, false_or]
  have h5 : addr % 2^24 % 4 = 0 := by omega
  generalize addr / 2^24 = sp at h4
  generalize addr % 2^24 = off at h5
  interval_cases sp <;> simp [ofOffset_none h5]

/-- The map on an aligned word of the window. -/
theorem locate_four {c : Config} {A : Nat} (h1 : A % 4 = 0) (hb : A / 16777216 < 8) :
   locate c A 4 = match A / 16777216 with
    | 0 => (Reg.ofOffset (A % 16777216)).map .reg
    | 1 => if A % 16777216 / 4 < c.nin then some (.element .input (A % 16777216 / 4)) else none
    | 2 => if A % 16777216 / 4 < c.nout then some (.element .output (A % 16777216 / 4)) else none
    | 3 => if A % 16777216 / 4 < c.nkey then some (.element .key (A % 16777216 / 4)) else none
    | 4 => if A % 16777216 / 16 < c.ncode then some (codeWordAt (A % 16777216 / 16) (A % 16777216 % 16)) else none
    | 5 => if A % 16777216 / 4 < c.ncdig then some (.element .cdig (A % 16777216 / 4)) else none
    | 6 => if A % 16777216 / 16 < c.nnode then some (treeWordAt (A % 16777216 / 16) (A % 16777216 % 16)) else none
    | 7 => if A % 16777216 / 16 < c.nfreq then some (freqWordAt (A % 16777216 / 16) (A % 16777216 % 16)) else none
    | _ => none := by
  have h4 : ¬ 0x07FFFFFF < A := by omega
  unfold locate
  rw [if_neg (by simp [h1]), if_neg (by simp), if_neg h4]
  rfl

/-- The address of an element reaches it. -/
theorem locate_element {c : Config} (hc : c.Valid) {f : Field} {k : Nat} (hk : k < c.capacity f) :
    locate c (elementAddr f k) 4 = some (.element f k) := by
  obtain ⟨⟨_, h1⟩, ⟨_, h2⟩, ⟨_, h3⟩, ⟨_, h4⟩, ⟨_, h5⟩, ⟨_, h6⟩, ⟨_, h7⟩⟩ := hc
  have four : ∀ b n, k < n → n ≤ 2^22 → (b * 16777216 + 4*k) % 4 = 0 ∧ (b * 16777216 + 4*k) / 16777216 = b ∧
      (b*16777216 + 4*k) % 16777216 / 4 = k := by
    intro b n h h'; omega
  have sixteen : ∀ b n o, k < n → n ≤ 2^20 → o < 4 → (b * 16777216 + 16*k + 4*o) % 4 = 0 ∧
      (b * 16777216 + 16*k+4*o) / 16777216 = b ∧ (b*16777216 + 16*k+4*o) % 16777216 / 16 = k ∧
      (b*16777216 + 16*k+4*o) % 16777216 % 16 = 4*o := by
    intro b n o h h' ho; omega
  cases f <;> simp only [Config.capacity] at hk
  · obtain ⟨a1, a2, a3⟩ := four 1 _ hk h1
    exact (locate_four a1 (by omega)).trans (by simp only [a2, a3]; simp [hk])
  · obtain ⟨a1, a2, a3⟩ := four 2 _ hk h2
    exact (locate_four a1 (by omega)).trans (by simp only [a2, a3]; simp [hk])
  · obtain ⟨a1, a2, a3⟩ := four 3 _ hk h3
    exact (locate_four a1 (by omega)).trans (by simp only [a2, a3]; simp [hk])
  · obtain ⟨a1, a2, a3, a4⟩ := sixteen 4 _ 0 hk h4 (by omega)
    exact (locate_four a1 (by omega)).trans (by simp only [a2, a3, a4]; simp [hk, codeWordAt])
  · obtain ⟨a1, a2, a3, a4⟩ := sixteen 4 _ 1 hk h4 (by omega)
    exact (locate_four a1 (by omega)).trans (by simp only [a2, a3, a4]; simp [hk, codeWordAt])
  · obtain ⟨a1, a2, a3, a4⟩ := sixteen 4 _ 2 hk h4 (by omega)
    exact (locate_four a1 (by omega)).trans (by simp only [a2, a3, a4]; simp [hk, codeWordAt])
  · obtain ⟨a1, a2, a3⟩ := four 5 _ hk h5
    exact (locate_four a1 (by omega)).trans (by simp only [a2, a3]; simp [hk])
  · obtain ⟨a1, a2, a3, a4⟩ := sixteen 6 _ 0 hk h6 (by omega)
    exact (locate_four a1 (by omega)).trans (by simp only [a2, a3, a4]; simp [hk, treeWordAt])
  · obtain ⟨a1, a2, a3, a4⟩ := sixteen 6 _ 1 hk h6 (by omega)
    exact (locate_four a1 (by omega)).trans (by simp only [a2, a3, a4]; simp [hk, treeWordAt])
  · obtain ⟨a1, a2, a3, a4⟩ := sixteen 6 _ 2 hk h6 (by omega)
    exact (locate_four a1 (by omega)).trans (by simp only [a2, a3, a4]; simp [hk, treeWordAt])
  · obtain ⟨a1, a2, a3, a4⟩ := sixteen 6 _ 3 hk h6 (by omega)
    exact (locate_four a1 (by omega)).trans (by simp only [a2, a3, a4]; simp [hk, treeWordAt])
  · obtain ⟨a1, a2, a3, a4⟩ := sixteen 7 _ 0 hk h7 (by omega)
    exact (locate_four a1 (by omega)).trans (by simp only [a2, a3, a4]; simp [hk, freqWordAt])
  · obtain ⟨a1, a2, a3, a4⟩ := sixteen 7 _ 1 hk h7 (by omega)
    exact (locate_four a1 (by omega)).trans (by simp only [a2, a3, a4]; simp [hk, freqWordAt])

/-- An element the map reaches is inside its array. -/
theorem locate_element_lt {c : Config} {addr size : Nat} {f : Field} {k : Nat}
    (h : locate c addr size = some (.element f k)) : k < c.capacity f := by
  have code : ∀ j o, codeWordAt j o = .element f k → k = j ∧ (f = .codeSym ∨ f = .codeLen ∨ f = .codeBase) := by
    intro j o h
    unfold codeWordAt at h
    split at h <;> cases h <;> simp
  have tree : ∀ j o, treeWordAt j o = .element f k →
      k = j ∧ (f = .treeLeft ∨ f = .treeRight ∨ f = .treeSym ∨ f = .treeLeaf) := by
    intro j o h
    unfold treeWordAt at h
    split at h <;> cases h <;> simp
  have freq : ∀ j o, freqWordAt j o = .element f k → k = j ∧ (f = .freqSym ∨ f = .freqCount) := by
    intro j o h
    unfold freqWordAt at h
    split at h <;> cases h <;> simp
  unfold locate at h
  simp only at h
  repeat' split at h
  all_goals first
    | cases h; done
    | (cases h; assumption)
    | (simp only [Option.some.injEq] at h
       obtain ⟨rfl, hf⟩ := code _ _ h
       rcases hf with rfl | rfl | rfl <;> assumption)
    | (simp only [Option.some.injEq] at h
       obtain ⟨rfl, hf⟩ := tree _ _ h
       rcases hf with rfl | rfl | rfl | rfl <;> assumption)
    | (simp only [Option.some.injEq] at h
       obtain ⟨rfl, hf⟩ := freq _ _ h
       rcases hf with rfl | rfl <;> assumption)
    | simp at h

/-! ### Elements -/

theorem element_lt (s : State) (f : Field) (k : Nat) : (s.element f k).toNat < 2 ^ fieldWidth f := by
  have h : ∀ (w : Nat) (v : BitVec w), w ≤ 32 → (v.setWidth 32).toNat < 2 ^ w := by
    intro w v hw
    rw [BitVec.toNat_setWidth]
    exact Nat.lt_of_le_of_lt (Nat.mod_le _ _) v.isLt
  cases f <;> simp only [State.element, fieldWidth] <;> first | exact h _ _ (by decide) | exact BitVec.isLt _

/-- A write to one element, seen at every element. -/
theorem setElement_element (s : State) (f g : Field) (k j : Nat) (v : Word) :
    ((s.setElement f k v).element g j).toNat = if g = f ∧
        j = k then v.toNat % 2 ^ fieldWidth f else (s.element g j).toNat := by
  by_cases hg : g = f
  · subst hg
    by_cases hj : j = k
    · subst hj
      cases g <;> simp [State.setElement, State.element, fieldWidth, symw] <;> omega
    · simp only [hj, and_false, if_false]
      cases g <;> simp [State.setElement, State.element, State.free, Memory.read_write_of_ne _ _ _ hj]
  · simp only [hg, false_and, if_false]
    cases f <;> cases g <;> first | rfl | exact absurd rfl hg

end Sys2Proof.Machine
end

