-- ==== Sys2Proof/Laws/Walk.lean ====
section
/-! SUPPORT. What DEC's move, step, loop and shadow can do (41_decode R143 to R150). -/

namespace Sys2Proof.Machine

open Sys2Proof

theorem decCheck_eq_none {s : State} : decCheck s = none ↔
    s.ilen.toNat ≤ s.cfg.nin ∧ (s.ciph = true → s.klen ≠ 0#32 ∧ s.klen.toNat ≤ s.cfg.nkey) ∧
      s.root.toNat < s.cfg.nnode := by
  unfold decCheck
  by_cases h1 : s.cfg.nin < s.ilen.toNat
  · simp [h1]
  by_cases h2 : s.ciph = true ∧ s.klen = 0#32
  · rw [if_neg h1, if_pos h2]; simp [h2.1, h2.2]
  by_cases h3 : s.ciph = true ∧ s.cfg.nkey < s.klen.toNat
  · rw [if_neg h1, if_neg h2, if_pos h3]
    simp only [reduceCtorEq, false_iff]
    rintro ⟨_, hk, _⟩
    exact absurd (hk h3.1).2 (Nat.not_le.2 h3.2)
  by_cases h4 : s.cfg.nnode ≤ s.root.toNat
  · rw [if_neg h1, if_neg h2, if_neg h3, if_pos h4]
    simp only [reduceCtorEq, false_iff]
    rintro ⟨_, _, hr⟩
    omega
  · rw [if_neg h1, if_neg h2, if_neg h3, if_neg h4]
    simp only [true_iff]
    exact ⟨by omega, fun hc => ⟨fun hk => h2 ⟨hc, hk⟩, Nat.not_lt.1 fun hk => h3 ⟨hc, hk⟩⟩, by omega⟩

theorem decCheck_kind {s : State} {r : Raise} (h : decCheck s = some r) :
    r.kind = .capacity ∨ r.kind = .invalidKey ∨ r.kind = .treeFormat := by
  unfold decCheck at h
  repeat' split at h
  all_goals first | (cases h; simp) | cases h

theorem direction_ch0 (strict : Bool) : direction strict ch0 = some .left := by simp [direction]

theorem direction_ch1 (strict : Bool) : direction strict ch1 = some .right := by
  have h : ¬(ch1 = ch0) := by decide
  simp [direction, h]

/-- What one move can do: a fault at index `i`, or one more position with at most one more symbol. -/
theorem walkMove_cases (s : State) (i : Nat) (dir : Dir) (w : Walk) :
    (∃ r, walkMove s i dir w = .error r ∧ r.pos = i ∧
      (r.kind = .malformedPayload ∨ r.kind = .treeFormat ∨ r.kind = .capacity)) ∨
    (∃ w', walkMove s i dir w = .ok w' ∧
      ((∃ sym, w'.out = w.out ++ [sym] ∧ w.out.length + 1 ≤ s.cfg.nout) ∨ w'.out = w.out)) := by
  have key : ∀ sym next, (∃ r, emit s i sym next w = .error r ∧ r.pos = i ∧
      (r.kind = .malformedPayload ∨ r.kind = .treeFormat ∨ r.kind = .capacity)) ∨
    (∃ w', emit s i sym next w = .ok w' ∧
      ((∃ sym, w'.out = w.out ++ [sym] ∧ w.out.length + 1 ≤ s.cfg.nout) ∨ w'.out = w.out)) := by
    intro sym next
    unfold emit
    split
    · exact .inl ⟨_, rfl, rfl, by simp⟩
    · exact .inr ⟨_, rfl, .inl ⟨sym, rfl, by omega⟩⟩
  unfold walkMove
  simp only
  repeat' split
  all_goals first
    | exact .inl ⟨_, rfl, rfl, by simp⟩
    | exact key _ _
    | exact .inr ⟨_, rfl, .inr rfl⟩

/-- What one payload cell can do. -/
theorem walkStep_cases (s : State) (i : Nat) (d : Cell) (w : Walk) :
    (∃ r, walkStep s i d w = .error r ∧ r.pos = i ∧
      (r.kind = .malformedPayload ∨ r.kind = .treeFormat ∨ r.kind = .capacity)) ∨
    (∃ w', walkStep s i d w = .ok w' ∧
      ((∃ sym, w'.out = w.out ++ [sym] ∧ w.out.length + 1 ≤ s.cfg.nout) ∨ w'.out = w.out)) := by
  unfold walkStep
  cases direction s.strict d with
  | none => exact .inl ⟨_, rfl, rfl, by simp⟩
  | some dir => exact walkMove_cases s i dir w

theorem walkFrom_cons_ok {s : State} {i : Nat} {d : Cell} {cells : List Cell} {w w' : Walk}
    (h : walkStep s i d w = .ok w') : walkFrom s i (d :: cells) w = walkFrom s (i + 1) cells w' := by
  simp [walkFrom, h]

theorem walkFrom_cons_error {s : State} {i : Nat} {d : Cell} {cells : List Cell} {w : Walk} {r : Raise}
    (h : walkStep s i d w = .error r) : walkFrom s i (d :: cells) w = .error r := by
  simp [walkFrom, h]

/-- The walk over one cell is the step on it. -/
theorem walkFrom_one (s : State) (i : Nat) (d : Cell) (w : Walk) : walkFrom s i [d] w = walkStep s i d w := by
  cases h : walkStep s i d w with
  | error r => exact walkFrom_cons_error h
  | ok w' => rw [walkFrom_cons_ok h, walkFrom]

/-- The walk over a payload in two parts. -/
theorem walkFrom_append (s : State) (a b : List Cell) : ∀ (i : Nat) (w : Walk),
    walkFrom s i (a ++ b) w =
      match walkFrom s i a w with
      | .error r => .error r
      | .ok w' => walkFrom s (i + a.length) b w' := by
  induction a with
  | nil => intro i w; simp [walkFrom]
  | cons c a ih =>
    intro i w
    cases h : walkStep s i c w with
    | error r => simp [walkFrom, h]
    | ok w' =>
      simp only [List.cons_append, walkFrom, h, ih, List.length_cons]
      rw [show i + 1 + a.length = i + (a.length + 1) by omega]

theorem walkFrom_ok_out (s : State) (cells : List Cell) : ∀ (i : Nat) (w w' : Walk),
    walkFrom s i cells w = .ok w' → w.out.length ≤ s.cfg.nout →
    w'.out.length ≤ s.cfg.nout ∧ w'.out.length ≤ w.out.length + cells.length := by
  induction cells with
  | nil => intro i w w' h hn; cases h; exact ⟨hn, by simp⟩
  | cons c cells ih =>
    intro i w w' h hn
    rcases walkStep_cases s i c w with ⟨r, h1, _⟩ | ⟨v, h1, h2⟩
    · rw [walkFrom_cons_error h1] at h; cases h
    · rw [walkFrom_cons_ok h1] at h
      have h3 : v.out.length ≤ s.cfg.nout ∧ v.out.length ≤ w.out.length + 1 := by
        rcases h2 with ⟨sym, h4, h5⟩ | h4
        · simp [h4]; omega
        · rw [h4]; omega
      obtain ⟨h6, h7⟩ := ih _ _ _ h h3.1
      simp only [List.length_cons]
      omega

theorem walkFrom_error (s : State) (cells : List Cell) : ∀ (i : Nat) (w : Walk) (r : Raise),
    walkFrom s i cells w = .error r →
    (r.kind = .malformedPayload ∨ r.kind = .treeFormat ∨ r.kind = .capacity) ∧
      i ≤ r.pos ∧ r.pos < i + cells.length := by
  induction cells with
  | nil => intro i w r h; cases h
  | cons c cells ih =>
    intro i w r h
    rcases walkStep_cases s i c w with ⟨q, h1, h2, h3⟩ | ⟨v, h1, h2⟩
    · rw [walkFrom_cons_error h1] at h
      cases h
      exact ⟨h3, by omega, by simp only [List.length_cons]; omega⟩
    · rw [walkFrom_cons_ok h1] at h
      obtain ⟨h3, h4, h5⟩ := ih _ _ _ h
      exact ⟨h3, by omega, by simp only [List.length_cons]; omega⟩

/-- The shadow of DEC when the checks pass. -/
theorem decShadow_of_check {s : State} (h : decCheck s = none) :
    decShadow s = match walkFrom s 0 s.payload { p := s.root, out := [] } with
      | .error r => .error r
      | .ok w => if w.p = s.root then .ok w.out
        else .error { kind := .malformedPayload, pos := s.ilen.toNat } := by
  cases hw : walkFrom s 0 s.payload { p := s.root, out := [] } <;> simp only [decShadow, h, hw]

/-- Everything DEC's shadow can be. -/
theorem decShadow_cases (s : State) :
    (∃ w, decShadow s = .ok w.out ∧ decCheck s = none ∧
      walkFrom s 0 s.payload { p := s.root, out := [] } = .ok w ∧ w.p = s.root ∧
      w.out.length ≤ s.cfg.nout ∧ w.out.length ≤ s.ilen.toNat) ∨
    (∃ r, decShadow s = .error r ∧ (r.kind = .malformedPayload ∨ r.kind = .invalidKey ∨
      r.kind = .capacity ∨ r.kind = .treeFormat)) := by
  cases hc : decCheck s with
  | some r =>
    refine .inr ⟨r, by simp [decShadow, hc], ?_⟩
    rcases decCheck_kind hc with h | h | h <;> simp [h]
  | none =>
    rw [decShadow_of_check hc]
    cases hw : walkFrom s 0 s.payload { p := s.root, out := [] } with
    | error r =>
      refine .inr ⟨r, rfl, ?_⟩
      rcases (walkFrom_error s _ _ _ _ hw).1 with h | h | h <;> simp [h]
    | ok w =>
      by_cases hp : w.p = s.root
      · obtain ⟨h1, h2⟩ := walkFrom_ok_out s _ _ _ _ hw (by simp)
        exact .inl ⟨w, by simp [hp], rfl, rfl, hp, h1, by simpa [payload_length] using h2⟩
      · exact .inr ⟨_, by simp [hp]; rfl, by simp⟩

end Sys2Proof.Machine
end

