-- ==== Sys2Proof/Laws/Commands.lean ====
section
/-! SUPPORT. What every command can do, and what its shadow depends on (60_exceptions R230, 70_reset R262). -/

namespace Sys2Proof.Machine

open Sys2Proof

/-- A result that is committed fits OUT. -/
theorem outputShadow_length {i : Instr} {s : State} {out} (hi : i ∈ [Instr.enc, Instr.dec, Instr.xor,
    Instr.fser]) (h : outputShadow i s = .ok out) : out.length ≤ s.cfg.nout := by
  cases i with
  | enc => rcases encShadow_cases s with ⟨o, h1, _, _, h2⟩ | ⟨r, h1, _⟩ <;> simp only [outputShadow] at h <;>
      rw [h1] at h <;> cases h; exact h2
  | dec => rcases decShadow_cases s with ⟨o, h1, _, _,_, h2, _⟩ | ⟨r, h1, _⟩ <;> simp only [outputShadow] at h <;>
      rw [h1] at h <;> cases h; exact h2
  | xor => exact (xorShadow_length h).2
  | fser => rcases fserShadow_cases s with ⟨h1, _, h2⟩ | ⟨r, h1, _⟩ <;> simp only [outputShadow] at h <;>
      rw [h1] at h <;> cases h; exact h2
  | _ => simp at hi

/-- What STATUS and ERRPOS hold after a command: success, or one of its errors. -/
theorem exec_errors {i : Instr} {s t : State} (h : exec i s = .next t) :
  (t.status = statusWord 0#8 ∧ t.errpos = 0#32) ∨ ∃ k ∈ commandErrors i, t.status = statusWord k.code := by
  cases i with
  | nop => cases h; exact .inl ⟨rfl, rfl⟩
  | enc =>
    rcases finishOutput_cases h with ⟨o, h1, rfl⟩ | ⟨r, h1, rfl⟩
    · exact .inl ⟨rfl, rfl⟩
    · rcases encShadow_cases s with ⟨q, h2, _⟩ | ⟨q, h2, h3⟩ <;> rw [h1] at h2 <;> cases h2
      exact .inr ⟨r.kind, by rcases h3 with h3 | h3 | h3 | h3 <;> simp [commandErrors, h3], by simp⟩
  | dec =>
    rcases finishOutput_cases h with ⟨o, h1, rfl⟩ | ⟨r, h1, rfl⟩
    · exact .inl ⟨rfl, rfl⟩
    · rcases decShadow_cases s with ⟨q, h2, _⟩ | ⟨q, h2, h3⟩ <;> rw [h1] at h2 <;> cases h2
      exact .inr ⟨r.kind, by rcases h3 with h3 | h3 | h3 | h3 <;> simp [commandErrors, h3], by simp⟩
  | xor =>
    rcases finishOutput_cases h with ⟨o, h1, rfl⟩ | ⟨r, h1, rfl⟩
    · exact .inl ⟨rfl, rfl⟩
    · rcases xorShadow_cases s with ⟨q, h2, h3⟩ | ⟨h2, h3⟩ <;> rw [h1] at h2 <;> cases h2
      exact .inr ⟨r.kind, by rcases h3 with h3 | h3 <;> simp [commandErrors, h3], by simp⟩
  | fser =>
    rcases finishOutput_cases h with ⟨o, h1, rfl⟩ | ⟨r, h1, rfl⟩
    · exact .inl ⟨rfl, rfl⟩
    · rcases fserShadow_cases s with ⟨h2, h3⟩ | ⟨q, h2, h3⟩ <;> rw [h1] at h2 <;> cases h2
      exact .inr ⟨r.kind, by simp [commandErrors, h3], by simp⟩
  | fparse =>
    rcases execFparse_cases h with ⟨o, h1, rfl⟩ | ⟨r, w, h1, rfl⟩
    · exact .inl ⟨rfl, rfl⟩
    · refine .inr ⟨r.kind, ?_, by simp⟩
      rcases fparseShadow_cases s with ⟨q, h2, _, _, _, h3, _⟩ | ⟨r, h2, h3⟩ | ⟨h2, _⟩ <;> rw [h1] at h2 <;> cases h2
      · simp [commandErrors, h3]
      · simp [commandErrors]

/-- Every command keeps OLEN within NOUT, WARN within NIN, and every memory in canonical form. -/
theorem exec_fits {i : Instr} {s t : State} (h : exec i s =
    .next t) (hc : s.cfg.Valid) (h1 : s.olen.toNat ≤ s.cfg.nout) (h2 : s.warn.toNat ≤ s.cfg.nin) (hm : s.MemoriesWf) :
   t.olen.toNat ≤ s.cfg.nout ∧ t.warn.toNat ≤ s.cfg.nin ∧ t.MemoriesWf := by
  have hn := hc.2.1.2
  have hi' := hc.1.2
  by_cases hi : i ∈ [Instr.enc, Instr.dec, Instr.xor, Instr.fser]
  · rw [exec_output hi] at h
    rcases finishOutput_cases h with ⟨o, h3, rfl⟩ | ⟨r, h3, rfl⟩
    · have hl := outputShadow_length hi h3
      refine ⟨by simp only [commitOutput_olen, BitVec.toNat_ofNat]; omega, h2, ?_⟩
      obtain ⟨b1,b2,b3,b4,b5,b6,b7,b8,b9,b10,b11,b12,b13⟩ := hm
      constructor <;> try assumption
      exact Memory.wf_writeFrom _ _ _ (by show 0 + o.length ≤ s.cfg.nout; omega) b2
    · exact ⟨Nat.zero_le _, h2, by obtain ⟨b1,b2,b3,b4,b5,b6,b7,b8,b9,b10,b11,b12,b13⟩ := hm; constructor <;>
          assumption⟩
  · cases i with
    | nop => cases h; exact ⟨h1, h2, by obtain ⟨b1,b2,b3,b4,b5,b6,b7,b8,b9,b10,b11,b12,b13⟩ := hm; constructor <;>
        assumption⟩
    | fparse =>
      rcases execFparse_cases h with ⟨p, h3, rfl⟩ | ⟨r, w, h3, rfl⟩
      · rcases fparseShadow_cases s with ⟨q, h4, hin, _, _, hle, _, hw, _⟩ | ⟨r, h4, _⟩ | ⟨h4, _⟩ <;>
            rw [h3] at h4 <;> cases h4
        refine ⟨h1, by simp only [commitTable_warn, BitVec.toNat_ofNat]; omega, ?_⟩
        obtain ⟨b1,b2,b3,b4,b5,b6,b7,b8,b9,b10,b11,b12,b13⟩ := hm
        constructor <;> try assumption
        · exact Memory.wf_writeFrom _ _ _ (by simpa using hle) b12
        · exact Memory.wf_writeFrom _ _ _ (by simpa using hle) b13
      · refine ⟨h1, ?_, by obtain ⟨b1,b2,b3,b4,b5,b6,b7,b8,b9,b10,b11,b12,b13⟩ := hm; constructor <;> assumption⟩
        show (BitVec.ofNat 32 w).toNat ≤ _
        rcases fparseShadow_cases s with ⟨q, h4, _⟩ | ⟨r, h4, _⟩ | ⟨h4, hin, hw, _⟩ <;> rw [h3] at h4 <;> cases h4
        · exact Nat.zero_le _
        · simp only [BitVec.toNat_ofNat]; omega
    | _ => simp at hi

/-- No command writes CMD or CTRL. -/
theorem exec_cmd {i : Instr} {s t : State} (h : exec i s = .next t) : t.cmd = s.cmd ∧ t.ctrl = s.ctrl := by
  by_cases hi : i ∈ [Instr.enc, Instr.dec, Instr.xor, Instr.fser]
  · rw [exec_output hi] at h
    rcases finishOutput_cases h with ⟨o, _, rfl⟩ | ⟨r, _, rfl⟩ <;> simp
  · cases i with
    | nop => cases h; simp
    | fparse => rcases execFparse_cases h with ⟨o, _, rfl⟩ | ⟨r, w, _, rfl⟩ <;> simp
    | _ => simp at hi

/-- A fault of a command with an output leaves no result. -/
theorem exec_olen {i : Instr} {s t : State} (h : exec i s =
    .next t) (he : t.err ≠ 0#8) (hi : i ≠ .fparse) : t.olen = 0#32 := by
  by_cases hi : i ∈ [Instr.enc, Instr.dec, Instr.xor, Instr.fser]
  · rw [exec_output hi] at h
    rcases finishOutput_cases h with ⟨o, _, rfl⟩ | ⟨r, _, rfl⟩
    · simp at he
    · rfl
  · cases i with
    | nop => cases h; simp at he
    | fparse => simp at *
    | _ => simp at hi

/-! ### Equal operands, equal shadows -/

theorem input_congr {s u : State} (h : s.ilen = u.ilen) (hi : ∀ k < s.ilen.toNat,
    s.inCell k = u.inCell k) : s.input = u.input := by
  unfold State.input
  rw [← h]
  exact List.map_congr_left fun k hk => hi k (List.mem_range.1 hk)

theorem find?_congr_on {α} {p q : α → Bool} {l : List α} (h : ∀ x ∈ l, p x = q x) : l.find? p = l.find? q := by
  induction l with
  | nil => rfl
  | cons a l ih => simp only [List.find?_cons, h a (by simp), ih (fun x hx => h x (by simp [hx]))]

theorem lookup_lt {s : State} {c : Cell} {j : Nat} (h : s.lookup c = some j) : j < s.ccnt.toNat := by
  have := List.mem_of_find?_eq_some h
  exact List.mem_range.1 this

theorem encFrom_congr {s u : State} (hc : s.cfg = u.cfg) (hn : s.ccnt = u.ccnt)
  (h : ∀ j < s.ccnt.toNat, s.codeEntry j = u.codeEntry j ∧
      ∀ t < (s.codeEntry j).len.toNat,
        s.digit ((s.codeEntry j).base.toNat + t) =
            u.digit ((s.codeEntry j).base.toNat + t)) (text : List Cell) : ∀ i out,
            encFrom s i text out = encFrom u i text out := by
  have hl : ∀ c, s.lookup c = u.lookup c := by
    intro c
    unfold State.lookup
    rw [← hn]
    exact find?_congr_on fun j hj => by rw [(h j (List.mem_range.1 hj)).1]
  have hs : ∀ i c out, encStep s i c out = encStep u i c out := by
    intro i c out
    unfold encStep
    rw [← hl]
    cases hj : s.lookup c with
    | none => rfl
    | some j =>
      have hj := lookup_lt hj
      have hd : s.codeDigits j = u.codeDigits j := by
        unfold State.codeDigits
        rw [← (h j hj).1]
        exact List.map_congr_left fun t ht => (h j hj).2 t (List.mem_range.1 ht)
      simp only [hd, ← hc, (h j hj).1]
  induction text with
  | nil => intros; rfl
  | cons c text ih =>
    intro i out
    simp only [encFrom, hs, ih]

theorem encShadow_congr {s u : State} (h : AgreeFor .enc s u) : encShadow s = encShadow u := by
  obtain ⟨h1, h2, h3, h4, h5⟩ := h
  have hk : encCheck s = encCheck u := by simp only [encCheck, h1, h2, h4]
  simp only [encShadow, hk, input_congr h2 h3, encFrom_congr h1 h4 h5]

theorem cipher_congr {s u : State} (h : s.ilen = u.ilen) (hi : ∀ k < s.ilen.toNat, s.inCell k = u.inCell k) 
  (hk : s.klen = u.klen) (hz : s.klen ≠ 0#32) (hkk : ∀ k < s.klen.toNat,
      s.keyCell k = u.keyCell k) : s.cipherInput = u.cipherInput := by
  unfold State.cipherInput
  rw [← h]
  refine List.map_congr_left fun k hk' => ?_
  unfold State.cipherCell
  have : 0 < s.klen.toNat := by
    rcases Nat.eq_zero_or_pos s.klen.toNat with h0 | h0
    · exact absurd (BitVec.eq_of_toNat_eq (by simpa using h0)) hz
    · exact h0
  rw [hi k (List.mem_range.1 hk'), ← hk, hkk _ (Nat.mod_lt _ this)]

theorem xorShadow_congr {s u : State} (h : AgreeFor .xor s u) : xorShadow s = xorShadow u := by
  obtain ⟨h1, h2, h3, h4, h5⟩ := h
  have hk : xorCheck s = xorCheck u := by simp only [xorCheck, h1, h2, h4]
  unfold xorShadow
  rw [← hk]
  by_cases hz : s.klen = 0#32
  · simp [xorCheck, hz]
  · rw [cipher_congr h2 h3 h4 hz h5]

theorem walkMove_congr {s u : State} (hc : s.cfg = u.cfg) (hr : s.root = u.root) (hn : ∀ n, s.Reach n →
    s.node n = u.node n) (i dir) {w : Walk} (hw : s.Reach w.p.toNat) :
   walkMove s i dir w = walkMove u i dir w ∧ ∀ w', walkMove s i dir w = .ok w' → s.Reach w'.p.toNat := by
  have em : ∀ i sym n w, emit s i sym n w = emit u i sym n w := by intros; simp only [emit, hc]
  have em2 : ∀ i sym n w w', emit s i sym n w = .ok w' → w'.p = n := by
    intro i sym n w w' h; unfold emit at h; split at h; cases h; cases h; rfl
  unfold walkMove
  simp only [← hn _ hw, ← hc, ← hr, em]
  simp only [← em]
  by_cases h1 : (s.node w.p.toNat).childless = true
  · simp only [h1, if_true]
    refine ⟨trivial, fun w' h => ?_⟩
    split at h
    · cases h
    · split at h
      · cases h
      · rw [em2 _ _ _ _ _ h]; exact hw
  · simp only [h1, Bool.false_eq_true, if_false]
    by_cases h2 : (s.node w.p.toNat).child dir = null
    · simp [h2]
    · simp only [h2, if_false]
      by_cases h3 : s.cfg.nnode ≤ ((s.node w.p.toNat).child dir).toNat
      · simp [h3]
      · have hc := State.Reach.child _ dir hw (Nat.not_le.1 h3)
        simp only [h3, if_false, ← hn _ hc]
        refine ⟨trivial, fun w' h => ?_⟩
        split at h
        · split at h
          · cases h
          · rw [em2 _ _ _ _ _ h]; exact .root
        · cases h; exact hc

theorem walkFrom_congr {s u : State} (hc : s.cfg = u.cfg) (hs : s.strict = u.strict) (hr : s.root =
    u.root) (hn : ∀ n, s.Reach n → s.node n = u.node n) (l : List Cell) : ∀ i (w : Walk), s.Reach w.p.toNat →
    walkFrom s i l w = walkFrom u i l w := by
  induction l with
  | nil => intros; rfl
  | cons d l ih =>
    intro i w hw
    simp only [walkFrom, walkStep, ← hs]
    cases direction s.strict d with
    | none => rfl
    | some dir =>
      obtain ⟨h1, h2⟩ := walkMove_congr hc hr hn i dir hw
      simp only [← h1]
      cases hm : walkMove s i dir w with
      | error r => rfl
      | ok w' => exact ih _ _ (h2 _ hm)

theorem decShadow_congr {s u : State} (h : AgreeFor .dec s u) : decShadow s = decShadow u := by
  obtain ⟨h1, h2, h3, h4, h5, h6, h7, h8⟩ := h
  have hk : decCheck s = decCheck u := by
    unfold decCheck
    rw [← h1, ← h3, ← h4, ← h7]
    by_cases hci : s.ciph = true
    · rw [(h6 hci).1]
    · simp [hci]
  unfold decShadow
  rw [← hk]
  cases hd : decCheck s with
  | some r => rfl
  | none =>
    have hp : s.payload = u.payload := by
      unfold State.payload
      rw [← h3]
      by_cases hci : s.ciph = true
      · simp only [hci, if_true]
        exact cipher_congr h4 h5 (h6 hci).1 ((decCheck_eq_none.1 hd).2.1 hci).1 (h6 hci).2
      · simp only [hci]
        exact input_congr h4 h5
    simp only [← hp, ← h7, ← h4]
    rw [walkFrom_congr h1 h2 h7 h8 _ _ _ .root]

theorem fserShadow_congr {s u : State} (h : AgreeFor .fser s u) : fserShadow s = fserShadow u := by
  obtain ⟨h1, h2, h3⟩ := h
  have : s.table = u.table := by
    unfold State.table; rw [← h2]; exact List.map_congr_left fun k hk => h3 k (List.mem_range.1 hk)
  simp only [fserShadow, h1, h2, this]

theorem fparseShadow_congr {s u : State} (h : AgreeFor .fparse s u) : fparseShadow s = fparseShadow u := by
  obtain ⟨h1, h2, h3⟩ := h
  simp only [fparseShadow, h1, h2, input_congr h2 h3]

end Sys2Proof.Machine
end

