-- ==== Sys2Proof/Laws/Tree.lean ====
section
/-! SUPPORT. Walking a tree that TREE holds: the paths of its leaves, one code after another, and a code cut short
(41_decode R146 to R150; 45_host R214). -/

namespace Sys2Proof.Machine

open Sys2Proof

theorem bitCell_eq_if (d : Bit) : (if d = 1#1 then 0x0031#symw else 0x0030#symw) = bitCell d := by
  revert d
  decide

theorem paths_path (t : HTree) : ∀ path : List Bit,
    t.paths path = (t.paths []).map fun leaf => (leaf.1, path ++ leaf.2) := by
  induction t with
  | leaf i sym f => intro path; simp [HTree.paths]
  | node i f l r ihl ihr =>
    intro path
    simp only [HTree.paths, List.nil_append]
    rw [ihl (path ++ [0#1]), ihr (path ++ [1#1]), ihl [0#1], ihr [1#1]]
    simp [Function.comp_def]

/-- The leaves below an internal node: those of the left child behind a 0, those of the right behind a 1. -/
theorem mem_paths_node {i f : Nat} {l r : HTree} {sym : Cell} {ds : List Bit} :
    (sym, ds) ∈ (HTree.node i f l r).paths [] ↔
      (∃ tail, ds = 0#1 :: tail ∧ (sym, tail) ∈ l.paths []) ∨ (∃ tail, ds = 1#1 :: tail ∧
          (sym, tail) ∈ r.paths []) := by
  simp only [HTree.paths, List.nil_append, List.mem_append]
  rw [paths_path l [0#1], paths_path r [1#1]]
  simp only [List.mem_map, List.singleton_append, Prod.mk.injEq, Prod.exists]
  constructor
  · rintro (⟨a, b, h, rfl, rfl⟩ | ⟨a, b, h, rfl, rfl⟩)
    · exact .inl ⟨b, rfl, h⟩
    · exact .inr ⟨b, rfl, h⟩
  · rintro (⟨b, rfl, h⟩ | ⟨b, rfl, h⟩)
    · exact .inl ⟨sym, b, h, rfl, rfl⟩
    · exact .inr ⟨sym, b, h, rfl, rfl⟩

theorem paths_symbols (t : HTree) : ∀ path : List Bit, (t.paths path).map Prod.fst = t.leaves.map Prod.fst := by
  induction t with
  | leaf i sym f => intro path; rfl
  | node i f l r ihl ihr => intro path; simp [HTree.paths, HTree.leaves, ihl, ihr]

/-- The symbols of a code table are those of the tree's leaves. -/
theorem codes_symbols (t : HTree) : t.codes.map Prod.fst = t.leaves.map Prod.fst := by
  cases t with
  | leaf i sym f => rfl
  | node i f l r => exact paths_symbols _ _

/-! ### What a held tree's records say -/

theorem held_index {s : State} {t : HTree} (h : t.held s) : t.index < s.cfg.nnode := by
  cases t with
  | leaf i sym f => exact h.1
  | node i f l r => exact h.1

theorem ne_null_of_lt {s : State} (hc : s.cfg.Valid) {w : Word} (h : w.toNat < s.cfg.nnode) : w ≠ null := by
  intro e
  have h1 := hc.2.2.2.2.2.1.2
  have h2 : null.toNat = 4294967295 := rfl
  rw [e] at h
  omega

theorem held_leaf_childless {s : State} {i f : Nat} {sym : Cell} (h : (HTree.leaf i sym f).held s) :
    (s.node i).childless = true := by
  simp [TreeNode.childless, h.2.1, h.2.2.1]

theorem held_node_childless {s : State} (hc : s.cfg.Valid) {i f : Nat} {l r : HTree}
    (h : (HTree.node i f l r).held s) : ¬(s.node i).childless = true := by
  obtain ⟨_, h1, _, h2, _⟩ := h
  have h3 := ne_null_of_lt hc (w := (s.node i).left) (by rw [h1]; exact held_index h2)
  simp [TreeNode.childless, h3]

/-- The number of nodes of a tree. -/
def treeSize (t : HTree) : Nat := (treeIndices t).length

theorem treeSize_pos (t : HTree) : 0 < treeSize t := by
  cases t <;> simp [treeSize, treeIndices]

/-- Two trees held at the same record have the same shape, so the same size. -/
theorem held_size {s : State} (hc : s.cfg.Valid) (a : HTree) : ∀ b : HTree, a.held s → b.held s →
    a.index = b.index → treeSize a = treeSize b := by
  induction a with
  | leaf i sym f =>
    intro b ha hb h
    cases b with
    | leaf j sym' f' => rfl
    | node j f' l r =>
      have h' : i = j := h
      subst h'
      exact absurd (held_leaf_childless ha) (held_node_childless hc hb)
  | node i f l r ihl ihr =>
    intro b ha hb h
    cases b with
    | leaf j sym' f' =>
      have h' : i = j := h
      subst h'
      exact absurd (held_leaf_childless hb) (held_node_childless hc ha)
    | node j f' l' r' =>
      have h' : i = j := h
      subst h'
      obtain ⟨_, a1, a2, a3, a4⟩ := ha
      obtain ⟨_, b1, b2, b3, b4⟩ := hb
      have h1 := ihl l' a3 b3 (by omega)
      have h2 := ihr r' a4 b4 (by omega)
      simp only [treeSize, treeIndices, List.length_append] at *
      omega

/-! ### The walk along a path -/

theorem walkStep_bit (s : State) (i : Nat) (d : Bit) (w : Walk) :
    walkStep s i (bitCell d) w = walkMove s i (if d = 1#1 then .right else .left) w := by
  have h : d = 0#1 ∨ d = 1#1 := by
    revert d
    decide
  rcases h with rfl | rfl
  · simp only [walkStep, show bitCell 0#1 = ch0 from rfl, direction_ch0]
    rfl
  · simp only [walkStep, show bitCell 1#1 = ch1 from rfl, direction_ch1]
    rfl

/-- One digit from an internal node to a child that is held. -/
theorem walkMove_held {s : State} (hc : s.cfg.Valid) {n f : Nat} {l r : HTree} (h : (HTree.node n f l r).held s)
    (i : Nat) (dir : Dir) (w : Walk) (hw : w.p.toNat = n) :
    walkMove s i dir w =
      match (match dir with | .left => l | .right => r) with
      | .leaf _ sym _ => emit s i sym s.root w
      | .node j _ _ _ => .ok { p := BitVec.ofNat 32 j, out := w.out } := by
  have hn := held_node_childless hc h
  obtain ⟨_, h1, h2, h3, h4⟩ := h
  have key : ∀ (child : HTree) (c : Word), c.toNat = child.index → child.held s → (s.node w.p.toNat).child dir = c →
      walkMove s i dir w =
        match child with
        | .leaf _ sym _ => emit s i sym s.root w
        | .node j _ _ _ => .ok { p := BitVec.ofNat 32 j, out := w.out } := by
    intro child c hi hh hch
    have hlt : c.toNat < s.cfg.nnode := by rw [hi]; exact held_index hh
    have hne : ¬c = null := ne_null_of_lt hc hlt
    unfold walkMove
    simp only [hch]
    rw [if_neg (by rw [hw]; exact hn), if_neg hne, if_neg (Nat.not_le.2 hlt)]
    cases child with
    | leaf j sym f' =>
      have hi' : c.toNat = j := hi
      rw [hi', if_pos (held_leaf_childless hh), hh.2.2.2.2, hh.2.2.2.1]
      rfl
    | node j f' l' r' =>
      have hi' : c.toNat = j := hi
      rw [hi', if_neg (held_node_childless hc hh), ← hi']
      simp
  cases dir with
  | left => exact key l (s.node n).left h1 h3 (by rw [hw]; rfl)
  | right => exact key r (s.node n).right h2 h4 (by rw [hw]; rfl)

/-- An emission looks at the shadow output alone, not at the walk position. -/
theorem emit_congr (s : State) (i : Nat) (sym : Cell) (next : Word) {w w' : Walk} (h : w.out = w'.out) :
    emit s i sym next w = emit s i sym next w' := by
  simp only [emit, h]

/-- A whole path from an internal node ends in the emission of its leaf's symbol, at the path's last digit. -/
theorem walkFrom_path {s : State} (hc : s.cfg.Valid) (t : HTree) : ∀ (sym : Cell) (d : Bit) (ds : List Bit) (i : Nat)
    (w : Walk), t.held s → (sym, d :: ds) ∈ t.paths [] → w.p.toNat = t.index →
    walkFrom s i ((d :: ds).map bitCell) w = emit s (i + ds.length) sym s.root w := by
  induction t with
  | leaf n sym' f =>
    intro sym d ds i w _ hm _
    simp [HTree.paths] at hm
  | node n f l r ihl ihr =>
    intro sym d ds i w hh hm hw
    have hstep := walkMove_held hc hh i (if d = 1#1 then .right else .left) w hw
    have key : ∀ child : HTree, child.held s → (sym, ds) ∈ child.paths [] →
        (∀ (d' : Bit) (ds' : List Bit) (i' : Nat) (w' : Walk), child.held s → (sym, d' :: ds') ∈ child.paths [] →
          w'.p.toNat = child.index →
          walkFrom s i' ((d' :: ds').map bitCell) w' = emit s (i' + ds'.length) sym s.root w') →
        (walkMove s i (if d = 1#1 then .right else .left) w =
          match child with
          | .leaf _ sym _ => emit s i sym s.root w
          | .node j _ _ _ => .ok { p := BitVec.ofNat 32 j, out := w.out }) →
        walkFrom s i ((d :: ds).map bitCell) w = emit s (i + ds.length) sym s.root w := by
      intro child hch hmem ih hmove
      cases child with
      | leaf j sym' f' =>
        simp only [HTree.paths, List.mem_singleton, Prod.mk.injEq] at hmem
        obtain ⟨rfl, rfl⟩ := hmem
        exact (walkFrom_one s i (bitCell d) w).trans ((walkStep_bit s i d w).trans hmove)
      | node j f' l' r' =>
        have hj : (BitVec.ofNat 32 j).toNat = j := by
          have h1 := held_index hch
          have h2 := hc.2.2.2.2.2.1.2
          have h3 : (HTree.node j f' l' r').index = j := rfl
          simp only [BitVec.toNat_ofNat]
          omega
        rw [List.map_cons, walkFrom_cons_ok ((walkStep_bit s i d w).trans hmove)]
        cases ds with
        | nil => rw [mem_paths_node] at hmem; simp at hmem
        | cons d' ds' =>
          rw [ih d' ds' (i + 1) _ hch hmem hj, List.length_cons, show i + 1 + ds'.length = i + (ds'.length + 1) by omega]
          exact emit_congr _ _ _ _ rfl
    rcases mem_paths_node.1 hm with ⟨tail, he, hm⟩ | ⟨tail, he, hm⟩
    · obtain ⟨rfl, rfl⟩ := List.cons.inj he
      exact key l hh.2.2.2.1 hm (fun d' ds' i' w' => ihl sym d' ds' i' w') hstep
    · obtain ⟨rfl, rfl⟩ := List.cons.inj he
      exact key r hh.2.2.2.2 hm (fun d' ds' i' w' => ihr sym d' ds' i' w') hstep

theorem ne_nil_of_mem_codes {t : HTree} {sym : Cell} {ds : List Bit} (h : (sym, ds) ∈ t.codes) : ds ≠ [] := by
  cases t with
  | leaf n sym' f =>
    simp only [HTree.codes, List.mem_singleton, Prod.mk.injEq] at h
    simp [h.2]
  | node n f l r =>
    have h' : (sym, ds) ∈ (HTree.node n f l r).paths [] := h
    rcases mem_paths_node.1 h' with ⟨tail, rfl, _⟩ | ⟨tail, rfl, _⟩ <;> simp

/-- One code from ROOT ends in the emission of its symbol, at its last digit; the one-leaf tree included. -/
theorem walkFrom_code {s : State} (hc : s.cfg.Valid) {t : HTree} (hh : t.held s) (hr : s.root.toNat = t.index)
    {sym : Cell} {ds : List Bit} (hm : (sym, ds) ∈ t.codes) (i : Nat) (out : List Cell) :
    walkFrom s i (ds.map bitCell) { p := s.root, out := out } =
      emit s (i + (ds.length - 1)) sym s.root { p := s.root, out := out } := by
  cases t with
  | leaf n sym' f =>
    simp only [HTree.codes, List.mem_singleton, Prod.mk.injEq] at hm
    obtain ⟨rfl, rfl⟩ := hm
    have hr' : s.root.toNat = n := hr
    have hmove : walkMove s i .left { p := s.root, out := out } = emit s i sym s.root { p := s.root, out := out } := by
      unfold walkMove
      simp only [hr', held_leaf_childless hh, hh.2.2.2.2, hh.2.2.2.1, if_true]
      rw [if_neg (by simp), if_neg (by simp)]
    exact (walkFrom_one s i (bitCell 0#1) _).trans ((walkStep_bit s i 0#1 _).trans hmove)
  | node n f l r =>
    cases ds with
    | nil => exact absurd rfl (ne_nil_of_mem_codes hm)
    | cons d ds => exact walkFrom_path hc _ sym d ds i _ hh hm hr

/-- Codes one after another emit their symbols one after another. -/
theorem walkFrom_codes {s : State} (hc : s.cfg.Valid) {t : HTree} (hh : t.held s) (hr : s.root.toNat = t.index)
    (leaves : List (Cell × List Bit)) : ∀ (i : Nat) (out : List Cell), (∀ leaf ∈ leaves, leaf ∈ t.codes) →
    out.length + leaves.length ≤ s.cfg.nout →
    walkFrom s i (leaves.map fun leaf => leaf.2.map bitCell).flatten { p := s.root, out := out } =
      .ok { p := s.root, out := out ++ leaves.map Prod.fst } := by
  induction leaves with
  | nil => intro i out _ _; simp [walkFrom]
  | cons leaf leaves ih =>
    intro i out hm ho
    simp only [List.length_cons] at ho
    rw [List.map_cons, List.flatten_cons, walkFrom_append,
      walkFrom_code hc hh hr (hm leaf (by simp)) i out, emit, if_neg (by simp only; omega)]
    simp only
    rw [ih _ _ (fun x hx => hm x (by simp [hx])) (by simp only [List.length_append, List.length_singleton]; omega)]
    simp

/-- A path cut short ends on an internal node further down, with nothing emitted. -/
theorem walkFrom_cut {s : State} (hc : s.cfg.Valid) (t : HTree) : ∀ (sym : Cell) (cut left : List Bit) (i : Nat)
    (w : Walk), t.held s → (sym, cut ++ left) ∈ t.paths [] → left ≠ [] → w.p.toNat = t.index →
    ∃ (w' : Walk) (t' : HTree), walkFrom s i (cut.map bitCell) w = .ok w' ∧ w'.out = w.out ∧ t'.held s ∧
      w'.p.toNat = t'.index ∧ treeSize t' + cut.length ≤ treeSize t := by
  induction t with
  | leaf n sym' f =>
    intro sym cut left i w _ hm hl _
    simp only [HTree.paths, List.mem_singleton, Prod.mk.injEq, List.append_eq_nil_iff] at hm
    exact absurd hm.2.2 hl
  | node n f l r ihl ihr =>
    intro sym cut left i w hh hm hl hw
    cases cut with
    | nil => exact ⟨w, _, rfl, rfl, hh, hw, by simp⟩
    | cons d cut =>
      have hstep := walkMove_held hc hh i (if d = 1#1 then .right else .left) w hw
      have key : ∀ child : HTree, child.held s → (sym, cut ++ left) ∈ child.paths [] →
          treeSize child + 1 ≤ treeSize (.node n f l r) →
          (∀ (i : Nat) (w : Walk), child.held s → (sym, cut ++ left) ∈ child.paths [] → left ≠ [] →
            w.p.toNat = child.index →
            ∃ (w' : Walk) (t' : HTree), walkFrom s i (cut.map bitCell) w = .ok w' ∧ w'.out = w.out ∧ t'.held s ∧
              w'.p.toNat = t'.index ∧ treeSize t' + cut.length ≤ treeSize child) →
          (walkMove s i (if d = 1#1 then .right else .left) w =
            match child with
            | .leaf _ sym _ => emit s i sym s.root w
            | .node j _ _ _ => .ok { p := BitVec.ofNat 32 j, out := w.out }) →
          ∃ (w' : Walk) (t' : HTree), walkFrom s i ((d :: cut).map bitCell) w = .ok w' ∧ w'.out = w.out ∧
            t'.held s ∧ w'.p.toNat = t'.index ∧ treeSize t' + (d :: cut).length ≤ treeSize (.node n f l r) := by
        intro child hch hmem hsz ih hmove
        cases child with
        | leaf j sym' f' =>
          simp only [HTree.paths, List.mem_singleton, Prod.mk.injEq, List.append_eq_nil_iff] at hmem
          exact absurd hmem.2.2 hl
        | node j f' l' r' =>
          have hj : (BitVec.ofNat 32 j).toNat = j := by
            have h1 := held_index hch
            have h2 := hc.2.2.2.2.2.1.2
            have h3 : (HTree.node j f' l' r').index = j := rfl
            simp only [BitVec.toNat_ofNat]
            omega
          obtain ⟨w', t', h1, h2, h3, h4, h5⟩ := ih (i + 1) { p := BitVec.ofNat 32 j, out := w.out } hch hmem hl hj
          refine ⟨w', t', ?_, h2, h3, h4, ?_⟩
          · rw [List.map_cons, walkFrom_cons_ok ((walkStep_bit s i d w).trans hmove)]
            exact h1
          · simp only [List.length_cons]
            omega
      have hsz : treeSize l + 1 ≤ treeSize (.node n f l r) ∧ treeSize r + 1 ≤ treeSize (.node n f l r) := by
        simp only [treeSize, treeIndices, List.length_append, List.length_singleton]
        omega
      rcases mem_paths_node.1 hm with ⟨tail, he, hm⟩ | ⟨tail, he, hm⟩
      · obtain ⟨rfl, rfl⟩ := List.cons.inj he
        exact key l hh.2.2.2.1 hm hsz.1 (ihl sym cut left) hstep
      · obtain ⟨rfl, rfl⟩ := List.cons.inj he
        exact key r hh.2.2.2.2 hm hsz.2 (ihr sym cut left) hstep

end Sys2Proof.Machine
end

