-- ==== Sys2Proof/Laws/Host.lean ====
section
/-! SUPPORT. The host's scripts: a list of events in two parts, one element written, what a tree and a code entry
hold after it (30_encoding R108, R109; 45_host R211 to R216). -/

namespace Sys2Proof.Machine

open Sys2Proof

theorem performAll_append (a b : List HostEvent) : ∀ s, performAll (a ++ b) s =
    match performAll a s with
    | .next t => performAll b t
    | .fault r => .fault r
    | .refused r => .refused r := by
  induction a with
  | nil => intro s; rfl
  | cons e a ih =>
    intro s
    simp only [List.cons_append, performAll]
    cases perform e s with
    | next t => exact ih t
    | fault r => rfl
    | refused r => rfl

theorem performAll_append_next {a b : List HostEvent} {s t : State} (h : performAll a s =
    .next t) : performAll (a ++ b) s = performAll b t := by
  rw [performAll_append, h]

theorem perform_wrElem {s : State} (hc : s.cfg.Valid) {f : Field} {k : Nat} (hk : k < s.cfg.capacity f) (v : Word)
    : perform (wrElem f k v) s = .next ((s.setElement f k v).respond .okWrite) := by
  simp only [wrElem, perform, portWrite, locate_element hc hk]
  rfl

/-- One element written: the state it leaves, with the parameters and ROOT as they were. -/
theorem perform_wrElem_next {s : State} (hc : s.cfg.Valid) {f : Field} {k : Nat} (hk : k < s.cfg.capacity f) (v :
    Word) : ∃ u, perform (wrElem f k v) s = .next u ∧ u = (s.setElement f k v).respond .okWrite ∧ u.cfg = s.cfg ∧
    u.root = s.root := by
  refine ⟨_, perform_wrElem hc hk v, rfl, ?_, ?_⟩ <;> cases f <;> rfl

theorem node_setLeft (s : State) (n j : Nat) (v : Word) (r : PortResponse) : ((s.setElement .treeLeft n v).respond
    r).node j = if j = n then { s.node j with left := v } else s.node j := by
  by_cases h : j = n <;> simp [h, State.node, State.setElement, State.respond, State.free, Memory.read_write]

theorem node_setRight (s : State) (n j : Nat) (v : Word) (r : PortResponse) : ((s.setElement .treeRight n
    v).respond r).node j = if j = n then { s.node j with right := v } else s.node j := by
  by_cases h : j = n <;> simp [h, State.node, State.setElement, State.respond, State.free, Memory.read_write]

theorem node_setSym (s : State) (n j : Nat) (v : Word) (r : PortResponse) : ((s.setElement .treeSym n v).respond
    r).node j = if j = n then { s.node j with sym := v.setWidth symw } else s.node j := by
  by_cases h : j = n <;> simp [h, State.node, State.setElement, State.respond, State.free, Memory.read_write]

theorem node_setLeaf (s : State) (n j : Nat) (v : Word) (r : PortResponse) : ((s.setElement .treeLeaf n v).respond
    r).node j = if j = n then { s.node j with leaf := v.setWidth 1 } else s.node j := by
  by_cases h : j = n <;> simp [h, State.node, State.setElement, State.respond, State.free, Memory.read_write]

theorem codeEntry_setSym (s : State) (n j : Nat) (v : Word) (r : PortResponse) : ((s.setElement .codeSym n
    v).respond r).codeEntry j = if j = n then { s.codeEntry j with sym := v.setWidth symw } else s.codeEntry j := by
  by_cases h : j = n <;> simp [h, State.codeEntry, State.setElement, State.respond, State.free, Memory.read_write]

theorem codeEntry_setLen (s : State) (n j : Nat) (v : Word) (r : PortResponse) : ((s.setElement .codeLen n
    v).respond r).codeEntry j = if j = n then { s.codeEntry j with len := v } else s.codeEntry j := by
  by_cases h : j = n <;> simp [h, State.codeEntry, State.setElement, State.respond, State.free, Memory.read_write]

theorem codeEntry_setBase (s : State) (n j : Nat) (v : Word) (r : PortResponse) : ((s.setElement .codeBase n
    v).respond r).codeEntry j = if j = n then { s.codeEntry j with base := v } else s.codeEntry j := by
  by_cases h : j = n <;> simp [h, State.codeEntry, State.setElement, State.respond, State.free, Memory.read_write]

theorem insertNode_perm (t : HTree) (l : List HTree) : (insertNode t l).Perm (t :: l) := by
  induction l with
  | nil => exact List.Perm.refl _
  | cons x l ih =>
    unfold insertNode; split
    · exact List.Perm.refl _
    · exact (List.Perm.cons x ih).trans (List.Perm.swap _ _ _)

theorem freq_leaves {t : HTree} (h : t.Conserves) : t.freq = (t.leaves.map Prod.snd).sum := by
  induction t with
  | leaf i s f => simp [HTree.freq, HTree.leaves]
  | node i f l r ihl ihr =>
    obtain ⟨h1, h2, h3⟩ := h
    simp only [HTree.freq, HTree.leaves, List.map_append, List.sum_append, ← ihl h2, ← ihr h3, h1]

end Sys2Proof.Machine
end

