-- ==== Sys2Proof/Laws/HostFiles.lean ====
section
/-! SUPPORT. What the host's loading and reading do: a text in IN, a table in FREQ, a command run and checked, the
result and the table read back through the port (30_encoding R108; 45_host R219 to R222). -/

namespace Sys2Proof.Machine

open Sys2Proof

/-- `cmd MNEMONIC` runs the command on the state that holds its word in CMD (R30, R108). -/
theorem perform_cmdEvent (i : Instr) (s : State) :
    perform (cmdEvent i) s = exec i { s with cmd := encode i, response := some .okWrite } := by
  show startCommand (encode i) (s.respond .okWrite) = _
  rw [startCommand, decodeWord_encode]
  rfl

/-- Events, then a command that completes: the check finds no fault. -/
theorem runChecked_cmd {events : List HostEvent} {i : Instr} {s t u : State} (h : performAll events s = .next t)
    (hx : exec i { t with cmd := encode i, response := some .okWrite } = .next u) (he : u.err = 0#8) :
    runChecked (events ++ [cmdEvent i]) s = some u := by
  rw [runChecked, performAll_append_next h]
  simp only [performAll, perform_cmdEvent, hx, he, if_true]

/-! ### Loading -/

theorem setWidth_cell (c : Cell) : (c.setWidth 32).setWidth symw = c := by
  rw [BitVec.setWidth_setWidth_of_le _ (by decide)]
  simp

theorem inCell_setInput (s : State) (k j : Nat) (c : Cell) (r : PortResponse) :
    ((s.setElement .input k (c.setWidth 32)).respond r).inCell j = if j = k then c else s.inCell j := by
  by_cases h : j = k <;>
    simp [h, State.inCell, State.setElement, State.respond, State.free, Memory.read_write, setWidth_cell]

theorem freqEntry_setSym (s : State) (n j : Nat) (v : Word) (r : PortResponse) :
    ((s.setElement .freqSym n v).respond r).freqEntry j =
      if j = n then (v.setWidth symw, (s.freqEntry j).2) else s.freqEntry j := by
  by_cases h : j = n <;> simp [h, State.freqEntry, State.setElement, State.respond, State.free, Memory.read_write]

theorem freqEntry_setCount (s : State) (n j : Nat) (v : Word) (r : PortResponse) :
    ((s.setElement .freqCount n v).respond r).freqEntry j =
      if j = n then ((s.freqEntry j).1, v) else s.freqEntry j := by
  by_cases h : j = n <;> simp [h, State.freqEntry, State.setElement, State.respond, State.free, Memory.read_write]

/-- Cells written to IN from index `k` on. -/
theorem performAll_ldInput (cells : List Cell) : ∀ (s : State) (k : Nat), s.cfg.Valid → k + cells.length ≤ s.cfg.nin →
    ∃ t, performAll (ldcellsFrom .input k (cells.map fun c => c.setWidth 32)) s = .next t ∧ t.cfg = s.cfg ∧
      (∀ j < k, t.inCell j = s.inCell j) ∧ ∀ (j : Nat) (h : j < cells.length), t.inCell (k + j) = cells[j] := by
  induction cells with
  | nil => intro s k _ _; exact ⟨s, rfl, rfl, fun _ _ => rfl, by simp⟩
  | cons c cells ih =>
    intro s k hc hk
    simp only [List.length_cons] at hk
    obtain ⟨u, p1, e1, c1, _⟩ := perform_wrElem_next hc (f := .input) (k := k) (show k < s.cfg.nin by omega)
      (c.setWidth 32)
    obtain ⟨t, a1, a2, a3, a4⟩ := ih u (k + 1) (c1 ▸ hc) (by rw [c1]; omega)
    refine ⟨t, by simp only [List.map_cons, ldcellsFrom, performAll, p1]; exact a1, by rw [a2, c1],
      fun j hj => ?_, fun j hj => ?_⟩
    · rw [a3 j (by omega), e1, inCell_setInput, if_neg (by omega)]
    · cases j with
      | zero => rw [Nat.add_zero, a3 k (by omega), e1, inCell_setInput, if_pos rfl]; rfl
      | succ j =>
        have := a4 j (by simpa using hj)
        rw [show k + (j + 1) = k + 1 + j by omega, this]
        rfl

/-- A text that fits IN, loaded: the input is the text. -/
theorem performAll_loadInput {s : State} (hc : s.cfg.Valid) (cells : List Cell) (hl : cells.length ≤ s.cfg.nin) :
    ∃ t, performAll (loadInput cells) s = .next t ∧ t.cfg = s.cfg ∧ t.ilen.toNat = cells.length ∧ t.input = cells := by
  obtain ⟨t, a1, a2, _, a4⟩ := performAll_ldInput cells s 0 hc (by omega)
  have hn : (BitVec.ofNat 32 cells.length).toNat = cells.length := toNat_ofNat_of_le hl (by have := hc.1.2; omega)
  refine ⟨{ t with ilen := BitVec.ofNat 32 cells.length, response := some .okWrite }, ?_, a2, hn, ?_⟩
  · rw [loadInput, ldstr, ldcells, performAll_append_next a1]
    rfl
  · apply List.ext_getElem
    · rw [input_length]
      exact hn
    · intro j h1 h2
      have h3 := a4 j h2
      rw [Nat.zero_add] at h3
      simp only [State.input, List.getElem_map, List.getElem_range]
      exact h3

/-- A table written to FREQ from entry `e` on, then FCNT. -/
theorem performAll_loadFreq (table : List (Cell × Nat)) : ∀ (s : State) (e : Nat), s.cfg.Valid →
    e + table.length ≤ s.cfg.nfreq →
    ∃ t, performAll (loadFreqFrom e table) s = .next t ∧ t.cfg = s.cfg ∧ t.fcnt.toNat = e + table.length ∧
      (∀ j < e, t.freqEntry j = s.freqEntry j) ∧
      ∀ (j : Nat) (h : j < table.length), t.freqEntry (e + j) = (table[j].1, BitVec.ofNat 32 table[j].2) := by
  induction table with
  | nil =>
    intro s e hc he
    refine ⟨{ s with fcnt := BitVec.ofNat 32 e, response := some .okWrite }, rfl, rfl, ?_, fun _ _ => rfl, by simp⟩
    exact toNat_ofNat_of_le he (by have := hc.2.2.2.2.2.2.2; omega)
  | cons x table ih =>
    obtain ⟨sym, n⟩ := x
    intro s e hc he
    simp only [List.length_cons] at he
    obtain ⟨u1, p1, e1, c1, _⟩ := perform_wrElem_next hc (f := .freqSym) (k := e) (show e < s.cfg.nfreq by omega)
      (sym.setWidth 32)
    obtain ⟨u2, p2, e2, c2, _⟩ := perform_wrElem_next (s := u1) (c1 ▸ hc) (f := .freqCount) (k := e)
      (show e < u1.cfg.nfreq by rw [c1]; omega) (BitVec.ofNat 32 n)
    have hcfg : u2.cfg = s.cfg := by rw [c2, c1]
    have hu : ∀ j, u2.freqEntry j = if j = e then (sym, BitVec.ofNat 32 n) else s.freqEntry j := by
      intro j
      rw [e2, freqEntry_setCount, e1, freqEntry_setSym, setWidth_cell]
      by_cases h : j = e <;> simp [h]
    obtain ⟨t, a1, a2, a3, a4, a5⟩ := ih u2 (e + 1) (hcfg ▸ hc) (by rw [hcfg]; omega)
    refine ⟨t, by simp only [loadFreqFrom, freqScript, List.cons_append, List.nil_append, performAll, p1, p2]; exact a1,
      by rw [a2, hcfg], by rw [a3, List.length_cons]; omega, fun j hj => ?_, fun j hj => ?_⟩
    · rw [a4 j (by omega), hu, if_neg (by omega)]
    · cases j with
      | zero => rw [Nat.add_zero, a4 e (by omega), hu, if_pos rfl]; rfl
      | succ j =>
        have := a5 j (by simpa using hj)
        rw [show e + (j + 1) = e + 1 + j by omega, this]
        rfl

/-- A table that fits FREQ, loaded: the table the state holds. -/
theorem performAll_loadTable {s : State} (hc : s.cfg.Valid) (table : List (Cell × Nat))
    (hl : table.length ≤ s.cfg.nfreq) :
    ∃ t, performAll (loadFreqFrom 0 table) s = .next t ∧ t.cfg = s.cfg ∧ t.fcnt.toNat = table.length ∧
      t.table = table.map fun entry => (entry.1, BitVec.ofNat 32 entry.2) := by
  obtain ⟨t, a1, a2, a3, _, a5⟩ := performAll_loadFreq table s 0 hc (by omega)
  rw [Nat.zero_add] at a3
  refine ⟨t, a1, a2, a3, ?_⟩
  apply List.ext_getElem
  · rw [table_length, a3, List.length_map]
  · intro j h1 h2
    have h3 := a5 j (by simpa using h2)
    rw [Nat.zero_add] at h3
    simpa [State.table] using h3

/-! ### Reading -/

/-- The word read at the address of an element is the element. -/
theorem rdWord_rdElem {s : State} (hc : s.cfg.Valid) {f : Field} {k : Nat} (hk : k < s.cfg.capacity f) :
    rdWord (rdElem f k) s = some (s.element f k) := by
  simp only [rdWord, rdElem, perform, portRead, locate_element hc hk]
  rfl

/-- The word read at the offset of a register is the register as the port shows it. -/
theorem rdWord_rdReg (r : Reg) (s : State) : rdWord (rdReg r) s = some (s.readReg r) := by
  cases r <;> rfl

theorem mapM_some {α β : Type} {f : α → Option β} {g : α → β} (l : List α) (h : ∀ x ∈ l, f x = some (g x)) :
    l.mapM f = some (l.map g) := by
  induction l with
  | nil => rfl
  | cons x l ih =>
    rw [List.mapM_cons, h x (by simp), ih fun y hy => h y (by simp [hy])]
    rfl

/-- Reading the result gives `State.output`. -/
theorem readOutput_eq {s : State} (hc : s.cfg.Valid) (h : s.olen.toNat ≤ s.cfg.nout) : readOutput s = some s.output := by
  rw [readOutput, rdWord_rdReg]
  refine (mapM_some (g := s.outCell) _ fun i hi => ?_)
  have hi' : i < s.olen.toNat := List.mem_range.1 hi
  rw [rdWord_rdElem hc (show i < s.cfg.nout by omega)]
  exact congrArg some (setWidth_cell (s.outCell i))

/-- Reading the table gives FCNT, WARN and `State.table`. -/
theorem readTable_eq {s : State} (hc : s.cfg.Valid) (h : s.fcnt.toNat ≤ s.cfg.nfreq) :
    readTable s = some { fcnt := s.fcnt, warn := s.warn, table := s.table } := by
  have hm : ((List.range s.fcnt.toNat).mapM fun e =>
      (rdWord (rdElem .freqSym e) s).bind fun sym =>
      (rdWord (rdElem .freqCount e) s).map fun count => (sym.setWidth symw, count)) =
      some ((List.range s.fcnt.toNat).map s.freqEntry) :=
    mapM_some _ fun e he => by
      have he' : e < s.fcnt.toNat := List.mem_range.1 he
      rw [rdWord_rdElem hc (show e < s.cfg.nfreq by omega), rdWord_rdElem hc (show e < s.cfg.nfreq by omega)]
      exact congrArg (fun c => some (c, (s.freqEntry e).2)) (setWidth_cell (s.freqEntry e).1)
  rw [readTable, rdWord_rdReg, rdWord_rdReg]
  exact congrArg (Option.map fun table => ({ fcnt := s.fcnt, warn := s.warn, table := table } : TableReading)) hm

/-! ### Line ends -/

/-- Cells of one line, with no newline and no CH_CR at the end, stand as they are before a newline. -/
theorem dropLineEndCR_line (l rest : List Cell) (hn : chNL ∉ l) (hr : l.getLast? ≠ some chCR) :
    dropLineEndCR (l ++ chNL :: rest) = l ++ chNL :: dropLineEndCR rest := by
  induction l with
  | nil => rw [List.nil_append, dropLineEndCR, if_neg (by rintro ⟨h, _⟩; revert h; decide)]; rfl
  | cons c l ih =>
    simp only [List.mem_cons, not_or] at hn
    have hrest : dropLineEndCR (l ++ chNL :: rest) = l ++ chNL :: dropLineEndCR rest := by
      refine ih hn.2 fun h => hr ?_
      rw [List.getLast?_cons, h]
      rfl
    rw [List.cons_append, dropLineEndCR, if_neg, hrest]
    · rfl
    · rintro ⟨rfl, h⟩
      cases l with
      | nil => exact hr rfl
      | cons d l =>
        rcases h with h | h
        · cases h
        · exact hn.2 (by rw [← Option.some.inj h]; exact List.mem_cons_self)

/-- The CH_CR of a CR LF line end is dropped. -/
theorem dropLineEndCR_crlf (l rest : List Cell) (hn : chNL ∉ l) (hr : l.getLast? ≠ some chCR) :
    dropLineEndCR (l ++ chCR :: chNL :: rest) = l ++ chNL :: dropLineEndCR rest := by
  induction l with
  | nil =>
    rw [List.nil_append, dropLineEndCR, if_pos ⟨rfl, .inr rfl⟩]
    exact dropLineEndCR_line [] rest hn (by simp)
  | cons c l ih =>
    simp only [List.mem_cons, not_or] at hn
    have hrest : dropLineEndCR (l ++ chCR :: chNL :: rest) = l ++ chNL :: dropLineEndCR rest := by
      refine ih hn.2 fun h => hr ?_
      rw [List.getLast?_cons, h]
      rfl
    rw [List.cons_append, dropLineEndCR, if_neg, hrest]
    · rfl
    · rintro ⟨rfl, h⟩
      cases l with
      | nil => exact hr rfl
      | cons d l =>
        rcases h with h | h
        · cases h
        · exact hn.2 (by rw [← Option.some.inj h]; exact List.mem_cons_self)

end Sys2Proof.Machine
end

