-- ==== Sys2Proof/Laws/PerInstr.lean ====
section
/-! SUPPORT. The families of statements made once for each command. -/

namespace Sys2Proof.Laws

open Sys2Proof

/-- A well-formed command's word decodes to it, by its row of the command map (30_encoding R100). -/
def RoundTrip.Statement (i : Instr) : Prop :=
  i.wellFormed = true → decodeWord (encode i) = .ok i ∧ encode i &&& commandMask i = encode i

theorem RoundTrip.nop : RoundTrip.Statement .nop := fun _ => ⟨rfl, rfl⟩
theorem RoundTrip.enc : RoundTrip.Statement .enc := fun _ => ⟨rfl, rfl⟩
theorem RoundTrip.dec : RoundTrip.Statement .dec := fun _ => ⟨rfl, rfl⟩
theorem RoundTrip.xor : RoundTrip.Statement .xor := fun _ => ⟨rfl, rfl⟩
theorem RoundTrip.fparse : RoundTrip.Statement .fparse := fun _ => ⟨rfl, rfl⟩
theorem RoundTrip.fser : RoundTrip.Statement .fser := fun _ => ⟨rfl, rfl⟩

end Sys2Proof.Laws
end

