-- ==== Sys2Proof/Tests/Slice0.lean ====
section
/-! SUPPORT. The model's own tests: ill-formed parameters refused, command words written out bit by bit, one step of
each command against the vectors of 95_test_vectors, and for each obligation with hypotheses a state that meets them. -/

namespace Sys2Proof.Tests

open Sys2Proof Sys2Proof.Machine

set_option Elab.async false

/-! ### Well-formedness: each bound of R6, below and above -/

theorem test_reference_valid : Config.reference.Valid := by decide
theorem test_nin_low : ¬({ Config.reference with nin := 0 } : Config).Valid := by decide
theorem test_nin_high : ¬({ Config.reference with nin := 2 ^ 22 + 1 } : Config).Valid := by decide
theorem test_nout_low : ¬({ Config.reference with nout := 0 } : Config).Valid := by decide
theorem test_nout_high : ¬({ Config.reference with nout := 2 ^ 22 + 1 } : Config).Valid := by decide
theorem test_nkey_low : ¬({ Config.reference with nkey := 0 } : Config).Valid := by decide
theorem test_nkey_high : ¬({ Config.reference with nkey := 2 ^ 22 + 1 } : Config).Valid := by decide
theorem test_ncode_low : ¬({ Config.reference with ncode := 0 } : Config).Valid := by decide
theorem test_ncode_high : ¬({ Config.reference with ncode := 2 ^ 20 + 1 } : Config).Valid := by decide
theorem test_ncdig_low : ¬({ Config.reference with ncdig := 0 } : Config).Valid := by decide
theorem test_ncdig_high : ¬({ Config.reference with ncdig := 2 ^ 22 + 1 } : Config).Valid := by decide
theorem test_nnode_low : ¬({ Config.reference with nnode := 0 } : Config).Valid := by decide
theorem test_nnode_high : ¬({ Config.reference with nnode := 2 ^ 20 + 1 } : Config).Valid := by decide
theorem test_nfreq_low : ¬({ Config.reference with nfreq := 0 } : Config).Valid := by decide
theorem test_nfreq_high : ¬({ Config.reference with nfreq := 2 ^ 20 + 1 } : Config).Valid := by decide

/-! ### Decoding: the words of R100 written out bit by bit, and the illegal words of R101 -/

theorem test_decode_nop : decodeWord 0b00000000000000000000000000000000#32 = .ok .nop := by decide
theorem test_decode_enc : decodeWord 0b00000000000000000000000000000001#32 = .ok .enc := by decide
theorem test_decode_dec : decodeWord 0b00000000000000000000000000000010#32 = .ok .dec := by decide
theorem test_decode_xor : decodeWord 0b00000000000000000000000000000011#32 = .ok .xor := by decide
theorem test_decode_fparse : decodeWord 0b00000000000000000000000000000100#32 = .ok .fparse := by decide
theorem test_decode_fser : decodeWord 0b00000000000000000000000000000101#32 = .ok .fser := by decide
/-- OPC 6 and OPC 0xFF: reserved. -/
theorem test_decode_reserved : decodeWord 0b00000000000000000000000000000110#32 = .error .reservedOpc ∧
    decodeWord 0b00000000000000000000000011111111#32 = .error .reservedOpc := by decide
/-- The lowest and the highest bit of ZERO, with a legal OPC below. -/
theorem test_decode_zero_field : decodeWord 0b00000000000000000000000100000001#32 = .error .zeroField ∧
    decodeWord 0b10000000000000000000000000000001#32 = .error .zeroField := by decide
/-- Little-endian bytes (R67): the OPC byte comes first. -/
theorem test_decode_bytes : decode [0x02#8, 0x00#8, 0x00#8, 0x00#8, 0xAA#8] = .ok (.dec, [0xAA#8]) ∧
    decode [0x00#8, 0x00#8, 0x00#8, 0x02#8] = .error .zeroField ∧
    decode [0x02#8, 0x00#8, 0x00#8] = .error .truncated := by decide
theorem test_decodeTableWord : decodeTableWord 32 5 = some .fser ∧ decodeTableWord 32 0x105 = none := by decide

/-! ### A small instance with the tables of vector S1 -/

/-- Small capacities, so that every bound is within reach. -/
def small : Config := { nin := 17, nout := 17, nkey := 3, ncode := 4, ncdig := 8, nnode := 7, nfreq := 4 }

/-- The tables of S1 (95_test_vectors) loaded, the text `ab\ncab` in IN, the key `k3y` in KEY, OUT poisoned. -/
def codec : State :=
  { State.resetWith small with
    ilen := 6#32, klen := 3#32, ccnt := 4#32, root := 6#32, fcnt := 4#32
    inMem := Memory.writeFrom [] 0 [0x61#symw, 0x62#symw, 0x0A#symw, 0x63#symw, 0x61#symw, 0x62#symw]
    outMem := Memory.writeFrom [] 0 (List.replicate 17 0xFFFF#symw)
    keyMem := Memory.writeFrom [] 0 [0x6B#symw, 0x33#symw, 0x79#symw]
    codeSym := Memory.writeFrom [] 0 [0x61#symw, 0x62#symw, 0x0A#symw, 0x63#symw]
    codeLen := Memory.writeFrom [] 0 [2#32, 2#32, 2#32, 2#32]
    codeBase := Memory.writeFrom [] 0 [0#32, 2#32, 4#32, 6#32]
    cdig := Memory.writeFrom [] 0 [1#1, 0#1, 1#1, 1#1, 0#1, 0#1, 0#1, 1#1]
    treeLeft := Memory.writeFrom [] 0 [null, null, null, null, 2#32, 0#32, 4#32]
    treeRight := Memory.writeFrom [] 0 [null, null, null, null, 3#32, 1#32, 5#32]
    treeSym := Memory.writeFrom [] 0 [0x61#symw, 0x62#symw, 0x0A#symw, 0x63#symw, 0#symw, 0#symw, 0#symw]
    treeLeaf := Memory.writeFrom [] 0 [1#1, 1#1, 1#1, 1#1, 0#1, 0#1, 0#1]
    freqSym := Memory.writeFrom [] 0 [0x61#symw, 0x62#symw, 0x0A#symw, 0x63#symw]
    freqCount := Memory.writeFrom [] 0 [2#32, 2#32, 1#32, 1#32] }

/-- The tree of S1. -/
def s1Tree : HTree :=
  .node 6 6 (.node 4 2 (.leaf 2 0x0A#symw 1) (.leaf 3 0x63#symw 1)) (.node 5 4 (.leaf 0 0x61#symw 2) (.leaf 1 0x62#symw 2))

/-- The one-leaf tree of S2, at record 0. -/
def s2Tree : HTree := .leaf 0 0x61#symw 4

/-- `codec` with another input. -/
def withInput (cells : List Cell) : State :=
  { codec with ilen := BitVec.ofNat 32 cells.length, inMem := Memory.writeFrom [] 0 cells }

/-- The digit cells of `1011`, and of the whole text of S1. -/
def digits1011 : List Cell := [0x31#symw, 0x30#symw, 0x31#symw, 0x31#symw]
def digitsS1 : List Cell := [0x31#symw, 0x30#symw, 0x31#symw, 0x31#symw, 0x30#symw, 0x30#symw,
  0x30#symw, 0x31#symw, 0x31#symw, 0x30#symw, 0x31#symw, 0x31#symw]
/-- The ciphered payload of S1 (vector V3a). -/
def cipherS1 : List Cell := [0x5A#symw, 0x03#symw, 0x48#symw, 0x5A#symw, 0x03#symw, 0x49#symw,
  0x5B#symw, 0x02#symw, 0x48#symw, 0x5B#symw, 0x02#symw, 0x48#symw]

/-- The state after a command. -/
def after (i : Instr) (s : State) : State :=
  match exec i s with
  | .next t => t
  | .fault _ => s
  | .refused _ => s

theorem exec_after (i : Instr) (s : State) : exec i s = .next (after i s) := by
  obtain ⟨t, h⟩ := exec_total i s
  rw [after, h]

/-! ### One step of each command, against the vectors -/

/-- V6 and R200: NOP clears a fault and keeps OLEN. -/
theorem test_nop : (after .nop { codec with status := 0x103#32, errpos := 2#32, olen := 5#32 }).reg .status = 0x100#32 ∧
    (after .nop { codec with status := 0x103#32, errpos := 2#32, olen := 5#32 }).reg .olen = 5#32 := by decide +kernel
/-- V1. -/
theorem test_enc : (after .enc codec).output = digitsS1 ∧ (after .enc codec).status = 0x100#32 := by decide +kernel
/-- V1c: MissingCodeError at 2, nothing committed. -/
theorem test_enc_missing : (after .enc (withInput [0x61#symw, 0x62#symw, 0x7A#symw])).status = 0x102#32 ∧
    (after .enc (withInput [0x61#symw, 0x62#symw, 0x7A#symw])).errpos = 2#32 ∧
    (after .enc (withInput [0x61#symw, 0x62#symw, 0x7A#symw])).outCell 0 = 0xFFFF#symw := by decide +kernel
/-- V2h: deciphering and decoding in one command. -/
theorem test_dec_ciphered : (after .dec { withInput cipherS1 with ctrl := 3#32 }).output =
    [0x61#symw, 0x62#symw, 0x0A#symw, 0x63#symw, 0x61#symw, 0x62#symw] := by decide +kernel
/-- V2e and V2f: a cell that is no digit, under both values of STRICT. -/
theorem test_dec_strict :
    (after .dec (withInput [0x31#symw, 0x30#symw, 0x32#symw, 0x31#symw])).errpos = 2#32 ∧
    (after .dec { withInput [0x31#symw, 0x30#symw, 0x32#symw, 0x31#symw] with ctrl := 0#32 }).output =
      [0x61#symw, 0x62#symw] := by decide +kernel
/-- V3a. -/
theorem test_xor : (after .xor (withInput digitsS1)).output = cipherS1 := by decide +kernel
/-- V3d: the key is tested first. -/
theorem test_xor_key : (after .xor { codec with klen := 0#32, ilen := 0#32 }).status = 0x104#32 := by decide +kernel
/-- V4 (`a:2\nNL:1\n`). -/
theorem test_fparse : (after .fparse (withInput [0x61#symw, 0x3A#symw, 0x32#symw, 0x0A#symw, 0x4E#symw, 0x4C#symw,
    0x3A#symw, 0x31#symw, 0x0A#symw])).table = [(0x61#symw, 2#32), (0x0A#symw, 1#32)] := by decide +kernel
/-- V4d (`abc\n::5\n`): TableParseError at ILEN, two lines skipped. -/
theorem test_fparse_empty : (after .fparse (withInput [0x61#symw, 0x62#symw, 0x63#symw, 0x0A#symw, 0x3A#symw,
    0x3A#symw, 0x35#symw, 0x0A#symw])).status = 0x105#32 ∧
    (after .fparse (withInput [0x61#symw, 0x62#symw, 0x63#symw, 0x0A#symw, 0x3A#symw, 0x3A#symw, 0x35#symw,
      0x0A#symw])).errpos = 8#32 ∧
    (after .fparse (withInput [0x61#symw, 0x62#symw, 0x63#symw, 0x0A#symw, 0x3A#symw, 0x3A#symw, 0x35#symw,
      0x0A#symw])).warn = 2#32 := by decide +kernel
/-- V5a (`a:2\nb:2\nNL:1\nc:1\n`). -/
theorem test_fser : (after .fser codec).output = [0x61#symw, 0x3A#symw, 0x32#symw, 0x0A#symw, 0x62#symw, 0x3A#symw,
    0x32#symw, 0x0A#symw, 0x4E#symw, 0x4C#symw, 0x3A#symw, 0x31#symw, 0x0A#symw, 0x63#symw, 0x3A#symw, 0x31#symw,
    0x0A#symw] := by decide +kernel
/-- V5d: the largest count. -/
theorem test_fser_largest : (after .fser { codec with fcnt := 1#32, freqCount := [(0, 4294967295#32)] }).output =
    [0x61#symw, 0x3A#symw, 0x34#symw, 0x32#symw, 0x39#symw, 0x34#symw, 0x39#symw, 0x36#symw, 0x37#symw, 0x32#symw,
      0x39#symw, 0x35#symw, 0x0A#symw] := by decide +kernel

/-! ### The port, against the vectors V7 -/

/-- The port's answer to one event. -/
def answer (e : HostEvent) (s : State) : Option PortResponse :=
  match perform e s with
  | .next t => t.response
  | .fault _ => none
  | .refused _ => none

/-- V7, V7a, V7d, V7e, V7l and an access of two bytes. -/
theorem test_port_reads : answer (.read 0x00000008 4) State.reset = some (.okRead 1#32) ∧
    answer (.read 0x0000001C 4) State.reset = some (.okRead 0xFFFFFFFF#32) ∧
    answer (.read 0x0000002C 4) State.reset = some .busError ∧
    answer (.read 0x01000002 4) State.reset = some .busError ∧
    answer (.read 0x08000000 4) State.reset = some .busError ∧
    answer (.read 0x00000008 2) State.reset = some .busError := by decide +kernel
/-- V7b, V7f, V7i, V7j: what a write leaves to be read. -/
theorem test_port_writes :
    (State.reset.writeReg .ctrl 0xFFFFFFFF#32).readReg .ctrl = 3#32 ∧
    (State.reset.setElement .input 0 0x12345678#32).element .input 0 = 0x5678#32 ∧
    (State.reset.setElement .cdig 0 3#32).element .cdig 0 = 1#32 ∧
    answer (.read 0x0400000C 4) State.reset = some (.okRead 0#32) := by decide +kernel
/-- V6b: an illegal word keeps OLEN and is stored in CMD. -/
theorem test_illegal : illegalCommand { codec with cmd := 6#32, olen := 12#32 } =
    { codec with cmd := 6#32, olen := 12#32, status := 0x108#32 } := by decide +kernel
/-- A command word in the queue is run by the next step, and `withFetchWord` puts it there. -/
theorem test_step_runs : (match step (State.reset.withFetchWord 32 1) with
    | .next t => (t.cmd, t.status)
    | .fault _ => (0#32, 0#32)
    | .refused _ => (0#32, 0#32)) = (1#32, 0x101#32) := by decide +kernel
/-- A word stored at index 0 and one at the last index stand in order, and a second write to an index replaces. -/
theorem test_memory_canonical : Memory.write (Memory.write (Memory.write [] 16 1#32) 0 2#32) 16 3#32 =
    [(0, 2#32), (16, 3#32)] ∧ Memory.wf 17 [(0, 2#32), (16, 3#32)] = true ∧ Memory.wf 16 [(0, 2#32), (16, 3#32)] = false ∧
    Memory.wf 17 [(16, 3#32), (0, 2#32)] = false := by decide

/-! ### Witnesses: for each obligation with hypotheses, a state and operands that meet them -/

/-- Checks a list element by element. -/
theorem forall_of_all {α : Type} {l : List α} {p : α → Prop} [DecidablePred p]
    (h : l.all (fun x => decide (p x)) = true) : ∀ x ∈ l, p x := by
  simpa using h

theorem codec_valid : codec.cfg.Valid := by decide

theorem witness_DecodeMatchesCommandMap : (0x00000005#32 &&& 0xFFFFFFFF#32 = 0x00000005#32) ∧
    (0x00000100#32 : Word).toNat / 2 ^ 8 ≠ 0 ∧ 5 < (0x00000006#32 : Word).toNat % 2 ^ 8 := by decide
theorem witness_DecodeEncodeBytesAgree : Instr.fser.wellFormed = true ∧
    decode [0x05#8, 0x00#8, 0x00#8, 0x00#8, 0x07#8] = .ok (.fser, [0x07#8]) := by decide
theorem witness_StepRunsDecodedCommand : decodeWord 0x3#32 = .ok .xor ∧
    ({ codec with pending := [.write 0 4 0x3#32, .reset] } : State).pending = .write 0 4 0x3#32 :: [.reset] ∧
    ({ codec with pending := [.read 8 4] } : State).pending = .read 8 4 :: [] ∧
    ({ codec with pending := [.reset] } : State).pending = .reset :: [] := by decide
/-- Both kinds of illegal word, at the edges: the lowest bit of ZERO, and OPC 6. -/
theorem witness_IllegalWordEffect :
    ({ codec with pending := [.write 0 4 0x100#32] } : State).pending = .write 0 4 0x100#32 :: [] ∧
    (0x100#32 : Word).toNat / 2 ^ 8 ≠ 0 ∧ 5 < (0x6#32 : Word).toNat % 2 ^ 8 := by decide
theorem witness_IdleBlockHoldsState : State.reset.pending = [] := rfl
/-- R65 at its edges, clause by clause: the last address inside and the first outside. -/
theorem witness_BusErrorExactlyWhenR65Says :
    locate Config.reference 0x28 4 = some (.reg .errpos) ∧ locate Config.reference 0x2C 4 = none ∧
    locate Config.reference 0x27 4 = none ∧ locate Config.reference 0x28 8 = none ∧
    locate Config.reference 0x08000000 4 = none ∧
    locate Config.reference 0x01003FFC 4 = some (.element .input 4095) ∧ locate Config.reference 0x01004000 4 = none ∧
    locate Config.reference 0x02003FFC 4 = some (.element .output 4095) ∧ locate Config.reference 0x02004000 4 = none ∧
    locate Config.reference 0x030003FC 4 = some (.element .key 255) ∧ locate Config.reference 0x03000400 4 = none ∧
    locate Config.reference 0x04000FFC 4 = some .reserved ∧ locate Config.reference 0x04001000 4 = none ∧
    locate Config.reference 0x05003FFC 4 = some (.element .cdig 4095) ∧ locate Config.reference 0x05004000 4 = none ∧
    locate Config.reference 0x06001FEC 4 = some (.element .treeLeaf 510) ∧
    locate Config.reference 0x06001FF0 4 = none ∧
    locate Config.reference 0x07000FF4 4 = some (.element .freqCount 255) ∧
    locate Config.reference 0x07001000 4 = none := by decide +kernel
theorem witness_PortReadsAndWritesElements : codec.cfg.Valid ∧ 16 < codec.cfg.capacity .input ∧
    7 < codec.cfg.capacity .cdig ∧ 6 < codec.cfg.capacity .treeLeaf ∧ 3 < codec.cfg.capacity .freqCount ∧
    3 < codec.cfg.capacity .codeBase ∧ 2 < codec.cfg.capacity .key := by decide
theorem witness_ReservedWordsReadZero : codec.cfg.Valid ∧ 3 < codec.cfg.ncode ∧ 3 < codec.cfg.nfreq := by decide
theorem witness_WindowBytesAreLittleEndian : 0x1C % 4 = 0 ∧ 3 < 4 ∧
    perform (.read 0x1C 4) State.reset = .next { State.reset with response := some (.okRead 0xFFFFFFFF#32) } :=
  ⟨by decide, by decide, rfl⟩
theorem witness_NopClearsStatus : ({ codec with pending := [.write 0 4 0#32] } : State).pending =
    .write 0 4 0x00000000#32 :: [] := rfl

/-- One state for each of the three checks of ENC, at the first value that fails. -/
theorem witness_EncChecksInOrder :
    ({ codec with ilen := 18#32 } : State).cfg.nin < (18#32 : Word).toNat ∧
    (codec.ilen.toNat ≤ codec.cfg.nin ∧ codec.cfg.ncode < (5#32 : Word).toNat) ∧
    ((0#32 : Word).toNat ≤ codec.cfg.nin ∧ codec.ccnt.toNat ≤ codec.cfg.ncode) := by decide
theorem witness_LookupFindsLowestEntry : codec.lookup 0x63#symw = some 3 ∧ codec.lookup 0x7A#symw = none := by
  decide +kernel
/-- The entry of each character of `ab\ncab`. -/
def entryOf (i : Nat) : Nat := [0, 1, 2, 3, 0, 1].getD i 0
theorem witness_EncConcatenatesCodes : codec.cfg.Valid ∧ codec.ilen.toNat ≤ codec.cfg.nin ∧
    codec.ccnt.toNat ≤ codec.cfg.ncode ∧ codec.ilen ≠ 0#32 ∧
    (∀ i < codec.ilen.toNat, codec.lookup (codec.inCell i) = some (entryOf i) ∧
      (codec.codeEntry (entryOf i)).base.toNat + (codec.codeEntry (entryOf i)).len.toNat ≤ codec.cfg.ncdig) ∧
    ((List.range codec.ilen.toNat).map fun i => (codec.codeEntry (entryOf i)).len.toNat).sum ≤ codec.cfg.nout := by
  decide +kernel

/-- The premises that the three clauses of `EncFaultsAtCharacter` share. -/
def encReaches (s : State) (j : Nat → Nat) (i : Nat) : Prop :=
  s.ilen.toNat ≤ s.cfg.nin ∧ s.ccnt.toNat ≤ s.cfg.ncode ∧ i < s.ilen.toNat ∧
    (∀ k < i, s.lookup (s.inCell k) = some (j k) ∧
      (s.codeEntry (j k)).base.toNat + (s.codeEntry (j k)).len.toNat ≤ s.cfg.ncdig) ∧
    ((List.range i).map fun k => (s.codeEntry (j k)).len.toNat).sum ≤ s.cfg.nout

/-- V1c: no code for character 2. -/
theorem witness_EncFaultsAtCharacter_missing :
    encReaches (withInput [0x61#symw, 0x62#symw, 0x7A#symw]) entryOf 2 ∧
    (withInput [0x61#symw, 0x62#symw, 0x7A#symw]).lookup 0x7A#symw = none := by
  unfold encReaches
  decide +kernel
/-- V1f's case: a code that ends one digit outside CDIG. -/
theorem witness_EncFaultsAtCharacter_format :
    encReaches { codec with codeBase := [(0, 7#32)] } entryOf 0 ∧
    ({ codec with codeBase := [(0, 7#32)] } : State).lookup 0x61#symw = some 0 ∧
    ({ codec with codeBase := [(0, 7#32)] } : State).cfg.ncdig <
      (({ codec with codeBase := [(0, 7#32)] } : State).codeEntry 0).base.toNat +
        (({ codec with codeBase := [(0, 7#32)] } : State).codeEntry 0).len.toNat := by
  unfold encReaches
  decide +kernel
/-- The last character does not fit an OUT of 11 cells. -/
theorem witness_EncFaultsAtCharacter_capacity :
    encReaches { codec with cfg := { small with nout := 11 } } entryOf 5 ∧
    codec.lookup (codec.inCell 5) = some (entryOf 5) ∧
    (codec.codeEntry (entryOf 5)).base.toNat + (codec.codeEntry (entryOf 5)).len.toNat ≤ small.ncdig ∧
    11 < ((List.range 6).map fun k => (codec.codeEntry (entryOf k)).len.toNat).sum := by
  unfold encReaches
  decide +kernel
theorem witness_EncSuccessFacts : codec.cfg.Valid ∧ exec .enc codec = .next (after .enc codec) ∧
    (after .enc codec).err = 0#8 := ⟨codec_valid, exec_after _ _, by decide +kernel⟩

/-- `codec` set to decipher. -/
def deciphering : State := { withInput cipherS1 with ctrl := 3#32 }

/-- One state for each of the four checks of DEC. -/
theorem witness_DecChecksInOrder :
    codec.cfg.nin < (18#32 : Word).toNat ∧
    (deciphering.ilen.toNat ≤ deciphering.cfg.nin ∧ ({ deciphering with klen := 0#32 } : State).ciph = true) ∧
    (deciphering.ciph = true ∧ deciphering.cfg.nkey < (4#32 : Word).toNat ∧ (4#32 : Word) ≠ 0#32) ∧
    (codec.ilen.toNat ≤ codec.cfg.nin ∧ codec.ciph = false ∧ codec.cfg.nnode ≤ (7#32 : Word).toNat) := by
  decide +kernel

/-- TREE holds the tree of S1 in every state made from `codec` that has its tree memory. -/
theorem s1_held (s : State) (hc : s.cfg.nnode = 7) (hn : ∀ n, s.node n = codec.node n) : s1Tree.held s := by
  simp only [s1Tree, HTree.held, HTree.index, hc, hn]
  decide +kernel

/-- The codes of the text of S1, character by character (95_test_vectors S1). -/
def textLeaves : List (Cell × List Bit) :=
  [(0x61#symw, [1#1, 0#1]), (0x62#symw, [1#1, 1#1]), (0x0A#symw, [0#1, 0#1]), (0x63#symw, [0#1, 1#1]),
    (0x61#symw, [1#1, 0#1]), (0x62#symw, [1#1, 1#1])]

theorem witness_DecDecodesCodeSequence : deciphering.cfg.Valid ∧ deciphering.ilen.toNat ≤ deciphering.cfg.nin ∧
    (deciphering.ciph = true ∧ deciphering.klen ≠ 0#32 ∧ deciphering.klen.toNat ≤ deciphering.cfg.nkey) ∧
    s1Tree.held deciphering ∧ deciphering.root.toNat = s1Tree.index ∧ (∀ leaf ∈ textLeaves, leaf ∈ s1Tree.codes) ∧
    ((List.range deciphering.ilen.toNat).map fun i =>
      if deciphering.ciph then deciphering.inCell i ^^^ deciphering.keyCell (i % deciphering.klen.toNat)
      else deciphering.inCell i) =
      (textLeaves.map fun leaf => leaf.2.map fun d => if d = 1#1 then 0x0031#symw else 0x0030#symw).flatten ∧
    textLeaves.length ≤ deciphering.cfg.nout :=
  ⟨by decide, by decide +kernel, by decide +kernel, s1_held _ rfl fun _ => rfl, by decide +kernel, by decide +kernel,
    by decide +kernel, by decide +kernel⟩

/-- V2s: the one-leaf tree of S2 and the payload `0000`, not ciphered. -/
def degenerate : State := { withInput (List.replicate 4 0x30#symw) with root := 0#32 }
theorem witness_DecDecodesCodeSequence_oneLeaf : s2Tree.held degenerate ∧ degenerate.root.toNat = s2Tree.index ∧
    degenerate.ciph = false ∧ (∀ leaf ∈ List.replicate 4 (0x61#symw, [0#1]), leaf ∈ s2Tree.codes) ∧
    degenerate.input = ((List.replicate 4 (0x61#symw, [0#1])).map fun leaf => leaf.2.map fun d =>
      if d = 1#1 then 0x0031#symw else 0x0030#symw).flatten := by
  simp only [s2Tree, HTree.held, HTree.index]
  decide +kernel

/-- V2d: `101`, the code of `a` and half a code. -/
theorem witness_DecRejectsTruncatedPayload :
    let s := withInput [0x31#symw, 0x30#symw, 0x31#symw]
    s.cfg.Valid ∧ s.ilen.toNat ≤ s.cfg.nin ∧ s.ciph = false ∧ s1Tree.held s ∧ s.root.toNat = s1Tree.index ∧
      (0x61#symw, [1#1, 0#1]) ∈ s1Tree.codes ∧ (0x62#symw, [1#1] ++ [1#1]) ∈ s1Tree.codes ∧
      s.payload = ((([(0x61#symw, [1#1, 0#1])] : List (Cell × List Bit)).map Prod.snd).flatten ++ [1#1]).map
        (fun d => if d = 1#1 then 0x0031#symw else 0x0030#symw) ∧ 1 ≤ s.cfg.nout :=
  ⟨by decide, by decide +kernel, by decide +kernel, s1_held _ rfl fun _ => rfl, by decide +kernel, by decide +kernel,
    by decide +kernel, by decide +kernel, by decide +kernel⟩

/-- The walk ends at ROOT on `1011`, inside a code on `1`, and the payload may be empty (V2, V2c, V2b). -/
theorem witness_DecTestsRootAtEnd :
    walkFrom (withInput digits1011) 0 (withInput digits1011).payload { p := 6#32, out := [] } =
      .ok { p := 6#32, out := [0x61#symw, 0x62#symw] } ∧
    walkFrom (withInput [0x31#symw]) 0 (withInput [0x31#symw]).payload { p := 6#32, out := [] } =
      .ok { p := 5#32, out := [] } ∧
    (withInput []).ilen = 0#32 ∧ (withInput []).root.toNat < (withInput []).cfg.nnode := by decide +kernel

/-- A payload of one cell over chosen records 0 and 1, with ROOT = 0 (the other records are those of S1). -/
def oneDigit (cell : Cell) (ctrl : Word) (root left right : TreeNode) : State :=
  { withInput [cell] with
    ctrl := ctrl, root := 0#32
    treeLeft := [(0, root.left), (1, left.left), (2, right.left)]
    treeRight := [(0, root.right), (1, left.right), (2, right.right)]
    treeSym := [(0, root.sym), (1, left.sym), (2, right.sym)]
    treeLeaf := [(0, root.leaf), (1, left.leaf), (2, right.leaf)] }
/-- A designated leaf, a childless node that is none, and an inner node over records 1 and 2. -/
def leafNode : TreeNode := { left := null, right := null, sym := 0x61#symw, leaf := 1#1 }
def bareNode : TreeNode := { left := null, right := null, sym := 0x61#symw, leaf := 0#1 }
def innerNode : TreeNode := { left := 1#32, right := 2#32, sym := 0#symw, leaf := 0#1 }

/-- The tree shapes of `DecOneDigitCases`, clause by clause, and what DEC reports on each by R144 to R150. -/
theorem witness_DecOneDigitCases :
    (after .dec (oneDigit 0x32#symw 1#32 innerNode leafNode leafNode)).status = 0x103#32 ∧
    (after .dec (oneDigit 0x30#symw 1#32 bareNode leafNode leafNode)).status = 0x103#32 ∧
    (after .dec (oneDigit 0x31#symw 1#32 leafNode leafNode leafNode)).status = 0x103#32 ∧
    (after .dec (oneDigit 0x30#symw 1#32 leafNode leafNode leafNode)).output = [0x61#symw] ∧
    (after .dec (oneDigit 0x30#symw 1#32 { innerNode with left := null } leafNode leafNode)).status = 0x103#32 ∧
    (after .dec (oneDigit 0x30#symw 1#32 { innerNode with left := 7#32 } leafNode leafNode)).status = 0x109#32 ∧
    (after .dec (oneDigit 0x30#symw 1#32 innerNode bareNode leafNode)).status = 0x103#32 ∧
    (after .dec (oneDigit 0x32#symw 0#32 innerNode bareNode leafNode)).output = [0x61#symw] ∧
    (after .dec (oneDigit 0x30#symw 1#32 innerNode innerNode leafNode)).errpos = 1#32 ∧
    (after .dec (oneDigit 0x30#symw 1#32 { innerNode with left := 0#32 } leafNode leafNode)).status = 0x100#32 := by
  decide +kernel
theorem witness_DecOneDigitCases_premises (cell : Cell) (ctrl : Word) (a b c : TreeNode) :
    (oneDigit cell ctrl a b c).cfg.Valid ∧ (oneDigit cell ctrl a b c).ilen = 1#32 ∧
      (oneDigit cell ctrl a b c).klen ≠ 0#32 ∧
      (oneDigit cell ctrl a b c).klen.toNat ≤ (oneDigit cell ctrl a b c).cfg.nkey ∧
      (oneDigit cell ctrl a b c).root.toNat < (oneDigit cell ctrl a b c).cfg.nnode :=
  ⟨codec_valid, rfl, (by decide : (3#32 : Word) ≠ 0#32), (by decide : (3#32 : Word).toNat ≤ 3),
    (by decide : (0#32 : Word).toNat < 7)⟩

/-- V2e: `1021` raises at cell 2, and the two cells before it raise nothing. -/
theorem witness_DecReportsFirstFault :
    let s := withInput [0x31#symw, 0x30#symw, 0x32#symw, 0x31#symw]
    s.ilen.toNat ≤ s.cfg.nin ∧ s.ciph = false ∧ s.root.toNat < s.cfg.nnode ∧
      s.payload = [0x31#symw, 0x30#symw] ++ 0x32#symw :: [0x31#symw] ∧
      walkFrom s 0 [0x31#symw, 0x30#symw] { p := s.root, out := [] } = .ok { p := 6#32, out := [0x61#symw] } ∧
      walkStep s 2 0x32#symw { p := 6#32, out := [0x61#symw] } = .error { kind := .malformedPayload, pos := 2 } := by
  decide +kernel
/-- The payload `1011` and room for one symbol: `11` does not fit. With LEAF of record 1 clear, that record is no leaf. -/
def oneRoom : State := { withInput digits1011 with cfg := { small with nout := 1 } }
theorem witness_DecReportsFirstFault_full :
    (oneRoom.cfg.Valid ∧ oneRoom.ilen.toNat ≤ oneRoom.cfg.nin ∧ oneRoom.ciph = false ∧
      oneRoom.root.toNat < oneRoom.cfg.nnode ∧ oneRoom.payload = [0x31#symw, 0x30#symw, 0x31#symw] ++ 0x31#symw :: [] ∧
      walkFrom oneRoom 0 [0x31#symw, 0x30#symw, 0x31#symw] { p := oneRoom.root, out := [] } =
        .ok { p := 5#32, out := [0x61#symw] } ∧
      (oneRoom.node 5).right = 1#32 ∧ (oneRoom.node 1).left = null ∧ (oneRoom.node 1).right = null ∧
      (oneRoom.node 1).leaf = 1#1) ∧
    (after .dec oneRoom).status = 0x107#32 ∧ (after .dec oneRoom).errpos = 3#32 ∧
    (after .dec { oneRoom with treeLeaf := [(0, 1#1), (1, 0#1)] }).status = 0x103#32 := by decide +kernel
/-- The one-leaf tree with OUT full: one more left digit does not fit, and a right digit is malformed first. -/
theorem witness_DecReportsFirstFault_degenerate :
    (after .dec { withInput [0x30#symw, 0x30#symw] with root := 0#32, cfg := { small with nout := 1 } }).status =
      0x107#32 ∧
    (after .dec { withInput [0x30#symw, 0x31#symw] with root := 0#32, cfg := { small with nout := 1 } }).status =
      0x103#32 := by decide +kernel
theorem witness_DecReportsFirstFault_codes : s1Tree.held oneRoom ∧ oneRoom.root.toNat = s1Tree.index ∧
    (0x61#symw, [1#1, 0#1]) ∈ s1Tree.codes ∧ (0x62#symw, [1#1, 1#1]) ∈ s1Tree.codes ∧
    [(0x61#symw, [1#1, 0#1])].length = oneRoom.cfg.nout ∧
    oneRoom.payload = (([(0x61#symw, [1#1, 0#1])].map Prod.snd).flatten ++ [1#1, 1#1]).map
      (fun d => if d = 1#1 then 0x0031#symw else 0x0030#symw) ++ [] :=
  ⟨s1_held _ rfl fun _ => rfl, by decide +kernel, by decide +kernel, by decide +kernel, by decide +kernel,
    by decide +kernel⟩
theorem witness_StrictSelectsNonDigitCells : (withInput digits1011).strict = true ∧
    exec .dec (withInput digits1011) = .next (after .dec (withInput digits1011)) ∧
    (after .dec (withInput digits1011)).err = 0#8 ∧ 0x32#symw ≠ 0x30#symw ∧ 0x32#symw ≠ 0x31#symw ∧
    ({ codec with ctrl := 0#32 } : State).strict = false :=
  ⟨by decide +kernel, exec_after _ _, by decide +kernel, by decide, by decide, by decide +kernel⟩
theorem witness_DecSuccessFacts : (withInput digits1011).cfg.Valid ∧
    exec .dec (withInput digits1011) = .next (after .dec (withInput digits1011)) ∧
    (after .dec (withInput digits1011)).err = 0#8 := ⟨by decide, exec_after _ _, by decide +kernel⟩
theorem witness_DecipherStageIsXorThenDec : deciphering.cfg.Valid ∧ deciphering.ciph = true ∧
    exec .xor deciphering = .next (after .xor deciphering) ∧ (after .xor deciphering).err = 0#8 ∧
    exec .dec deciphering = .next (after .dec deciphering) ∧
    ∃ v, exec .dec { (after .xor deciphering).movedOut with ctrl := deciphering.ctrl &&& 0xFFFFFFFD#32 } = .next v :=
  ⟨by decide, by decide +kernel, exec_after _ _, by decide +kernel, exec_after _ _, _, exec_after _ _⟩

/-- One state for each of the four checks of XOR. -/
theorem witness_XorChecksInOrder :
    ({ codec with klen := 0#32 } : State).klen = 0#32 ∧
    ((4#32 : Word) ≠ 0#32 ∧ codec.cfg.nkey < (4#32 : Word).toNat) ∧
    (codec.klen ≠ 0#32 ∧ codec.klen.toNat ≤ codec.cfg.nkey ∧ codec.cfg.nin < (18#32 : Word).toNat) ∧
    (codec.klen ≠ 0#32 ∧ codec.klen.toNat ≤ codec.cfg.nkey ∧ (17#32 : Word).toNat ≤ codec.cfg.nin ∧
      ({ small with nout := 16 } : Config).nout < (17#32 : Word).toNat) := by decide
theorem witness_XorCiphersEveryCell : codec.klen ≠ 0#32 ∧ codec.klen.toNat ≤ codec.cfg.nkey ∧
    codec.ilen.toNat ≤ codec.cfg.nin ∧ codec.ilen.toNat ≤ codec.cfg.nout := by decide
theorem witness_XorTwiceRestoresData : exec .xor codec = .next (after .xor codec) ∧ (after .xor codec).err = 0#8 :=
  ⟨exec_after _ _, by decide +kernel⟩

theorem witness_RecordSplitsAtNewlines :
    (∀ l ∈ [[0x61#symw], [], [0x0D#symw]], 0x000A#symw ∉ l) ∧ 0x000A#symw ∉ [0x62#symw] ∧
    recordLines [0x61#symw, 0x0A#symw, 0x0A#symw, 0x0D#symw, 0x0A#symw, 0x62#symw] =
      [(0, [0x61#symw]), (2, []), (3, [0x0D#symw]), (5, [0x62#symw])] := by decide
/-- Each form of a line: blank, no colon, count not numeric, count one too large, NL token, one cell, long token. -/
theorem witness_LineVerdictByForm :
    (∀ c ∈ [0x20#symw, 0x09#symw, 0x0D#symw], c = 0x0020#symw ∨ c = 0x0009#symw ∨ c = 0x000D#symw) ∧
    (0x003A#symw ∉ [0x20#symw, 0x61#symw] ∧
      ∃ c ∈ [0x20#symw, 0x61#symw], c ≠ 0x0020#symw ∧ c ≠ 0x0009#symw ∧ c ≠ 0x000D#symw) ∧
    (0x003A#symw ∉ [0x4E#symw, 0x4C#symw] ∧ 0x003A#symw ∉ ([] : List Cell)) ∧
    ¬(0x30 ≤ (0x3A#symw).toNat ∧ (0x3A#symw).toNat ≤ 0x39) ∧ (0x30 ≤ (0x39#symw).toNat ∧ (0x39#symw).toNat ≤ 0x39) :=
  ⟨forall_of_all (by decide), ⟨by decide, 0x61#symw, by decide, by decide, by decide, by decide⟩, by decide, by decide,
    by decide⟩

/-- The record `a:2`, newline, `NL:1`, newline, `x`, newline, `a:7`. -/
def record : State := withInput [0x61#symw, 0x3A#symw, 0x32#symw, 0x0A#symw, 0x4E#symw, 0x4C#symw, 0x3A#symw, 0x31#symw,
  0x0A#symw, 0x78#symw, 0x0A#symw, 0x61#symw, 0x3A#symw, 0x37#symw]
theorem witness_FparseBuildsTable : record.cfg.Valid ∧ record.ilen.toNat ≤ record.cfg.nin ∧
    recordEntries record.input = [(0x61#symw, 2#32), (0x0A#symw, 1#32), (0x61#symw, 7#32)] ∧
    (firstSymbols (recordEntries record.input)).length ≤ record.cfg.nfreq ∧
    (after .fparse record).table = [(0x61#symw, 7#32), (0x0A#symw, 1#32)] ∧ (after .fparse record).warn = 1#32 :=
  ⟨by decide, by decide +kernel, by decide +kernel, by decide +kernel, by decide +kernel, by decide +kernel⟩
/-- The three faults: an input one cell too long, a second symbol in a table of one, a record with no entry. -/
theorem witness_FparseFaults : codec.cfg.nin < (18#32 : Word).toNat ∧
    (record.ilen.toNat ≤ record.cfg.nin ∧
      recordLines record.input = [(0, [0x61#symw, 0x3A#symw, 0x32#symw])] ++
        (4, [0x4E#symw, 0x4C#symw, 0x3A#symw, 0x31#symw]) :: [(9, [0x78#symw]), (11, [0x61#symw, 0x3A#symw, 0x37#symw])] ∧
      parseLines 1 [(0, [0x61#symw, 0x3A#symw, 0x32#symw])] { table := [], warn := 0 } =
        .ok { table := [(0x61#symw, 2#32)], warn := 0 } ∧
      lineVerdict [0x4E#symw, 0x4C#symw, 0x3A#symw, 0x31#symw] = .entry 0x0A#symw 1#32 ∧
      0x0A#symw ∉ ([(0x61#symw, 2#32)] : List (Cell × Word)).map Prod.fst ∧
      ({ small with nfreq := 1 } : Config).Valid) ∧
    (recordEntries (withInput []).input = [] ∧ recordEntries (withInput [0x78#symw]).input = []) := by decide +kernel
theorem witness_FparseSuccessFacts : record.cfg.Valid ∧ exec .fparse record = .next (after .fparse record) ∧
    (after .fparse record).err = 0#8 ∧
    (((recordEntries (withInput [0x61#symw, 0x3A#symw, 0x32#symw]).input).map Prod.fst).Nodup ∧
      (after .fparse (withInput [0x61#symw, 0x3A#symw, 0x32#symw])).err = 0#8) :=
  ⟨by decide, exec_after _ _, by decide +kernel, by decide +kernel⟩
theorem witness_DecimalRendering : (10#32 : Word) ≠ 0#32 ∧ decimalCells 10#32 = [0x31#symw, 0x30#symw] ∧
    decimalCells 0#32 = [0x30#symw] := by decide
theorem witness_FserWritesRecord : codec.cfg.Valid ∧ codec.fcnt.toNat ≤ codec.cfg.nfreq ∧
    ((codec.table.map recordLine).flatten).length ≤ codec.cfg.nout := by decide +kernel
/-- FCNT one too large; and with room for 16 cells the fourth line of S1 does not fit. -/
theorem witness_FserCapacityFaults : codec.cfg.nfreq < (5#32 : Word).toNat ∧ codec.fcnt.toNat ≤ codec.cfg.nfreq ∧
    3 < codec.fcnt.toNat ∧ ((List.range 3).map fun k => (recordLine (codec.freqEntry k)).length).sum ≤ 16 ∧
    16 < ((List.range 4).map fun k => (recordLine (codec.freqEntry k)).length).sum := by decide +kernel
theorem witness_TableRoundTrip : codec.cfg.Valid ∧ 1 ≤ codec.fcnt.toNat ∧ codec.fcnt.toNat ≤ codec.cfg.nfreq ∧
    (codec.table.map Prod.fst).Nodup ∧ 0x003A#symw ∉ codec.table.map Prod.fst ∧
    (codec.table.map fun entry => (recordLine entry).length).sum ≤ codec.cfg.nout ∧
    (codec.table.map fun entry => (recordLine entry).length).sum ≤ codec.cfg.nin ∧
    exec .fser codec = .next (after .fser codec) :=
  ⟨by decide, by decide +kernel, by decide +kernel, by decide +kernel, by decide +kernel, by decide +kernel,
    by decide +kernel, exec_after _ _⟩

theorem witness_OutputCommandsFrame (i : Instr) : codec.cfg.Valid ∧ exec i codec = .next (after i codec) :=
  ⟨by decide, exec_after _ _⟩
theorem witness_TableCommandAndNopFrame : codec.cfg.Valid ∧ exec .fparse record = .next (after .fparse record) ∧
    exec .nop codec = .next (after .nop codec) := ⟨by decide, exec_after _ _, exec_after _ _⟩
/-- A fault of each command that can have one; FPARSE with and without code 7. -/
theorem witness_FaultsArePreciseAndAtomic :
    (after .enc { codec with ilen := 0#32 }).err ≠ 0#8 ∧ (after .dec { codec with root := null }).err ≠ 0#8 ∧
    (after .xor { codec with klen := 0#32 }).err ≠ 0#8 ∧ (after .fser { codec with fcnt := 5#32 }).err ≠ 0#8 ∧
    (after .fparse { codec with ilen := 18#32 }).err = 7#8 ∧ (after .fparse (withInput [])).err = 5#8 := by
  decide +kernel
theorem witness_CommandsRaiseOnlyTheirErrors (i : Instr) : exec i codec = .next (after i codec) ∧
    (after .nop codec).err = 0#8 := ⟨exec_after _ _, by decide +kernel⟩
theorem witness_ResetMeetsInvariant : small.Valid := by decide

/-- A state of the invariant that is not a reset state: the tables of S1 loaded and NOP run. -/
theorem witness_StepKeepsInvariant : ({ codec with status := 0x100#32 } : State).Inv where
  cfgValid := by decide
  statusReserved := by decide
  ctrlReserved := by decide +kernel
  olenFits := by decide +kernel
  warnFits := by decide +kernel
  successPos := by decide +kernel
  beforeFirst := by decide +kernel
  errHonest := by
    intro _
    unfold State.ErrHonest
    rw [show decodeWord ({ codec with status := 0x100#32 } : State).cmd = .ok .nop from rfl]
    exact ⟨.inl (by decide +kernel), fun h => absurd (by decide +kernel) h⟩
  memories := by constructor <;> decide +kernel
theorem witness_StepKeepsParameters : step (codec.withFetchWord 32 3) = exec .xor { codec with cmd := 3#32, response := some .okWrite } :=
  rfl

/-- `codec` and a state that differs from it in OUT, in a record no walk reaches and in the elements beyond the
length registers agree on what each command reads. -/
def other : State := { codec with outMem := [], inMem := Memory.write codec.inMem 6 0x7A#symw, olen := 3#32, warn := 9#32 }
theorem witness_ResultsDependOnlyOnOperands (i : Instr) : codec.cfg.Valid ∧ codec ≠ other ∧ AgreeFor i codec other ∧
    exec i codec = .next (after i codec) ∧ exec i other = .next (after i other) := by
  have hi : ∀ k < codec.ilen.toNat, codec.inCell k = other.inCell k := by decide +kernel
  refine ⟨by decide, by decide +kernel, ?_, exec_after _ _, exec_after _ _⟩
  cases i with
  | nop => trivial
  | enc => exact ⟨rfl, rfl, hi, rfl, fun _ _ => ⟨rfl, fun _ _ => rfl⟩⟩
  | dec => exact ⟨rfl, rfl, rfl, rfl, hi, fun _ => ⟨rfl, fun _ _ => rfl⟩, rfl, fun _ _ => rfl⟩
  | xor => exact ⟨rfl, rfl, hi, rfl, fun _ _ => rfl⟩
  | fparse => exact ⟨rfl, rfl, hi⟩
  | fser => exact ⟨rfl, rfl, fun _ _ => rfl⟩
theorem witness_ReissuedFaultRepeats : exec .dec { codec with root := null } = .next (after .dec { codec with root := null }) ∧
    (after .dec { codec with root := null }).err ≠ 0#8 := ⟨exec_after _ _, by decide +kernel⟩

theorem witness_MvoutMovesLastResult : (after .enc codec).cfg.Valid ∧
    (after .enc codec).olen.toNat ≤ (after .enc codec).cfg.nin ∧
    (after .enc codec).olen.toNat ≤ (after .enc codec).cfg.nout := by decide +kernel
theorem witness_CodesArePrefixFree : s1Tree.codes[0]? = some (0x0A#symw, [0#1, 0#1]) ∧
    s1Tree.codes[3]? = some (0x62#symw, [1#1, 1#1]) ∧ (0 : Nat) ≠ 3 := by decide
/-- S1: the reference builder makes this tree of this table. -/
theorem witness_BuilderConservesFrequency : buildTree (countText codec.input) = .ok s1Tree ∧
    countText codec.input ≠ [] := by decide +kernel
theorem witness_LoadTreeLoadsTree : codec.cfg.Valid ∧ (treeIndices s1Tree).Nodup ∧
    (∀ i ∈ treeIndices s1Tree, i < codec.cfg.nnode) := by decide
theorem witness_LoadCodesLoadsTable : codec.cfg.Valid ∧ (s1Tree.codes.map Prod.fst).Nodup ∧
    (∀ entry ∈ s1Tree.codes, entry.2 ≠ []) ∧ s1Tree.codes.length ≤ codec.cfg.ncode ∧
    ((s1Tree.codes.map Prod.snd).flatten).length ≤ codec.cfg.ncdig := by decide

/-- CODE and CDIG of `codec` hold the code table of the tree of S1. -/
theorem s1_codes_held : codesHeld codec s1Tree.codes := by
  have h : s1Tree.codes = [(0x0A#symw, [0#1, 0#1]), (0x63#symw, [0#1, 1#1]), (0x61#symw, [1#1, 0#1]),
    (0x62#symw, [1#1, 1#1])] := by decide
  intro entry he
  rw [h] at he
  simp only [List.mem_cons, List.not_mem_nil, or_false] at he
  rcases he with rfl | rfl | rfl | rfl
  · exact ⟨2, by decide +kernel⟩
  · exact ⟨3, by decide +kernel⟩
  · exact ⟨0, by decide +kernel⟩
  · exact ⟨1, by decide +kernel⟩
theorem witness_EncodeThenDecodeRestoresText : codec.cfg.Valid ∧ s1Tree.held codec ∧
    codec.root.toNat = s1Tree.index ∧ (s1Tree.leaves.map Prod.fst).Nodup ∧ codesHeld codec s1Tree.codes ∧
    codec.ccnt.toNat ≤ codec.cfg.ncode ∧ 1 ≤ codec.ilen.toNat ∧ codec.ilen.toNat ≤ codec.cfg.nin ∧
    (∀ c ∈ codec.input, c ∈ s1Tree.leaves.map Prod.fst) ∧
    (textDigits s1Tree.codes codec.input).length ≤ codec.cfg.nout ∧
    (textDigits s1Tree.codes codec.input).length ≤ codec.cfg.nin ∧
    (0x1#32 : Word).getLsbD 1 = false ∧ (0x0#32 : Word).getLsbD 1 = false :=
  ⟨codec_valid, s1_held _ rfl fun _ => rfl, by decide +kernel, by decide +kernel, s1_codes_held, by decide +kernel,
    by decide +kernel, by decide +kernel, forall_of_all (by decide +kernel), by decide +kernel, by decide +kernel, by decide,
    by decide⟩
theorem witness_CipheredRoundTripRestoresText : codec.klen ≠ 0#32 ∧ codec.klen.toNat ≤ codec.cfg.nkey ∧
    exec .enc codec = .next (after .enc codec) ∧ (after .enc codec).err = 0#8 ∧
    (after .enc codec).olen.toNat ≤ codec.cfg.nin ∧ (0x3#32 : Word).getLsbD 1 = true :=
  ⟨by decide, by decide, exec_after _ _, by decide +kernel, by decide +kernel, by decide⟩
theorem witness_PayloadFileReadsBack : 0x000A#symw ∉ cipherS1 := by decide

/-- The table of S1 as the host's counter gives it. -/
def s1Table : List (Cell × Nat) := [(0x61#symw, 2), (0x62#symw, 2), (0x0A#symw, 1), (0x63#symw, 1)]
theorem witness_TableFileReadsBack : codec.cfg.Valid ∧ 1 ≤ s1Table.length ∧ s1Table.length ≤ codec.cfg.nfreq ∧
    (s1Table.map Prod.snd = [2, 2, 1, 1]) ∧ (s1Table.map Prod.fst).Nodup ∧ 0x003A#symw ∉ s1Table.map Prod.fst ∧
    (((s1Table.map fun entry => (entry.1, BitVec.ofNat 32 entry.2)).map recordLine).flatten).length ≤ codec.cfg.nout ∧
    (((s1Table.map fun entry => (entry.1, BitVec.ofNat 32 entry.2)).map recordLine).flatten).length ≤ codec.cfg.nin := by
  decide +kernel
/-- The file `a:1`, `x`, a CH_CR symbol with count 2, lines ended CR LF: two entries and one warning. -/
def crlfFile : List Cell := [0x61#symw, 0x3A#symw, 0x31#symw, 0x0D#symw, 0x0A#symw, 0x78#symw, 0x0D#symw, 0x0A#symw,
  0x0D#symw, 0x3A#symw, 0x32#symw, 0x0D#symw, 0x0A#symw]
theorem witness_TableFileReadsBack_crlf : (dropLineEndCR crlfFile).length ≤ codec.cfg.nin ∧
    recordEntries (dropLineEndCR crlfFile) = [(0x61#symw, 1#32), (0x0D#symw, 2#32)] ∧
    (firstSymbols (recordEntries (dropLineEndCR crlfFile))).length ≤ codec.cfg.nfreq ∧
    (0x000A#symw ∉ [0x0D#symw, 0x3A#symw, 0x32#symw] ∧
      [0x0D#symw, 0x3A#symw, 0x32#symw].getLast? ≠ some 0x000D#symw) := by decide +kernel

/-! ### The host's files and scripts -/

/-- R220 on a file with CR LF line ends: FCNT 2, WARN 1 and both entries are handed on. -/
theorem test_readTableFile : (readTableFile crlfFile codec).map Prod.fst =
    some { fcnt := 2#32, warn := 1#32, table := [(0x61#symw, 1#32), (0x0D#symw, 2#32)] } := by decide +kernel

/-- The state a host script ends in. -/
def stateOf (r : Result) : State :=
  match r with
  | .next t => t
  | .fault _ => codec
  | .refused _ => codec

/-- `encx` on S1 gives the payload of V3a; on a text ENC refuses (V1c), ENC's fault stays in STATUS. -/
theorem test_encx : (stateOf (encx codec)).output = cipherS1 ∧
    (stateOf (encx (withInput [0x61#symw, 0x62#symw, 0x7A#symw]))).status = 0x102#32 ∧
    (stateOf (encx (withInput [0x61#symw, 0x62#symw, 0x7A#symw]))).cmd = 1#32 := by decide +kernel

end Sys2Proof.Tests
end

section
/-! PROOFS. The reset state and the invariant (00_scope R6, 10_state R45). -/

namespace Sys2Proof.Machine

open Sys2Proof

/-- The reference configuration keeps the constraints of R6. -/
theorem reference_valid : Config.reference.Valid := by decide

/-- STATUS is 0 right after reset (R45). -/
@[simp] theorem resetWith_status (c : Config) : (State.resetWith c).status = 0#32 := rfl

/-- No command has finished right after reset (R29, R45). -/
@[simp] theorem resetWith_done (c : Config) : (State.resetWith c).done = false := by
  simp [State.done]

/-- The reset state reports no error (R29, R45). -/
@[simp] theorem resetWith_err (c : Config) : (State.resetWith c).err = 0#8 := by
  simp [State.err]

/-- The reset state of an instance meets the invariant once its parameters do: STATUS is 0, so the facts about
finished commands ask nothing, and the registers and memories stand at the values of R45. -/
theorem resetWith_inv {c : Config} (hc : c.Valid) : (State.resetWith c).Inv where
  cfgValid := hc
  statusReserved := by simp
  ctrlReserved := (by decide : (1#32 : Word).toNat < 2 ^ 2)
  olenFits := Nat.zero_le c.nout
  warnFits := Nat.zero_le c.nin
  successPos _ := rfl
  beforeFirst _ := ⟨rfl, resetWith_err c, rfl, rfl⟩
  errHonest h := by simp at h
  memories := resetWith_memoriesWf c

/-- Settles O47: by `resetWith_inv`, the reference configuration being valid. -/
theorem resetMeetsInvariant : Obligations.ResetMeetsInvariant := by
  unfold Obligations.ResetMeetsInvariant
  exact ⟨fun _ hc => resetWith_inv hc, resetWith_inv reference_valid⟩

end Sys2Proof.Machine
end

section
/-! PROOFS. Every step keeps the invariant and the parameters (10_state R22, R29 to R33, R44; 60_exceptions R230,
R237, R240). The invariant has two parts: what a command may start from (`State.Fits`), and what the last command
left in the registers only commands write (`commandRegs`). A port write leaves the second part, a command makes it
anew from the first. -/

namespace Sys2Proof.Machine

open Sys2Proof

/-! ### What one port transaction can do -/

/-- Everything a port write can do: BusError, a store to a register other than CMD, to an element or to a reserved
word, or the start of a command. -/
theorem portWrite_cases {addr size : Nat} {v : Word} {s t : State} (h : portWrite addr size v s = .next t) :
    t = s.respond .busError ∨
    (∃ r, r ≠ .cmd ∧ t = (s.writeReg r v).respond .okWrite) ∨
    (∃ f k, k < s.cfg.capacity f ∧ t = (s.setElement f k v).respond .okWrite) ∨
    t = s.respond .okWrite ∨
    startCommand v (s.respond .okWrite) = .next t := by
  unfold portWrite at h
  split at h
  case h_1 => cases h; exact .inl rfl
  case h_2 => exact .inr (.inr (.inr (.inr h)))
  case h_3 l hcmd hloc =>
    cases h
    cases l with
    | reg r => exact .inr (.inl ⟨r, fun hr => hcmd (by rw [hr]), rfl⟩)
    | element f k => exact .inr (.inr (.inl ⟨f, k, locate_element_lt hloc, rfl⟩))
    | reserved => exact .inr (.inr (.inr (.inl rfl)))

/-- A port read records its answer and does nothing else (R62). -/
theorem portRead_eq_respond (addr size : Nat) (s : State) : ∃ r, portRead addr size s = s.respond r := by
  unfold portRead
  cases locate s.cfg addr size with
  | none => exact ⟨_, rfl⟩
  | some l => exact ⟨_, rfl⟩

/-- The write of a command's word to CMD runs the command (R30, R60). -/
theorem startCommand_of_ok {w : Word} {i : Instr} (h : decodeWord w = .ok i) (s : State) :
    startCommand w s = exec i (s.writeReg .cmd w) := by
  simp only [startCommand, h]

/-- The write of an illegal word to CMD is the illegal command (R201). -/
theorem startCommand_of_error {w : Word} {e : DecodeError} (h : decodeWord w = .error e) (s : State) :
    startCommand w s = .next (illegalCommand (s.writeReg .cmd w)) := by
  simp only [startCommand, h]

/-- The oldest waiting event is performed (R60, R71). -/
theorem step_of_pending {s : State} {e : HostEvent} {rest : List HostEvent} (h : s.pending = e :: rest) :
    step s = perform e { s with pending := rest } := by
  simp only [step, h]

/-- With no event waiting the block is idle (R261). -/
theorem step_of_idle {s : State} (h : s.pending = []) : step s = .next s := by
  simp only [step, h]

/-! ### The parameters -/

@[simp] theorem writeReg_cfg (s : State) (r : Reg) (v : Word) : (s.writeReg r v).cfg = s.cfg := by
  cases r <;> rfl

@[simp] theorem setElement_cfg (s : State) (f : Field) (k : Nat) (v : Word) : (s.setElement f k v).cfg = s.cfg := by
  cases f <;> rfl

theorem startCommand_cfg {w : Word} {s t : State} (h : startCommand w s = .next t) : t.cfg = s.cfg := by
  cases hd : decodeWord w with
  | ok i =>
    rw [startCommand_of_ok hd] at h
    exact (exec_port h).1
  | error e =>
    rw [startCommand_of_error hd] at h
    cases h
    exact takeFault_cfg _ _ _

theorem perform_cfg {e : HostEvent} {s t : State} (h : perform e s = .next t) : t.cfg = s.cfg := by
  cases e with
  | read addr size =>
    obtain ⟨r, hr⟩ := portRead_eq_respond addr size s
    cases h
    rw [hr, respond_cfg]
  | write addr size v =>
    rcases portWrite_cases h with rfl | ⟨r, _, rfl⟩ | ⟨f, k, _, rfl⟩ | rfl | hc
    · rfl
    · simp
    · simp
    · rfl
    · exact (startCommand_cfg hc).trans (respond_cfg s _)
  | reset => cases h; rfl

/-- Settles O49: a step is idle or performs one event, and none of them writes the parameters. -/
theorem stepKeepsParameters : Obligations.StepKeepsParameters := by
  unfold Obligations.StepKeepsParameters
  intro s t h
  cases hp : s.pending with
  | nil => rw [step_of_idle hp] at h; cases h; rfl
  | cons e rest => rw [step_of_pending hp] at h; exact (perform_cfg h).trans rfl

/-! ### What a command leaves in STATUS and ERRPOS -/

theorem err_of_status {t : State} {e : BitVec 8} (h : t.status = statusWord e) : t.err = e := by
  rw [State.err, h, statusWord_err]

theorem exec_status {i : Instr} {s t : State} (h : exec i s = .next t) : ∃ e, t.status = statusWord e := by
  rcases exec_errors h with ⟨hst, -⟩ | ⟨k, -, hst⟩
  · exact ⟨_, hst⟩
  · exact ⟨_, hst⟩

/-- A command has finished (R29). -/
theorem exec_done {i : Instr} {s t : State} (h : exec i s = .next t) : t.done = true := by
  obtain ⟨e, hst⟩ := exec_status h
  rw [State.done, hst, statusWord_done]

/-- The reserved bits of STATUS are 0 (R29). -/
theorem exec_status_lt {i : Instr} {s t : State} (h : exec i s = .next t) : t.status.toNat < 2 ^ 9 := by
  obtain ⟨e, hst⟩ := exec_status h
  rw [hst]
  exact statusWord_lt e

/-- ERR is 0 or one of the command's own codes (R230). -/
theorem exec_err {i : Instr} {s t : State} (h : exec i s = .next t) :
    t.err = 0#8 ∨ ∃ k ∈ commandErrors i, t.err = k.code := by
  rcases exec_errors h with ⟨hst, -⟩ | ⟨k, hk, hst⟩
  · exact .inl (err_of_status hst)
  · exact .inr ⟨k, hk, err_of_status hst⟩

/-- ERRPOS is 0 on success (R33). -/
theorem exec_successPos {i : Instr} {s t : State} (h : exec i s = .next t) (he : t.err = 0#8) : t.errpos = 0#32 := by
  rcases exec_errors h with ⟨-, hpos⟩ | ⟨k, -, hst⟩
  · exact hpos
  · exact absurd ((err_of_status hst).symm.trans he) (code_ne_zero k)

/-- Settles O45: the codes of `commandErrors`, command by command. -/
theorem commandsRaiseOnlyTheirErrors : Obligations.CommandsRaiseOnlyTheirErrors := by
  unfold Obligations.CommandsRaiseOnlyTheirErrors
  intro i s t h
  refine ⟨exec_done h, exec_status_lt h, exec_successPos h, (exec_err h).imp_right ?_⟩
  rintro ⟨k, hk, he⟩
  cases i with
  | nop => exact absurd hk List.not_mem_nil
  | enc | dec | xor | fparse | fser => fin_cases hk <;> simp [he, ErrorKind.code]

/-! ### The part of the invariant a command starts from -/

/-- The part of the invariant that does not speak of the last command: what a command may start from, also just
after its own word was stored in CMD. -/
structure State.Fits (s : State) : Prop where
  cfgValid : s.cfg.Valid
  ctrlReserved : s.ctrl.toNat < 2 ^ 2
  olenFits : s.olen.toNat ≤ s.cfg.nout
  warnFits : s.warn.toNat ≤ s.cfg.nin
  memories : s.MemoriesWf

theorem State.Inv.fits {s : State} (h : s.Inv) : s.Fits := { h with }

theorem MemoriesWf_respond {s : State} (h : s.MemoriesWf) (r : PortResponse) : (s.respond r).MemoriesWf :=
  { h with }

theorem MemoriesWf_writeReg {s : State} (h : s.MemoriesWf) (r : Reg) (v : Word) : (s.writeReg r v).MemoriesWf := by
  cases r <;> exact { h with }

theorem State.Fits.respond {s : State} (h : s.Fits) (r : PortResponse) : (s.respond r).Fits :=
  { h with memories := MemoriesWf_respond h.memories r }

theorem State.Fits.writeCmd {s : State} (h : s.Fits) (w : Word) : (s.writeReg .cmd w).Fits :=
  { h with memories := MemoriesWf_writeReg h.memories .cmd w }

/-! ### A command establishes the invariant -/

theorem errHonest_of_ok {s : State} {i : Instr} (hd : decodeWord s.cmd = .ok i)
    (herr : s.err = 0#8 ∨ ∃ k ∈ commandErrors i, s.err = k.code)
    (holen : s.err ≠ 0#8 → i ≠ .fparse → s.olen = 0#32) : s.ErrHonest := by
  simp only [State.ErrHonest, hd]
  exact ⟨herr, holen⟩

theorem errHonest_of_error {s : State} {e : DecodeError} (hd : decodeWord s.cmd = .error e)
    (herr : s.err = ErrorKind.illegalCommand.code) : s.ErrHonest := by
  simpa only [State.ErrHonest, hd] using herr

/-- A command run with its own word in CMD ends in the invariant. -/
theorem exec_inv {i : Instr} {s t : State} (hs : s.Fits) (hd : decodeWord s.cmd = .ok i) (h : exec i s = .next t) :
    t.Inv := by
  obtain ⟨hcfg, -⟩ := exec_port h
  obtain ⟨hcmd, hctrl⟩ := exec_cmd h
  obtain ⟨holen, hwarn, hmem⟩ := exec_fits h hs.cfgValid hs.olenFits hs.warnFits hs.memories
  exact
    { cfgValid := hcfg ▸ hs.cfgValid
      statusReserved := exec_status_lt h
      ctrlReserved := hctrl ▸ hs.ctrlReserved
      olenFits := hcfg ▸ holen
      warnFits := hcfg ▸ hwarn
      successPos := exec_successPos h
      beforeFirst := fun hn => by simp [exec_done h] at hn
      errHonest := fun _ => errHonest_of_ok (hcmd ▸ hd) (exec_err h) (exec_olen h)
      memories := hmem }

/-- The illegal-command behaviour, run with the illegal word in CMD, ends in the invariant. -/
theorem illegalCommand_inv {s : State} {e : DecodeError} (hs : s.Fits) (hd : decodeWord s.cmd = .error e) :
    (illegalCommand s).Inv :=
  { cfgValid := hs.cfgValid
    statusReserved := statusWord_lt _
    ctrlReserved := hs.ctrlReserved
    olenFits := hs.olenFits
    warnFits := hs.warnFits
    successPos := fun _ => rfl
    beforeFirst := fun hn => by simp [illegalCommand] at hn
    errHonest := fun _ => errHonest_of_error hd (takeFault_err _ _ _)
    memories := { hs.memories with } }

theorem startCommand_inv {w : Word} {s t : State} (hs : s.Fits) (h : startCommand w s = .next t) : t.Inv := by
  cases hd : decodeWord w with
  | ok i =>
    rw [startCommand_of_ok hd] at h
    exact exec_inv (hs.writeCmd w) hd h
  | error e =>
    rw [startCommand_of_error hd] at h
    cases h
    exact illegalCommand_inv (hs.writeCmd w) hd

/-! ### Everything else keeps it -/

/-- The registers in which the invariant speaks of the last command; no port write but the one that starts a
command changes them (R66). -/
def commandRegs : List Reg := [.cmd, .status, .olen, .warn, .errpos]

/-- What leaves the registers of the last command and the parameters alone keeps the invariant, if it keeps the
reserved bits of CTRL and the canonical form. -/
theorem State.Inv.of_commandRegs {s t : State} (h : s.Inv) (hcfg : t.cfg = s.cfg)
    (hreg : ∀ r ∈ commandRegs, t.reg r = s.reg r) (hctrl : t.ctrl.toNat < 2 ^ 2) (hmem : t.MemoriesWf) : t.Inv := by
  have hcmd : t.cmd = s.cmd := hreg .cmd (by decide)
  have hstatus : t.status = s.status := hreg .status (by decide)
  have holen : t.olen = s.olen := hreg .olen (by decide)
  have hwarn : t.warn = s.warn := hreg .warn (by decide)
  have herrpos : t.errpos = s.errpos := hreg .errpos (by decide)
  have herr : t.err = s.err := by rw [State.err, hstatus, State.err]
  have hdone : t.done = s.done := by rw [State.done, hstatus, State.done]
  constructor
  case cfgValid => rw [hcfg]; exact h.cfgValid
  case statusReserved => rw [hstatus]; exact h.statusReserved
  case ctrlReserved => exact hctrl
  case olenFits => rw [holen, hcfg]; exact h.olenFits
  case warnFits => rw [hwarn, hcfg]; exact h.warnFits
  case successPos => rw [herr, herrpos]; exact h.successPos
  case beforeFirst => rw [hdone, hcmd, herr, holen, hwarn]; exact h.beforeFirst
  case errHonest => rw [hdone, State.ErrHonest, hcmd, herr, holen]; exact h.errHonest
  case memories => exact hmem

/-- A port write to a register other than CMD leaves the registers of the last command (R66). -/
theorem writeReg_commandRegs {r q : Reg} (hr : r ≠ .cmd) (hq : q ∈ commandRegs) (s : State) (v : Word) :
    (s.writeReg r v).reg q = s.reg q := by
  cases r with
  | cmd => exact absurd rfl hr
  | _ => fin_cases hq <;> rfl

theorem setElement_reg (s : State) (f : Field) (k : Nat) (v : Word) (r : Reg) :
    (s.setElement f k v).reg r = s.reg r := by
  cases f <;> rfl

/-- A stored CTRL has its reserved bits 0 (R31, R66). -/
theorem writeReg_ctrl_lt {s : State} (h : s.ctrl.toNat < 2 ^ 2) (r : Reg) (v : Word) :
    (s.writeReg r v).ctrl.toNat < 2 ^ 2 := by
  cases r with
  | ctrl =>
    calc (v &&& ctrlMask).toNat ≤ ctrlMask.toNat := by rw [BitVec.toNat_and]; exact Nat.and_le_right
      _ < 2 ^ 2 := by decide
  | _ => exact h

theorem State.Inv.respond {s : State} (h : s.Inv) (r : PortResponse) : (s.respond r).Inv :=
  h.of_commandRegs rfl (fun _ _ => rfl) h.ctrlReserved (MemoriesWf_respond h.memories r)

theorem State.Inv.setPending {s : State} (h : s.Inv) (rest : List HostEvent) : { s with pending := rest }.Inv :=
  h.of_commandRegs rfl (fun _ _ => rfl) h.ctrlReserved { h.memories with }

theorem State.Inv.writeReg {s : State} (h : s.Inv) {r : Reg} (hr : r ≠ .cmd) (v : Word) : (s.writeReg r v).Inv :=
  h.of_commandRegs (writeReg_cfg s r v) (fun _ hq => writeReg_commandRegs hr hq s v)
    (writeReg_ctrl_lt h.ctrlReserved r v) (MemoriesWf_writeReg h.memories r v)

theorem State.Inv.setElement {s : State} (h : s.Inv) {f : Field} {k : Nat} (hk : k < s.cfg.capacity f) (v : Word) :
    (s.setElement f k v).Inv :=
  h.of_commandRegs (setElement_cfg s f k v) (fun r _ => setElement_reg s f k v r)
    (by rw [show (s.setElement f k v).ctrl = s.ctrl from setElement_reg s f k v .ctrl]; exact h.ctrlReserved)
    (MemoriesWf_setElement h.memories v hk)

theorem resetEvent_inv {s : State} (h : s.cfg.Valid) : s.resetEvent.Inv :=
  (resetWith_inv h).of_commandRegs rfl (fun _ _ => rfl) (resetWith_inv h).ctrlReserved
    { resetWith_memoriesWf s.cfg with }

theorem perform_inv {e : HostEvent} {s t : State} (hs : s.Inv) (h : perform e s = .next t) : t.Inv := by
  cases e with
  | read addr size =>
    obtain ⟨r, hr⟩ := portRead_eq_respond addr size s
    cases h
    rw [hr]
    exact hs.respond r
  | write addr size v =>
    rcases portWrite_cases h with rfl | ⟨r, hr, rfl⟩ | ⟨f, k, hk, rfl⟩ | rfl | hc
    · exact hs.respond _
    · exact (hs.writeReg hr v).respond _
    · exact (hs.setElement hk v).respond _
    · exact hs.respond _
    · exact startCommand_inv (hs.fits.respond _) hc
  | reset =>
    cases h
    exact resetEvent_inv hs.cfgValid

/-- Settles O48: an idle step changes nothing, and every event keeps the invariant (`perform_inv`). -/
theorem stepKeepsInvariant : Obligations.StepKeepsInvariant := by
  unfold Obligations.StepKeepsInvariant
  intro s t hs h
  cases hp : s.pending with
  | nil => rw [step_of_idle hp] at h; cases h; exact hs
  | cons e rest => rw [step_of_pending hp] at h; exact perform_inv (hs.setPending rest) h

end Sys2Proof.Machine
end

section
/-! PROOFS. The step that runs a command, and the state after reset (10_state R30, R45, R46; 20_memory R60, R71;
70_reset R260). -/

namespace Sys2Proof.Machine

open Sys2Proof

/-! ### The step on a CMD write -/

theorem tableWord_toNat (w : Word) : tableWord 32 w.toNat = w := by
  rw [tableWord, Nat.mod_eq_of_lt w.isLt, BitVec.ofNat_toNat, BitVec.setWidth_eq]

/-- CMD stands at offset 0 of the window (R64). -/
theorem locate_cmd (c : Config) : locate c 0 4 = some (.reg .cmd) := rfl

/-- The write of a command's word to CMD is the command on the state with the word and the answer stored. -/
theorem perform_writeCmd {w : Word} {i : Instr} (h : decodeWord w = .ok i) (s : State) :
    perform (.write 0 4 w) s = exec i { s with cmd := w, response := some .okWrite } := by
  simp only [perform, portWrite, locate_cmd]
  exact startCommand_of_ok h _

/-- Settles O4: by `step_of_pending` and `perform_writeCmd`. -/
theorem stepRunsDecodedCommand : Obligations.StepRunsDecodedCommand := by
  unfold Obligations.StepRunsDecodedCommand
  refine ⟨fun s e rest hp => step_of_pending hp, fun s w i hd => ⟨fun rest hp => ?_, ?_⟩⟩
  · rw [step_of_pending hp, perform_writeCmd hd]
  · rw [step_of_pending (s := s.withFetchWord 32 w.toNat) rfl, tableWord_toNat, perform_writeCmd hd]
    rfl

/-! ### Reset -/

/-- The registers after reset (R45). -/
theorem resetWith_reg (c : Config) (r : Reg) : (State.resetWith c).reg r =
    if r = .ctrl then 0x1#32 else if r = .root then 0xFFFFFFFF#32 else 0#32 := by
  cases r <;> rfl

/-- An array in which nothing has been written reads as the free value, cut to its width (R46). -/
@[simp] theorem Memory.read_nil {w : Nat} (free : Nat → Word) (k : Nat) :
    Memory.read ([] : Memory w) free k = (free k).setWidth w := rfl

/-- After reset every element holds the free value, cut to the width of its field, whatever the count of resets
and the waiting events are (R46). -/
theorem resetWith_element (c : Config) (n : Nat) (pending : List HostEvent) (f : Field) (k : Nat) :
    ({ State.resetWith c with resets := n, pending := pending }.element f k).toNat =
      (Config.unwritten n f k).toNat % 2 ^ fieldWidth f := by
  cases f <;> simp [State.element, State.free, State.resetWith, fieldWidth, symw] <;> omega

/-- Settles O13: `resetWith_reg` and `resetWith_element`, for the reset state and for the reset event. -/
theorem resetState : Obligations.ResetState := by
  unfold Obligations.ResetState
  refine ⟨fun c => ⟨rfl, resetWith_done c, resetWith_reg c, resetWith_element c 0 []⟩, fun s => ?_⟩
  exact ⟨s.resetEvent, rfl, rfl, rfl, resetWith_reg s.cfg, resetWith_done s.cfg,
    resetWith_element s.cfg (s.resets + 1) s.pending⟩

end Sys2Proof.Machine
end

section
/-! PROOFS. What a command leaves unchanged, and what its result depends on (10_state R27, R36, R41, R46;
70_reset R262). A command with an output commits its shadow or takes the fault; so its frame is the frame of those
two ends, and equal shadows give equal results. -/

namespace Sys2Proof.Machine

open Sys2Proof

/-! ### Lengths fit their registers -/

/-- A committed result fits OLEN (R6, R22). -/
theorem outputShadow_lt {i : Instr} {s : State} {out : List Cell} (hc : s.cfg.Valid)
    (hi : i ∈ [Instr.enc, Instr.dec, Instr.xor, Instr.fser]) (h : outputShadow i s = .ok out) :
    out.length < 2 ^ 32 := by
  have hfit := outputShadow_length hi h
  have hnout := hc.2.1.2
  omega

/-- A committed table fits FCNT (R6, R26). -/
theorem fparseShadow_lt {s : State} {p : Parse} (hc : s.cfg.Valid) (h : fparseShadow s = .ok p) :
    p.table.length < 2 ^ 32 := by
  obtain ⟨-, -, -, -, -, -, -, hnfreq⟩ := hc
  rcases fparseShadow_cases s with ⟨q, hq, -, -, -, hle, -⟩ | ⟨r, hr, -⟩ | ⟨hr, -⟩
  · rw [h] at hq
    cases hq
    omega
  · rw [h] at hr
    cases hr
  · rw [h] at hr
    cases hr

/-! ### Frames -/

theorem commitOutput_outCell_of_olen_le {out : List Cell} {s : State} (hout : out.length < 2 ^ 32) {k : Nat}
    (hk : (commitOutput out s).olen.toNat ≤ k) : (commitOutput out s).outCell k = s.outCell k := by
  rw [commitOutput_olen, toNat_ofNat_of_le le_rfl hout] at hk
  exact commitOutput_outCell_ge out s hk

theorem commitTable_freqEntry_of_fcnt_le {table : List (Cell × Word)} {w : Nat} {s : State}
    (htable : table.length < 2 ^ 32) {k : Nat} (hk : (commitTable table w s).fcnt.toNat ≤ k) :
    (commitTable table w s).freqEntry k = s.freqEntry k := by
  rw [commitTable_fcnt, toNat_ofNat_of_le le_rfl htable] at hk
  exact commitTable_freqEntry_ge table w s hk

theorem complete_sameBut (s : State) : SameBut [.status, .errpos] [] s (complete s) := by
  refine ⟨rfl, rfl, rfl, rfl, fun r hr => ?_, fun _ _ _ => rfl⟩
  cases r with
  | status | errpos => simp at hr
  | _ => rfl

/-- Settles O42: the frames of the two ends of a command with an output, its result being no longer than NOUT. -/
theorem outputCommandsFrame : Obligations.OutputCommandsFrame := by
  unfold Obligations.OutputCommandsFrame
  intro i hi s t hc h
  rw [exec_output hi] at h
  rcases finishOutput_cases h with ⟨out, hout, rfl⟩ | ⟨r, -, rfl⟩
  · exact ⟨commitOutput_sameBut out s, fun k hk => commitOutput_outCell_of_olen_le (outputShadow_lt hc hi hout) hk⟩
  · exact ⟨takeFault_output_sameBut r s, fun _ _ => rfl⟩

/-- Settles O43: the frames of the two ends of FPARSE, its table being no longer than NFREQ, and of NOP's one. -/
theorem tableCommandAndNopFrame : Obligations.TableCommandAndNopFrame := by
  unfold Obligations.TableCommandAndNopFrame
  intro s t hc
  constructor
  · intro h
    rcases execFparse_cases h with ⟨p, hp, rfl⟩ | ⟨r, w, -, rfl⟩
    · exact ⟨commitTable_sameBut p.table p.warn s,
        fun k hk => commitTable_freqEntry_of_fcnt_le (fparseShadow_lt hc hp) hk⟩
    · exact ⟨takeFault_table_sameBut w r s, fun _ _ => rfl⟩
  · intro h
    cases h
    exact complete_sameBut s

/-! ### Equal operands, equal results -/

/-- The shadow of a command with an output depends on its operands alone (R262). -/
theorem outputShadow_congr {i : Instr} {s u : State} (hi : i ∈ [Instr.enc, Instr.dec, Instr.xor, Instr.fser])
    (h : AgreeFor i s u) : outputShadow i s = outputShadow i u := by
  cases i with
  | enc => exact encShadow_congr h
  | dec => exact decShadow_congr h
  | xor => exact xorShadow_congr h
  | fser => exact fserShadow_congr h
  | nop | fparse => simp at hi

/-- Committing or faulting on one shadow leaves the same result, whatever the state was. -/
theorem finishOutput_congr {shadow : Except Raise (List Cell)} {s u t v : State}
    (hlt : ∀ out, shadow = .ok out → out.length < 2 ^ 32) (ht : finishOutput shadow s = .next t)
    (hv : finishOutput shadow u = .next v) :
    t.status = v.status ∧ t.errpos = v.errpos ∧ t.olen = v.olen ∧ t.output = v.output := by
  cases shadow with
  | ok out =>
    cases ht
    cases hv
    have hout := hlt out rfl
    exact ⟨rfl, rfl, rfl, (commitOutput_output out s hout).trans (commitOutput_output out u hout).symm⟩
  | error r =>
    cases ht
    cases hv
    exact ⟨rfl, rfl, rfl, rfl⟩

/-- The result of a command with an output depends on its operands alone. -/
theorem exec_output_congr {i : Instr} (hi : i ∈ [Instr.enc, Instr.dec, Instr.xor, Instr.fser]) {s u t v : State}
    (hc : s.cfg.Valid) (h : AgreeFor i s u) (ht : exec i s = .next t) (hv : exec i u = .next v) :
    t.status = v.status ∧ t.errpos = v.errpos ∧ t.olen = v.olen ∧ t.output = v.output := by
  rw [exec_output hi] at ht
  rw [exec_output hi, ← outputShadow_congr hi h] at hv
  exact finishOutput_congr (fun _ hout => outputShadow_lt hc hi hout) ht hv

theorem execFparse_of_ok {s : State} {p : Parse} (h : fparseShadow s = .ok p) :
    execFparse s = .next (commitTable p.table p.warn s) := by
  simp only [execFparse, h]

theorem execFparse_of_error {s : State} {r : Raise} {warn : Nat} (h : fparseShadow s = .error (r, warn)) :
    execFparse s = .next (takeFault (.table warn) r s) := by
  simp only [execFparse, h]

/-- The table of FPARSE depends on its operands alone. -/
theorem execFparse_congr {s u t v : State} (hc : s.cfg.Valid) (h : AgreeFor .fparse s u)
    (ht : execFparse s = .next t) (hv : execFparse u = .next v) :
    t.status = v.status ∧ t.errpos = v.errpos ∧ t.fcnt = v.fcnt ∧ t.warn = v.warn ∧ t.table = v.table := by
  have hshadow := fparseShadow_congr h
  cases hs : fparseShadow s with
  | ok p =>
    rw [execFparse_of_ok hs] at ht
    rw [execFparse_of_ok (hshadow.symm.trans hs)] at hv
    cases ht
    cases hv
    have hlt := fparseShadow_lt hc hs
    exact ⟨rfl, rfl, rfl, rfl, (commitTable_table _ _ s hlt).trans (commitTable_table _ _ u hlt).symm⟩
  | error e =>
    rw [execFparse_of_error hs] at ht
    rw [execFparse_of_error (hshadow.symm.trans hs)] at hv
    cases ht
    cases hv
    exact ⟨rfl, rfl, rfl, rfl, rfl⟩

/-- Settles O50: `exec_output_congr` for the commands with an output, `execFparse_congr` for FPARSE; NOP completes
in every state. -/
theorem resultsDependOnlyOnOperands : Obligations.ResultsDependOnlyOnOperands := by
  unfold Obligations.ResultsDependOnlyOnOperands
  intro i s u t v hc h ht hv
  cases i with
  | nop => cases ht; cases hv; exact ⟨rfl, rfl, trivial⟩
  | fparse => exact execFparse_congr hc h ht hv
  | enc | dec | xor | fser => exact exec_output_congr (by decide) hc h ht hv

end Sys2Proof.Machine
end

section
/-! PROOFS. The command word as bytes (20_memory R67; 30_encoding R90, R100, R101). -/

namespace Sys2Proof

/-- The word of a word's four bytes is that word (R67); `bytes_word` is the other direction. -/
theorem wordOfBytes_byteOfWord (w : Word) :
    wordOfBytes (byteOfWord w 0) (byteOfWord w 1) (byteOfWord w 2) (byteOfWord w 3) = w := by
  have hw := w.isLt
  apply BitVec.eq_of_toNat_eq
  simp only [wordOfBytes, byteOfWord, BitVec.toNat_ofNat]
  omega

/-- Four bytes stand for a command's word exactly when they are that command's bytes. -/
theorem wordOfBytes_eq_encode_iff {b0 b1 b2 b3 : Byte} {i : Instr} :
    wordOfBytes b0 b1 b2 b3 = encode i ↔ [b0, b1, b2, b3] = encodeBytes i := by
  constructor
  · intro h
    obtain ⟨h0, h1, h2, h3⟩ := bytes_word b0 b1 b2 b3
    rw [encodeBytes, ← h, h0, h1, h2, h3]
  · intro h
    simp only [encodeBytes, List.cons.injEq, and_true] at h
    obtain ⟨rfl, rfl, rfl, rfl⟩ := h
    exact wordOfBytes_byteOfWord (encode i)

/-- Each command has one word, the one of its row of the command map (R100). -/
theorem decodeWord_eq_ok_iff {w : Word} {i : Instr} : decodeWord w = .ok i ↔ w = encode i := by
  constructor
  · intro h
    rcases decodeWord_cases w with ⟨j, hw, hj⟩ | ⟨-, e, he⟩
    · cases h.symm.trans hj
      exact hw
    · cases h.symm.trans he
  · rintro rfl
    exact decodeWord_encode i

/-- From four bytes on, the decoder reads the word they stand for and hands the rest back. -/
theorem decode_cons_eq_ok_iff {b0 b1 b2 b3 : Byte} {bytes rest : List Byte} {i : Instr} :
    decode (b0 :: b1 :: b2 :: b3 :: bytes) = .ok (i, rest) ↔
      decodeWord (wordOfBytes b0 b1 b2 b3) = .ok i ∧ bytes = rest := by
  rw [decode]
  cases decodeWord (wordOfBytes b0 b1 b2 b3) <;> simp [Except.map]

/-- What the decoder accepts has four bytes at least: the port has no shorter access (R61). -/
theorem four_le_length_of_decode_eq_ok {bytes : List Byte} {r : Instr × List Byte} (h : decode bytes = .ok r) :
    4 ≤ bytes.length := by
  unfold decode at h
  split at h
  · simp
  · cases h

/-- A list of bytes decodes to a command and a rest exactly when it is that command's bytes followed by that rest. -/
theorem decode_eq_ok_iff {bytes rest : List Byte} {i : Instr} :
    decode bytes = .ok (i, rest) ↔ bytes = encodeBytes i ++ rest := by
  match bytes with
  | b0 :: b1 :: b2 :: b3 :: bytes =>
    rw [decode_cons_eq_ok_iff, decodeWord_eq_ok_iff, wordOfBytes_eq_encode_iff]
    simp [encodeBytes, and_assoc]
  | [] | [_] | [_, _] | [_, _, _] =>
    constructor
    · intro h
      simpa using four_le_length_of_decode_eq_ok h
    · intro h
      simpa [encodeBytes] using congrArg List.length h

/-- Settles O3: the two directions of `decode_eq_ok_iff`. -/
theorem decodeEncodeBytesAgree : Obligations.DecodeEncodeBytesAgree := by
  unfold Obligations.DecodeEncodeBytesAgree
  exact ⟨fun _ _ _ => decode_eq_ok_iff.2 rfl, fun _ _ _ => decode_eq_ok_iff.1⟩

end Sys2Proof
end

section
/-! PROOFS. The host port (20_memory R61 to R67): one rule for each thing a transaction can reach, then what the
port answers and changes at each place of the address map. -/

namespace Sys2Proof.Machine

open Sys2Proof

/-! ### One transaction, by what its address reaches -/

section Transaction

variable {s : State} {addr size : Nat}

theorem perform_read_of_locate_none (h : locate s.cfg addr size = none) :
    perform (.read addr size) s = .next (s.respond .busError) := by
  simp only [perform, portRead, h]

theorem perform_read_of_locate {l : Loc} (h : locate s.cfg addr size = some l) :
    perform (.read addr size) s = .next (s.respond (.okRead (s.readLoc l))) := by
  simp only [perform, portRead, h]

theorem perform_write_of_locate_none (h : locate s.cfg addr size = none) (v : Word) :
    perform (.write addr size v) s = .next (s.respond .busError) := by
  simp only [perform, portWrite, h]

theorem perform_write_of_locate_cmd (h : locate s.cfg addr size = some (.reg .cmd)) (v : Word) :
    perform (.write addr size v) s = startCommand v (s.respond .okWrite) := by
  simp only [perform, portWrite, h]

/-- A write that does not reach CMD is its store alone (R62). -/
theorem perform_write_of_locate {l : Loc} (h : locate s.cfg addr size = some l) (hl : l ≠ .reg .cmd) (v : Word) :
    perform (.write addr size v) s = .next ((s.writeLoc l v).respond .okWrite) := by
  simp only [perform, portWrite, h]

/-- A read that answers Ok reached something, and its answer is what stands there. -/
theorem locate_of_perform_read_ok {t : State} {w : Word} (h : perform (.read addr size) s = .next t)
    (hw : t.response = some (.okRead w)) : ∃ l, locate s.cfg addr size = some l ∧ s.readLoc l = w := by
  cases hloc : locate s.cfg addr size with
  | none =>
    rw [perform_read_of_locate_none hloc] at h
    cases h
    simp at hw
  | some l =>
    rw [perform_read_of_locate hloc] at h
    cases h
    exact ⟨l, rfl, by simpa using hw⟩

/-- The command a write to CMD runs leaves the write's answer. -/
theorem startCommand_response {w : Word} {t : State} (h : startCommand w s = .next t) : t.response = s.response := by
  cases hd : decodeWord w with
  | ok i =>
    rw [startCommand_of_ok hd] at h
    obtain ⟨-, hresponse, -⟩ := exec_port h
    exact hresponse
  | error e =>
    rw [startCommand_of_error hd] at h
    cases h
    exact takeFault_response _ _ _

/-- A write that reaches something answers Ok, the write that runs a command included (R61). -/
theorem perform_write_answers_ok {l : Loc} (h : locate s.cfg addr size = some l) (v : Word) :
    ∃ t, perform (.write addr size v) s = .next t ∧ t.response = some .okWrite := by
  by_cases hl : l = .reg .cmd
  · subst hl
    obtain ⟨t, ht⟩ := startCommand_total v (s.respond .okWrite)
    exact ⟨t, (perform_write_of_locate_cmd h v).trans ht, startCommand_response ht⟩
  · exact ⟨_, perform_write_of_locate h hl v, rfl⟩

end Transaction

/-! ### Reads (R62) -/

/-- No element depends on the port's last answer. -/
@[simp] theorem respond_element (s : State) (r : PortResponse) (f : Field) (k : Nat) :
    (s.respond r).element f k = s.element f k := by
  cases f <;> rfl

@[simp] theorem respond_reg (s : State) (r : PortResponse) (q : Reg) : (s.respond r).reg q = s.reg q := by
  cases q <;> rfl

/-- What stands at a location does not depend on the port's last answer. -/
@[simp] theorem respond_readLoc (s : State) (r : PortResponse) (l : Loc) : (s.respond r).readLoc l = s.readLoc l := by
  cases l with
  | reg q => cases q <;> rfl
  | element f k => exact respond_element s r f k
  | reserved => rfl

/-- A read does not see the last answer, and records its own in its place. -/
theorem portRead_respond (addr size : Nat) (s : State) (r : PortResponse) :
    portRead addr size (s.respond r) = portRead addr size s := by
  simp only [portRead, respond_cfg, respond_readLoc]
  rfl

/-- Settles O7: a read records its answer alone (`portRead_eq_respond`) and does not see the last one
(`portRead_respond`). -/
theorem readHasNoSideEffect : Obligations.ReadHasNoSideEffect := by
  unfold Obligations.ReadHasNoSideEffect
  intro s addr size
  obtain ⟨r, hr⟩ := portRead_eq_respond addr size s
  exact ⟨r, congrArg _ hr, congrArg _ ((portRead_respond addr size s r).trans hr)⟩

/-- Settles O8: `locate_none_iff` says which transactions reach nothing; those answer BusError and the others Ok. -/
theorem busErrorExactlyWhenR65Says : Obligations.BusErrorExactlyWhenR65Says := by
  unfold Obligations.BusErrorExactlyWhenR65Says
  intro s addr size v space off bad
  have hbad : locate s.cfg addr size = none ↔ bad := locate_none_iff s.cfg addr size
  constructor
  · intro hb
    have hnone := hbad.2 hb
    exact ⟨perform_read_of_locate_none hnone, perform_write_of_locate_none hnone v⟩
  · intro hb
    obtain ⟨l, hl⟩ := Option.ne_none_iff_exists'.1 (mt hbad.1 hb)
    exact ⟨⟨_, perform_read_of_locate hl⟩, perform_write_answers_ok hl v⟩

/-! ### Elements (R63, R64) -/

@[simp] theorem setElement_resets (s : State) (f : Field) (k : Nat) (v : Word) :
    (s.setElement f k v).resets = s.resets := by
  cases f <;> rfl

@[simp] theorem setElement_pending (s : State) (f : Field) (k : Nat) (v : Word) :
    (s.setElement f k v).pending = s.pending := by
  cases f <;> rfl

/-- A stored element reads back its low bits. -/
theorem setElement_element_self (s : State) (f : Field) (k : Nat) (v : Word) :
    ((s.setElement f k v).element f k).toNat = v.toNat % 2 ^ fieldWidth f := by
  rw [setElement_element, if_pos ⟨rfl, rfl⟩]

/-- Storing one element leaves every other one. -/
theorem setElement_element_of_ne (s : State) {f g : Field} {k j : Nat} (v : Word) (h : g ≠ f ∨ j ≠ k) :
    (s.setElement f k v).element g j = s.element g j := by
  apply BitVec.eq_of_toNat_eq
  rw [setElement_element, if_neg (by tauto)]

/-- Settles O9: the address of an element reaches it (`locate_element`), and the store there is `setElement`. -/
theorem portReadsAndWritesElements : Obligations.PortReadsAndWritesElements := by
  unfold Obligations.PortReadsAndWritesElements
  intro s f k v hc hk
  refine ⟨perform_read_of_locate (locate_element hc hk), element_lt s f k, _, perform_wrElem hc hk v, ?_, ?_, ?_,
    ?_, ?_, ?_, rfl⟩
  · rw [respond_element, setElement_element_self]
  · intro g j hgj
    rw [respond_element, setElement_element_of_ne s v hgj]
  · intro r
    rw [respond_reg, setElement_reg]
  · rw [respond_cfg, setElement_cfg]
  · rw [respond_resets, setElement_resets]
  · rw [respond_pending, setElement_pending]

/-! ### Reserved words (R64) -/

/-- The aligned words of the CODE entries inside the capacity. -/
theorem locate_codeWord {c : Config} (hc : c.Valid) {k o : Nat} (hk : k < c.ncode) (ho : o < 16) (h4 : o % 4 = 0) :
    locate c (0x04000000 + 16 * k + o) 4 = some (codeWordAt k o) := by
  obtain ⟨-, -, -, ⟨-, hmax⟩, -⟩ := hc
  have hspace : (0x04000000 + 16 * k + o) / 16777216 = 4 := by omega
  have hentry : (0x04000000 + 16 * k + o) % 16777216 / 16 = k := by omega
  have hword : (0x04000000 + 16 * k + o) % 16777216 % 16 = o := by omega
  rw [locate_four (by omega) (by omega)]
  simp only [hspace, hentry, hword, if_pos hk]

/-- The aligned words of the FREQ entries inside the capacity. -/
theorem locate_freqWord {c : Config} (hc : c.Valid) {k o : Nat} (hk : k < c.nfreq) (ho : o < 16) (h4 : o % 4 = 0) :
    locate c (0x07000000 + 16 * k + o) 4 = some (freqWordAt k o) := by
  obtain ⟨-, -, -, -, -, -, -, hmax⟩ := hc
  have hspace : (0x07000000 + 16 * k + o) / 16777216 = 7 := by omega
  have hentry : (0x07000000 + 16 * k + o) % 16777216 / 16 = k := by omega
  have hword : (0x07000000 + 16 * k + o) % 16777216 % 16 = o := by omega
  rw [locate_four (by omega) (by omega)]
  simp only [hspace, hentry, hword, if_pos hk]

/-- A reserved word reads 0 and ignores writes. -/
theorem perform_of_locate_reserved {s : State} {addr size : Nat} (h : locate s.cfg addr size = some .reserved)
    (v : Word) :
    perform (.read addr size) s = .next { s with response := some (.okRead 0#32) } ∧
    perform (.write addr size v) s = .next { s with response := some .okWrite } :=
  ⟨perform_read_of_locate h, perform_write_of_locate h (by decide) v⟩

/-- Settles O10: the three addresses reach reserved words (`locate_codeWord`, `locate_freqWord`). -/
theorem reservedWordsReadZero : Obligations.ReservedWordsReadZero := by
  unfold Obligations.ReservedWordsReadZero
  intro s k v hc
  constructor
  · intro hk addr haddr
    rw [List.mem_singleton.1 haddr]
    exact perform_of_locate_reserved (locate_codeWord hc hk (by decide) (by decide)) v
  · intro hk addr haddr
    rcases List.mem_pair.1 haddr with rfl | rfl
    · exact perform_of_locate_reserved (locate_freqWord hc hk (by decide) (by decide)) v
    · exact perform_of_locate_reserved (locate_freqWord hc hk (by decide) (by decide)) v

/-! ### Registers (R64, R66) -/

/-- The offset of a register reaches it, whatever the capacities are. -/
theorem locate_regAddr (c : Config) (r : Reg) : locate c (regAddr r) 4 = some (.reg r) := by
  cases r <;> rfl

theorem perform_rdReg (s : State) (r : Reg) : perform (rdReg r) s = .next (s.respond (.okRead (s.readReg r))) :=
  perform_read_of_locate (locate_regAddr s.cfg r)

theorem perform_wrReg (s : State) {r : Reg} (hr : r ≠ .cmd) (v : Word) :
    perform (wrReg r v) s = .next ((s.writeReg r v).respond .okWrite) :=
  perform_write_of_locate (locate_regAddr s.cfg r) (by simpa using hr) v

/-- The registers a host write leaves alone (R66). -/
def readOnlyRegs : List Reg := [.status, .olen, .warn, .errpos]

theorem writeReg_of_readOnly (s : State) {r : Reg} (hr : r ∈ readOnlyRegs) (v : Word) : s.writeReg r v = s := by
  fin_cases hr <;> rfl

theorem perform_wrReg_of_readOnly (s : State) {r : Reg} (hr : r ∈ readOnlyRegs) (v : Word) :
    perform (wrReg r v) s = .next (s.respond .okWrite) := by
  rw [perform_wrReg s (by rintro rfl; exact absurd hr (by decide)) v, writeReg_of_readOnly s hr v]

/-- Settles O11: the addresses are those of `regAddr`, so each transaction is one of `perform_wrReg_of_readOnly`,
`perform_wrReg` and `perform_rdReg`. -/
theorem portReadsAndWritesRegisters : Obligations.PortReadsAndWritesRegisters := by
  unfold Obligations.PortReadsAndWritesRegisters
  intro s v
  refine ⟨?_, perform_wrReg s (r := .ctrl) (by decide) v, perform_wrReg s (r := .ilen) (by decide) v,
    perform_wrReg s (r := .klen) (by decide) v, perform_wrReg s (r := .ccnt) (by decide) v,
    perform_wrReg s (r := .root) (by decide) v, perform_wrReg s (r := .fcnt) (by decide) v, ?_⟩
  · change ∀ addr ∈ readOnlyRegs.map regAddr, _
    exact List.forall_mem_map.2 fun r hr => perform_wrReg_of_readOnly s hr v
  · change ∀ entry ∈ ([.cmd, .status, .ctrl, .ilen, .olen, .klen, .ccnt, .root, .fcnt, .warn, .errpos] :
      List Reg).map fun r => (regAddr r, s.readReg r), _
    exact List.forall_mem_map.2 fun r _ => perform_rdReg s r

/-! ### The window as bytes (R67) -/

/-- The byte at offset `k` of the word at an aligned address. -/
theorem windowByte_add {s : State} {addr k : Nat} {l : Loc} (haddr : addr % 4 = 0) (hk : k < 4)
    (h : locate s.cfg addr 4 = some l) : s.windowByte (addr + k) = some (byteOfWord (s.readLoc l) k) := by
  have hbyte : (addr + k) % 4 = k := by omega
  rw [State.windowByte, hbyte, Nat.add_sub_cancel, h, Option.map_some]

/-- Settles O12: the word read is what stands at the address (`locate_of_perform_read_ok`), and the byte is taken
from it (`windowByte_add`). -/
theorem windowBytesAreLittleEndian : Obligations.WindowBytesAreLittleEndian := by
  unfold Obligations.WindowBytesAreLittleEndian
  intro s addr k w haddr hk h
  obtain ⟨l, hl, rfl⟩ := locate_of_perform_read_ok h rfl
  exact windowByte_add haddr hk hl

end Sys2Proof.Machine
end

section
/-! PROOFS. The command map as match and mask (30_encoding R90, R100, R101). -/

namespace Sys2Proof

/-- R100: a word is a command's exactly when it matches that command's row under the row's mask. -/
theorem decodeWord_eq_ok_iff_masked {w : Word} {i : Instr} :
    decodeWord w = .ok i ↔ w &&& commandMask i = encode i := by
  have hmask : commandMask i = BitVec.allOnes 32 := by cases i <;> rfl
  rw [hmask, BitVec.and_allOnes, decodeWord_eq_ok_iff]

/-- R101: the decoder rejects a word exactly when a bit of 31:8 is set or OPC is above 5. -/
theorem decodeWord_error_iff {w : Word} :
    (∃ e, decodeWord w = .error e) ↔ w.toNat / 2 ^ 8 ≠ 0 ∨ 5 < w.toNat % 2 ^ 8 := by
  rcases decodeWord_cases w with ⟨i, hw, hi⟩ | ⟨hillegal, he⟩
  · have hlt : w.toNat < 6 := hw ▸ encode_lt i
    constructor
    · rintro ⟨e, he⟩
      cases hi.symm.trans he
    · omega
  · exact iff_of_true he hillegal

/-- Settles O1: the six words are the commands' own (`decodeWord_encode`); the three illegal ones are computed. -/
theorem sampleCommandWords : Obligations.SampleCommandWords := by
  unfold Obligations.SampleCommandWords
  exact ⟨decodeWord_encode .nop, decodeWord_encode .enc, decodeWord_encode .dec, decodeWord_encode .xor,
    decodeWord_encode .fparse, decodeWord_encode .fser, rfl, rfl, rfl⟩

/-- Settles O2: `decodeWord_eq_ok_iff_masked` at each row of the map, and `decodeWord_error_iff`. -/
theorem decodeMatchesCommandMap : Obligations.DecodeMatchesCommandMap := by
  unfold Obligations.DecodeMatchesCommandMap
  intro w
  have row (i : Instr) : decodeWord w = .ok i ↔ w &&& commandMask i = encode i := decodeWord_eq_ok_iff_masked
  exact ⟨row .nop, row .enc, row .dec, row .xor, row .fparse, row .fser, decodeWord_error_iff⟩

end Sys2Proof
end

section
/-! PROOFS. `mvout` through the port (10_state R22; 30_encoding R108, R109): its loop copies OUT to IN cell by cell,
so after the first `n` rounds the state is `State.movedFirst n`. -/

namespace Sys2Proof.Machine

open Sys2Proof

/-- Storing a sequence with one element more stores that element after the others. -/
theorem Memory.writeFrom_concat {w : Nat} (vs : List (BitVec w)) (v : BitVec w) : ∀ (m : Memory w) (k : Nat),
    Memory.writeFrom m k (vs ++ [v]) = Memory.write (Memory.writeFrom m k vs) (k + vs.length) v := by
  induction vs with
  | nil => intro m k; rfl
  | cons x vs ih =>
    intro m k
    rw [List.cons_append, Memory.writeFrom, ih, Memory.writeFrom, List.length_cons, Nat.add_right_comm, Nat.add_assoc]

/-- The word the port reads for a cell of OUT, cut back to a cell, is that cell. -/
theorem element_output_setWidth (s : State) (i : Nat) : (s.element .output i).setWidth symw = s.outCell i :=
  setWidth_cell (s.outCell i)

/-- A read of an element inside its array answers the element and changes nothing else (R62, R64). -/
theorem perform_rdElem {s : State} (hc : s.cfg.Valid) {f : Field} {k : Nat} (hk : k < s.cfg.capacity f) :
    perform (rdElem f k) s = .next (s.respond (.okRead (s.element f k))) :=
  perform_read_of_locate (locate_element hc hk)

theorem performAll_cons_next {e : HostEvent} {events : List HostEvent} {s t : State} (h : perform e s = .next t) :
    performAll (e :: events) s = performAll events t := by
  simp only [performAll, h]

theorem respond_respond (s : State) (r answer : PortResponse) : (s.respond r).respond answer = s.respond answer := rfl

/-- The rounds of the loop of `mvout` for the cells below `n` (R109). -/
def moveRounds (s : State) (n : Nat) : List HostEvent :=
  (List.range n).flatMap fun i => [rdElem .output i, wrElem .input i (s.element .output i)]

theorem moveRounds_succ (s : State) (n : Nat) :
    moveRounds s (n + 1) = moveRounds s n ++ [rdElem .output n, wrElem .input n (s.element .output n)] := by
  simp [moveRounds, List.range_succ]

theorem mvoutScript_eq (s : State) :
    mvoutScript s = rdReg .olen :: (moveRounds s s.olen.toNat ++ [wrReg .ilen s.olen]) := rfl

/-- The state with the first `n` cells of OUT copied to IN. -/
def State.movedFirst (s : State) (n : Nat) : State :=
  { s with inMem := Memory.writeFrom s.inMem 0 ((List.range n).map s.outCell) }

/-- Storing the next cell of OUT in IN copies one cell more. -/
theorem setElement_movedFirst (s : State) (n : Nat) :
    (s.movedFirst n).setElement .input n (s.element .output n) = s.movedFirst (n + 1) := by
  rw [State.movedFirst, State.movedFirst, List.range_succ, List.map_append, List.map_singleton,
    Memory.writeFrom_concat, List.length_map, List.length_range, Nat.zero_add, State.setElement,
    element_output_setWidth]

/-- One round of the loop: the read answers, the write stores the next cell. -/
theorem performAll_moveRound {s : State} {n : Nat} (hc : s.cfg.Valid) (hin : n < s.cfg.nin) (hout : n < s.cfg.nout)
    (r : PortResponse) :
    performAll [rdElem .output n, wrElem .input n (s.element .output n)] ((s.movedFirst n).respond r) =
      .next ((s.movedFirst (n + 1)).respond .okWrite) := by
  have hvalid (answer : PortResponse) : ((s.movedFirst n).respond answer).cfg.Valid := hc
  rw [performAll_cons_next (perform_rdElem (hvalid r) (f := .output) hout), respond_respond,
    performAll_cons_next (perform_wrElem (hvalid _) (f := .input) hin _), ← setElement_movedFirst]
  rfl

theorem performAll_moveRounds {s : State} (hc : s.cfg.Valid) (r : PortResponse) : ∀ n ≤ s.cfg.nin, n ≤ s.cfg.nout →
    ∃ answer, performAll (moveRounds s n) (s.respond r) = .next ((s.movedFirst n).respond answer) := by
  intro n
  induction n with
  | zero => intro _ _; exact ⟨r, rfl⟩
  | succ n ih =>
    intro hin hout
    obtain ⟨answer, h⟩ := ih (by omega) (by omega)
    exact ⟨.okWrite, by rw [moveRounds_succ, performAll_append_next h, performAll_moveRound hc hin hout]⟩

/-- `mvout` of a result that fits IN leaves the moved state, and its last write answers Ok. -/
theorem performAll_mvoutScript {s : State} (hc : s.cfg.Valid) (hin : s.olen.toNat ≤ s.cfg.nin)
    (hout : s.olen.toNat ≤ s.cfg.nout) : performAll (mvoutScript s) s = .next (s.movedOut.respond .okWrite) := by
  obtain ⟨answer, h⟩ := performAll_moveRounds hc (.okRead (s.readReg .olen)) s.olen.toNat hin hout
  rw [mvoutScript_eq, performAll_cons_next (perform_rdReg s .olen), performAll_append_next h,
    performAll_cons_next (perform_wrReg _ (r := .ilen) (by decide) _)]
  rfl

/-- Settles O52: the transactions by `performAll_mvoutScript`, the input they leave by `movedOut_input`. -/
theorem mvoutMovesLastResult : Obligations.MvoutMovesLastResult := by
  unfold Obligations.MvoutMovesLastResult
  exact fun s hc hin hout => ⟨performAll_mvoutScript hc hin hout, movedOut_input s⟩

end Sys2Proof.Machine
end

section
/-! PROOFS. The payload file (30_encoding R107; 45_host R219): two lines, the marker and the payload. -/

namespace Sys2Proof.Machine

open Sys2Proof

/-- Two lines with no newline inside, each ended by one, are the lines of their text (R171). -/
theorem recordLines_two {l m : List Cell} (hl : chNL ∉ l) (hm : chNL ∉ m) :
    recordLines (l ++ chNL :: (m ++ [chNL])) = [(0, l), (l.length + 1, m)] := by
  rw [recordLines, linesFrom_line l _ _ _ _ hl, linesFrom_line m _ _ _ _ hm]
  simp [linesFrom]

/-- The marker line of a payload file (R107). -/
def payloadMark (ciphered : Bool) : List Cell := if ciphered then markEncrypted else markPlain

theorem newline_notMem_payloadMark (ciphered : Bool) : chNL ∉ payloadMark ciphered := by
  cases ciphered <;> decide

theorem markPlain_ne_markEncrypted : markPlain ≠ markEncrypted := by decide

theorem payloadFile_eq (ciphered : Bool) (payload : List Cell) :
    payloadFile ciphered payload = payloadMark ciphered ++ chNL :: (payload ++ [chNL]) := by
  simp [payloadFile, payloadMark]

/-- A file whose first line is a marker gives the mark and the other lines joined (R219). -/
theorem readPayloadFile_of_mark {file : List Cell} {ciphered : Bool} {start : Nat} {lines : List (Nat × List Cell)}
    (h : recordLines file = (start, payloadMark ciphered) :: lines) :
    readPayloadFile file = some (ciphered, (lines.map Prod.snd).flatten) := by
  rw [readPayloadFile, h]
  cases ciphered with
  | true => exact if_pos rfl
  | false => exact (if_neg markPlain_ne_markEncrypted).trans (if_pos rfl)

/-- Settles O59: the file's lines are the marker and the payload (`recordLines_two`), and the payload is the only
line after the marker. -/
theorem payloadFileReadsBack : Obligations.PayloadFileReadsBack := by
  unfold Obligations.PayloadFileReadsBack
  intro ciphered payload hpayload
  rw [payloadFile_eq, readPayloadFile_of_mark (recordLines_two (newline_notMem_payloadMark ciphered) hpayload)]
  simp

end Sys2Proof.Machine
end

section
/-! PROOFS. ENC (40_encode R130 to R135): the checks before the first character, the lookup, the faults at a character
and the completed command. Where the first `n` characters of IN were encoded, the shadow is `State.encodedFirst`. -/

namespace Sys2Proof.Machine

open Sys2Proof

/-! ### The checks before the first character (R131) -/

theorem encCheck_of_nin_lt {s : State} (h : s.cfg.nin < s.ilen.toNat) :
    encCheck s = some { kind := .capacity, pos := s.cfg.nin } := if_pos h

theorem encCheck_of_ncode_lt {s : State} (hin : s.ilen.toNat ≤ s.cfg.nin) (h : s.cfg.ncode < s.ccnt.toNat) :
    encCheck s = some { kind := .capacity, pos := s.cfg.ncode } := by
  rw [encCheck, if_neg hin.not_gt, if_pos h]

theorem encCheck_of_empty {s : State} (hin : s.ilen.toNat ≤ s.cfg.nin) (hccnt : s.ccnt.toNat ≤ s.cfg.ncode)
    (h : s.ilen = 0#32) : encCheck s = some { kind := .emptySource, pos := 0 } := by
  rw [encCheck, if_neg hin.not_gt, if_neg hccnt.not_gt, if_pos h]

theorem encShadow_of_check {s : State} {r : Raise} (h : encCheck s = some r) : encShadow s = .error r := by
  simp only [encShadow, h]

/-- When the checks pass, the shadow is the loop over the text. -/
theorem encShadow_of_check_none {s : State} (h : encCheck s = none) : encShadow s = encFrom s 0 s.input [] := by
  simp only [encShadow, h]

/-- A raise inside ENC is its fault (R240). -/
theorem exec_enc_of_error {s : State} {r : Raise} {status : Word} (hstatus : statusWord r.kind.code = status)
    (h : encShadow s = .error r) : exec .enc s = .next (s.outputFault status r.pos) := by
  rw [exec_output (by decide), outputShadow, h, finishOutput_error, hstatus]

/-- Settles O15: the three checks in order, each raise being the fault ENC takes (`exec_enc_of_error`). -/
theorem encChecksInOrder : Obligations.EncChecksInOrder := by
  unfold Obligations.EncChecksInOrder
  exact fun s => ⟨fun h => exec_enc_of_error status_capacity (encShadow_of_check (encCheck_of_nin_lt h)),
    fun hin h => exec_enc_of_error status_capacity (encShadow_of_check (encCheck_of_ncode_lt hin h)),
    fun hin hccnt h => exec_enc_of_error status_emptySource (encShadow_of_check (encCheck_of_empty hin hccnt h))⟩

/-! ### The lookup (R132) -/

theorem lookup_eq_some_iff {s : State} {sym : Cell} {j : Nat} : s.lookup sym = some j ↔
    j < s.ccnt.toNat ∧ (s.codeEntry j).sym = sym ∧ (s.codeEntry j).len ≠ 0#32 ∧
    ∀ k < j, ¬((s.codeEntry k).sym = sym ∧ (s.codeEntry k).len ≠ 0#32) := by
  rw [State.lookup, List.find?_range_eq_some]
  simp only [List.mem_range, Bool.and_eq_true, beq_iff_eq, bne_iff_ne, Bool.not_eq_true', ← Bool.not_eq_true]
  tauto

theorem lookup_eq_none_iff {s : State} {sym : Cell} : s.lookup sym = none ↔
    ∀ k < s.ccnt.toNat, ¬((s.codeEntry k).sym = sym ∧ (s.codeEntry k).len ≠ 0#32) := by
  rw [State.lookup, List.find?_range_eq_none]
  simp only [Bool.and_eq_true, beq_iff_eq, bne_iff_ne, Bool.not_eq_true', ← Bool.not_eq_true]

/-- Settles O16: by `lookup_eq_some_iff` and `lookup_eq_none_iff`. -/
theorem lookupFindsLowestEntry : Obligations.LookupFindsLowestEntry := by
  unfold Obligations.LookupFindsLowestEntry
  exact fun _ _ => ⟨fun _ => lookup_eq_some_iff, lookup_eq_none_iff⟩

/-- A chosen entry has a code of at least one digit (R134 a). -/
theorem one_le_len_of_lookup {s : State} {sym : Cell} {j : Nat} (h : s.lookup sym = some j) :
    1 ≤ (s.codeEntry j).len.toNat := by
  obtain ⟨-, -, hlen, -⟩ := lookup_eq_some_iff.1 h
  exact Nat.one_le_iff_ne_zero.2 fun h0 => hlen (BitVec.eq_of_toNat_eq h0)

/-! ### The codes of the first characters (R133) -/

/-- The number of digits of the codes of the first `n` characters; `j k` is the entry of character `k`. -/
def State.codesLength (s : State) (j : Nat → Nat) (n : Nat) : Nat :=
  ((List.range n).map fun k => (s.codeEntry (j k)).len.toNat).sum

/-- The codes of the first `n` characters one after another, as digit cells. -/
def State.encodedFirst (s : State) (j : Nat → Nat) (n : Nat) : List Cell :=
  ((List.range n).map fun k => (s.codeDigits (j k)).map bitCell).flatten

theorem codesLength_succ (s : State) (j : Nat → Nat) (n : Nat) :
    s.codesLength j (n + 1) = s.codesLength j n + (s.codeEntry (j n)).len.toNat := by
  simp [State.codesLength, List.range_succ]

theorem encodedFirst_length (s : State) (j : Nat → Nat) (n : Nat) :
    (s.encodedFirst j n).length = s.codesLength j n := by
  simp [State.encodedFirst, State.codesLength, List.length_flatten, Function.comp_def, codeDigits_length]

/-- The digits written out as the cells of R9. -/
theorem encodedFirst_eq (s : State) (j : Nat → Nat) (n : Nat) : s.encodedFirst j n =
    ((List.range n).map fun k =>
      (s.codeDigits (j k)).map fun d => if d = 1#1 then 0x0031#symw else 0x0030#symw).flatten := by
  simp only [bitCell_eq_if, State.encodedFirst]

/-- Every digit cell is CH_0 or CH_1 (R134 b). -/
theorem mem_encodedFirst {s : State} {j : Nat → Nat} {n : Nat} {c : Cell} (h : c ∈ s.encodedFirst j n) :
    c = 0x0030#symw ∨ c = 0x0031#symw := by
  obtain ⟨code, hcode, hc⟩ := List.mem_flatten.1 h
  obtain ⟨k, -, rfl⟩ := List.mem_map.1 hcode
  obtain ⟨d, -, rfl⟩ := List.mem_map.1 hc
  rw [← bitCell_eq_if]
  split
  · exact .inr rfl
  · exact .inl rfl

/-- A text all of whose characters have codes has at least one digit for each (R134 a). -/
theorem le_codesLength {s : State} {j : Nat → Nat} {n : Nat} (h : ∀ k < n, s.lookup (s.inCell k) = some (j k)) :
    n ≤ s.codesLength j n := by
  have hone : ∀ len ∈ (List.range n).map fun k => (s.codeEntry (j k)).len.toNat, 1 ≤ len :=
    List.forall_mem_map.2 fun k hk => one_le_len_of_lookup (h k (List.mem_range.1 hk))
  simpa [State.codesLength] using List.length_le_sum_of_one_le _ hone

/-- IN up to character `i`, that character, and the rest. -/
theorem input_split {s : State} {i : Nat} (hi : i < s.ilen.toNat) :
    s.input = (List.range i).map s.inCell ++ s.inCell i :: s.input.drop (i + 1) := by
  have hlt : i < s.input.length := by rwa [input_length]
  have htake : s.input.take i = (List.range i).map s.inCell := by
    rw [State.input, ← List.map_take, List.take_range, Nat.min_eq_left hi.le]
  have hcell : s.input[i] = s.inCell i := by simp [State.input]
  rw [← htake, ← hcell, ← List.drop_eq_getElem_cons hlt, List.take_append_drop]

section FirstCharacters

/-! What holds where the first `n` characters have codes inside CDIG that fit OUT. -/

variable {s : State} {j : Nat → Nat} {n : Nat}
  (hcode : ∀ k < n, s.lookup (s.inCell k) = some (j k) ∧
    (s.codeEntry (j k)).base.toNat + (s.codeEntry (j k)).len.toNat ≤ s.cfg.ncdig)
  (hfit : s.codesLength j n ≤ s.cfg.nout)

include hcode hfit

/-- The loop over these characters leaves their codes. -/
theorem encFrom_first : encFrom s 0 ((List.range n).map s.inCell) [] = .ok (s.encodedFirst j n) := by
  have h := encFrom_range s j n 0 []
  simp only [Nat.zero_add, List.length_nil, List.nil_append] at h
  exact h hcode hfit

/-- A raise at the next character is the raise of the command (R135). -/
theorem encShadow_of_step_error {r : Raise} (hin : s.ilen.toNat ≤ s.cfg.nin) (hccnt : s.ccnt.toNat ≤ s.cfg.ncode)
    (hn : n < s.ilen.toNat) (h : encStep s n (s.inCell n) (s.encodedFirst j n) = .error r) :
    encShadow s = .error r := by
  have hne : s.ilen ≠ 0#32 := fun h0 => by simp [h0] at hn
  rw [encShadow_of_check_none (encCheck_eq_none.2 ⟨hin, hccnt, hne⟩), input_split hn, encFrom_append,
    encFrom_first hcode hfit]
  simp only [List.length_map, List.length_range, Nat.zero_add]
  exact encFrom_cons_error h

end FirstCharacters

/-! ### The faults at a character (R132, R133, R135) -/

theorem encStep_of_missing {s : State} {i : Nat} {sym : Cell} {out : List Cell} (h : s.lookup sym = none) :
    encStep s i sym out = .error { kind := .missingCode, pos := i } := by
  simp only [encStep, h]

theorem encStep_of_format {s : State} {i : Nat} {sym : Cell} {out : List Cell} {j : Nat} (h : s.lookup sym = some j)
    (hcdig : s.cfg.ncdig < (s.codeEntry j).base.toNat + (s.codeEntry j).len.toNat) :
    encStep s i sym out = .error { kind := .codeFormat, pos := i } := by
  simp only [encStep, h, if_pos hcdig]

theorem encStep_of_capacity {s : State} {i : Nat} {sym : Cell} {out : List Cell} {j : Nat} (h : s.lookup sym = some j)
    (hcdig : (s.codeEntry j).base.toNat + (s.codeEntry j).len.toNat ≤ s.cfg.ncdig)
    (hout : s.cfg.nout < out.length + (s.codeEntry j).len.toNat) :
    encStep s i sym out = .error { kind := .capacity, pos := i } := by
  simp only [encStep, h, if_neg hcdig.not_gt, if_pos hout]

/-- Settles O18: the characters before `i` leave their codes in the shadow, and the step at `i` raises
(`encShadow_of_step_error`). -/
theorem encFaultsAtCharacter : Obligations.EncFaultsAtCharacter := by
  unfold Obligations.EncFaultsAtCharacter
  intro s j i hin hccnt hi hcode hfit
  have raise {r : Raise} (h : encStep s i (s.inCell i) (s.encodedFirst j i) = .error r) : encShadow s = .error r :=
    encShadow_of_step_error hcode hfit hin hccnt hi h
  refine ⟨fun h => exec_enc_of_error status_missingCode (raise (encStep_of_missing h)),
    fun h hcdig => exec_enc_of_error status_codeFormat (raise (encStep_of_format h hcdig)),
    fun h hcdig hout => exec_enc_of_error status_capacity (raise (encStep_of_capacity h hcdig ?_))⟩
  rw [encodedFirst_length, ← codesLength_succ]
  exact hout

/-! ### The completed command (R130, R133, R134) -/

/-- Settles O17: the shadow is the codes of all the characters (`encFrom_first`), and `finishOutput_next` says what
its commit leaves. -/
theorem encConcatenatesCodes : Obligations.EncConcatenatesCodes := by
  unfold Obligations.EncConcatenatesCodes
  intro s j hc hin hccnt hne hcode hfit
  have hshadow : encShadow s = .ok (s.encodedFirst j s.ilen.toNat) := by
    rw [encShadow_of_check_none (encCheck_eq_none.2 ⟨hin, hccnt, hne⟩), State.input]
    exact encFrom_first hcode hfit
  have hlt := outputShadow_lt hc (i := .enc) (by decide) hshadow
  obtain ⟨t, ht, hdone, holen, houtput, hrest, hsame⟩ := finishOutput_next (s := s) hlt
  rw [← hshadow] at ht
  exact ⟨t, ht, hdone, holen.trans (encodedFirst_length _ _ _), houtput.trans (encodedFirst_eq _ _ _), hrest, hsame⟩

/-- Entries listed for the characters of IN in order are entries by position. -/
theorem exists_entries_of_input {s : State} {js : List Nat} (h : s.input.map s.lookup = js.map some) :
    ∃ j : Nat → Nat, (∀ k < s.ilen.toNat, s.lookup (s.inCell k) = some (j k)) ∧
      js = (List.range s.ilen.toNat).map j := by
  have hlen : s.ilen.toNat = js.length := by simpa [input_length] using congrArg List.length h
  refine ⟨fun k => js.getD k 0, fun k hk => ?_, ?_⟩
  · have hget := congrArg (·[k]?) h
    have hjs : k < js.length := hlen ▸ hk
    simpa [State.input, hk, hjs] using hget
  · rw [hlen]
    exact List.ext_getElem (by simp) fun k hk _ => by simp [hk]

/-- A shadow that was computed is the codes of all the characters, each the code of the entry its lookup chose. -/
theorem encShadow_ok_inv {s : State} {out : List Cell} (h : encShadow s = .ok out) :
    1 ≤ s.ilen.toNat ∧ ∃ j : Nat → Nat, (∀ k < s.ilen.toNat, s.lookup (s.inCell k) = some (j k)) ∧
      out = s.encodedFirst j s.ilen.toNat := by
  rcases encShadow_cases s with ⟨res, hres, hcheck, hloop, -⟩ | ⟨r, hr, -⟩
  · cases h.symm.trans hres
    obtain ⟨-, -, hne⟩ := encCheck_eq_none.1 hcheck
    obtain ⟨-, js, hjs, -, hout⟩ := encFrom_ok_inv s _ _ _ _ hloop (Nat.zero_le _)
    obtain ⟨j, hj, rfl⟩ := exists_entries_of_input hjs
    exact ⟨Nat.one_le_iff_ne_zero.2 fun h0 => hne (BitVec.eq_of_toNat_eq h0), j, hj,
      by rw [hout, List.nil_append, List.map_map]; rfl⟩
  · cases h.symm.trans hr

/-- Settles O19: a success committed a shadow, which `encShadow_ok_inv` says is the codes of the chosen entries. -/
theorem encSuccessFacts : Obligations.EncSuccessFacts := by
  unfold Obligations.EncSuccessFacts
  intro s t hc h herr
  rw [exec_output (by decide)] at h
  rcases finishOutput_cases h with ⟨out, hshadow, rfl⟩ | ⟨r, -, rfl⟩
  · have hlt := outputShadow_lt hc (i := .enc) (by decide) hshadow
    obtain ⟨hone, j, hj, rfl⟩ := encShadow_ok_inv hshadow
    have holen : (commitOutput (s.encodedFirst j s.ilen.toNat) s).olen.toNat = s.codesLength j s.ilen.toNat := by
      rw [commitOutput_olen, toNat_ofNat_of_le le_rfl hlt, encodedFirst_length]
    refine ⟨⟨j, hj, holen⟩, holen ▸ le_codesLength hj, hone, ?_, commitOutput_sameBut _ s,
      fun k hk => commitOutput_outCell_of_olen_le hlt hk⟩
    rw [commitOutput_output _ s hlt]
    exact fun c hmem => mem_encodedFirst hmem
  · exact absurd ((takeFault_err _ r s).symm.trans herr) (code_ne_zero r.kind)

end Sys2Proof.Machine
end

section
/-! PROOFS. DEC (41_decode R140 to R151): the checks before the first digit, one rule for each branch of a move, and
what the walk over the payload says of the command. -/

namespace Sys2Proof.Machine

open Sys2Proof

/-! ### The checks before the first digit (R143) -/

theorem decCheck_of_nin_lt {s : State} (h : s.cfg.nin < s.ilen.toNat) :
    decCheck s = some { kind := .capacity, pos := s.cfg.nin } := if_pos h

theorem decCheck_of_no_key {s : State} (hin : s.ilen.toNat ≤ s.cfg.nin) (hciph : s.ciph = true)
    (h : s.klen = 0#32) : decCheck s = some { kind := .invalidKey, pos := 0 } := by
  rw [decCheck, if_neg hin.not_gt, if_pos ⟨hciph, h⟩]

theorem decCheck_of_nkey_lt {s : State} (hin : s.ilen.toNat ≤ s.cfg.nin) (hciph : s.ciph = true)
    (hne : s.klen ≠ 0#32) (h : s.cfg.nkey < s.klen.toNat) :
    decCheck s = some { kind := .capacity, pos := s.cfg.nkey } := by
  rw [decCheck, if_neg hin.not_gt, if_neg fun hk => hne hk.2, if_pos ⟨hciph, h⟩]

theorem decCheck_of_nnode_le {s : State} (hin : s.ilen.toNat ≤ s.cfg.nin)
    (hkey : s.ciph = true → s.klen ≠ 0#32 ∧ s.klen.toNat ≤ s.cfg.nkey) (h : s.cfg.nnode ≤ s.root.toNat) :
    decCheck s = some { kind := .treeFormat, pos := 0 } := by
  rw [decCheck, if_neg hin.not_gt, if_neg fun hk => (hkey hk.1).1 hk.2,
    if_neg fun hk => (hkey hk.1).2.not_gt hk.2, if_pos h]

theorem decShadow_of_check_error {s : State} {r : Raise} (h : decCheck s = some r) : decShadow s = .error r := by
  simp only [decShadow, h]

/-- A command with an output that reports no error committed its shadow (R241). -/
theorem finishOutput_of_err_zero {shadow : Except Raise (List Cell)} {s t : State}
    (h : finishOutput shadow s = .next t) (herr : t.err = 0#8) : ∃ out, shadow = .ok out ∧ t = commitOutput out s := by
  rcases finishOutput_cases h with hok | ⟨r, -, rfl⟩
  · exact hok
  · exact absurd ((takeFault_err _ r s).symm.trans herr) (code_ne_zero r.kind)

theorem exec_dec_eq (s : State) : exec .dec s = finishOutput (decShadow s) s := rfl

/-- A raise inside DEC is its fault (R240). -/
theorem exec_dec_of_error {s : State} {kind : ErrorKind} {pos : Nat} {status : Word}
    (hstatus : statusWord kind.code = status) (h : decShadow s = .error { kind := kind, pos := pos }) :
    exec .dec s = .next (s.outputFault status pos) := by
  rw [exec_dec_eq, h, finishOutput_error, ← hstatus]

/-- A shadow that was computed is committed, and what that leaves (R151). -/
theorem exec_dec_of_ok {s : State} {out : List Cell} (hc : s.cfg.Valid) (h : decShadow s = .ok out) :
    ∃ t, exec .dec s = .next t ∧ t.Completed ∧ t.olen.toNat = out.length ∧ t.output = out ∧
      (∀ k, t.olen.toNat ≤ k → t.outCell k = s.outCell k) ∧ SameBut [.status, .errpos, .olen] [.output] s t := by
  rw [exec_dec_eq, h]
  exact finishOutput_next (outputShadow_lt hc (i := .dec) (by decide) h)

/-- Settles O20: the four checks in order, each raise being the fault DEC takes (`exec_dec_of_error`). -/
theorem decChecksInOrder : Obligations.DecChecksInOrder := by
  unfold Obligations.DecChecksInOrder
  have raise {s : State} {kind : ErrorKind} {pos : Nat} {status : Word} (hstatus : statusWord kind.code = status)
      (h : decCheck s = some { kind := kind, pos := pos }) : exec .dec s = .next (s.outputFault status pos) :=
    exec_dec_of_error hstatus (decShadow_of_check_error h)
  exact fun s => ⟨fun h => raise status_capacity (decCheck_of_nin_lt h),
    fun hin hciph h => raise status_invalidKey (decCheck_of_no_key hin hciph h),
    fun hin hciph h hne => raise status_capacity (decCheck_of_nkey_lt hin hciph hne h),
    fun hin hkey h => raise status_treeFormat (decCheck_of_nnode_le hin hkey h)⟩

/-! ### The direction of a cell (R144) -/

/-- The direction of a cell that selects one: CH_0 goes left, every other cell right. -/
def cellDir (d : Cell) : Dir := if d = ch0 then .left else .right

theorem cellDir_of_ne {d : Cell} (h : d ≠ ch0) : cellDir d = .right := if_neg h

theorem child_cellDir (n : TreeNode) (d : Cell) :
    n.child (cellDir d) = if d = 0x0030#symw then n.left else n.right := by
  by_cases h : d = ch0
  · rw [cellDir, if_pos h]; exact (if_pos h).symm
  · rw [cellDir, if_neg h]; exact (if_neg h).symm

/-- A cell selects a direction when STRICT = 0 or it is a digit. -/
theorem direction_of_selects {strict : Bool} {d : Cell} (h : strict = false ∨ d = ch0 ∨ d = ch1) :
    direction strict d = some (cellDir d) := by
  by_cases h0 : d = ch0
  · rw [h0]; exact direction_ch0 strict
  · rw [cellDir_of_ne h0]
    by_cases h1 : d = ch1
    · rw [h1]; exact direction_ch1 strict
    · obtain rfl : strict = false := by tauto
      rw [direction, if_neg h0, if_neg h1]
      rfl

theorem direction_of_no_digit {d : Cell} (h0 : d ≠ ch0) (h1 : d ≠ ch1) : direction true d = none := by
  rw [direction, if_neg h0, if_neg h1]
  rfl

theorem walkStep_of_selects {s : State} {d : Cell} (h : s.strict = false ∨ d = ch0 ∨ d = ch1) (i : Nat) (w : Walk) :
    walkStep s i d w = walkMove s i (cellDir d) w := by
  simp only [walkStep, direction_of_selects h]

/-- Under STRICT = 1 a cell that is no digit is malformed (R144). -/
theorem walkStep_of_no_digit {s : State} {d : Cell} (hstrict : s.strict = true) (h0 : d ≠ ch0) (h1 : d ≠ ch1)
    (i : Nat) (w : Walk) : walkStep s i d w = .error { kind := .malformedPayload, pos := i } := by
  simp only [walkStep, hstrict, direction_of_no_digit h0 h1]

/-! ### One move, branch by branch (R145 to R149) -/

theorem childless_iff {n : TreeNode} : n.childless = true ↔ n.left = null ∧ n.right = null := by
  simp [TreeNode.childless]

section Move

variable {s : State} {i : Nat} {dir : Dir} {w : Walk} {child : Word}

/-- An emission into a full OUT does not fit (R153 f). -/
theorem emit_of_full (h : s.cfg.nout ≤ w.out.length) (sym : Cell) (next : Word) :
    emit s i sym next w = .error { kind := .capacity, pos := i } := if_pos (Nat.lt_succ_of_le h)

theorem emit_of_room (h : w.out.length + 1 ≤ s.cfg.nout) (sym : Cell) (next : Word) :
    emit s i sym next w = .ok { p := next, out := w.out ++ [sym] } := if_neg h.not_gt

section Here

variable {here : TreeNode} (hnode : s.node w.p.toNat = here)

include hnode

section Degenerate

variable (hhere : here.left = null ∧ here.right = null)

include hhere

/-- The degenerate tree raises on every digit if its record is no designated leaf, and on a right digit (R145). -/
theorem walkMove_of_degenerate_error (h : here.leaf = 0#1 ∨ dir = .right) :
    walkMove s i dir w = .error { kind := .malformedPayload, pos := i } := by
  simp only [walkMove, hnode, if_pos (childless_iff.2 hhere)]
  by_cases hleaf : here.leaf = 0#1
  · rw [if_pos hleaf]
  · rw [if_neg hleaf, if_pos (h.resolve_left hleaf)]

/-- A left digit on the degenerate tree emits its symbol and stays (R145). -/
theorem walkMove_of_degenerate_leaf (hleaf : here.leaf = 1#1) (hdir : dir = .left) :
    walkMove s i dir w = emit s i here.sym w.p w := by
  simp only [walkMove, hnode, if_pos (childless_iff.2 hhere), hleaf, hdir]
  rfl

end Degenerate

section Inner

variable (hhere : ¬(here.left = null ∧ here.right = null)) (hchild : here.child dir = child)

include hhere hchild

/-- A digit towards an absent child is malformed (R147). -/
theorem walkMove_of_absent (h : child = null) :
    walkMove s i dir w = .error { kind := .malformedPayload, pos := i } := by
  simp only [walkMove, hnode, if_neg (mt childless_iff.1 hhere), hchild, if_pos h]

/-- A child outside TREE is a fault of the tree (R148). -/
theorem walkMove_of_nnode_le (hne : child ≠ null) (h : s.cfg.nnode ≤ child.toNat) :
    walkMove s i dir w = .error { kind := .treeFormat, pos := i } := by
  simp only [walkMove, hnode, if_neg (mt childless_iff.1 hhere), hchild, if_neg hne, if_pos h]

variable {next : TreeNode} (hc : s.cfg.Valid) (hlt : child.toNat < s.cfg.nnode) (hnext : s.node child.toNat = next)

include hc hlt hnext

/-- A childless child that is no designated leaf is malformed (R149). -/
theorem walkMove_of_bare_child (h : next.left = null ∧ next.right = null) (hleaf : next.leaf = 0#1) :
    walkMove s i dir w = .error { kind := .malformedPayload, pos := i } := by
  simp only [walkMove, hnode, if_neg (mt childless_iff.1 hhere), hchild, if_neg (ne_null_of_lt hc hlt),
    if_neg hlt.not_ge, hnext, if_pos (childless_iff.2 h), if_pos hleaf]

/-- A leaf emits its symbol, and the walk goes on from ROOT (R146). -/
theorem walkMove_of_leaf_child (h : next.left = null ∧ next.right = null) (hleaf : next.leaf = 1#1) :
    walkMove s i dir w = emit s i next.sym s.root w := by
  simp only [walkMove, hnode, if_neg (mt childless_iff.1 hhere), hchild, if_neg (ne_null_of_lt hc hlt),
    if_neg hlt.not_ge, hnext, if_pos (childless_iff.2 h), hleaf]
  rfl

/-- An inner child is where the walk goes on (R146). -/
theorem walkMove_of_inner_child (h : ¬(next.left = null ∧ next.right = null)) :
    walkMove s i dir w = .ok { p := child, out := w.out } := by
  simp only [walkMove, hnode, if_neg (mt childless_iff.1 hhere), hchild, if_neg (ne_null_of_lt hc hlt),
    if_neg hlt.not_ge, hnext, if_neg (mt childless_iff.1 h)]

end Inner

end Here

end Move

/-! ### What the walk says of the command (R150, R151) -/

section Walked

variable {s : State} {w : Walk} (hcheck : decCheck s = none)

include hcheck

theorem decShadow_of_walk_error {r : Raise} (h : walkFrom s 0 s.payload { p := s.root, out := [] } = .error r) :
    decShadow s = .error r := by
  simp only [decShadow_of_check hcheck, h]

/-- A walk that ends at ROOT is a text (R150). -/
theorem decShadow_of_walk_root (h : walkFrom s 0 s.payload { p := s.root, out := [] } = .ok w) (hp : w.p = s.root) :
    decShadow s = .ok w.out := by
  simp only [decShadow_of_check hcheck, h, if_pos hp]

/-- A walk that ends inside a code is malformed at ILEN (R150). -/
theorem exec_dec_of_walk_inside (h : walkFrom s 0 s.payload { p := s.root, out := [] } = .ok w) (hp : w.p ≠ s.root) :
    exec .dec s = .next (s.outputFault 0x103#32 s.ilen.toNat) := by
  have hshadow : decShadow s = .error { kind := .malformedPayload, pos := s.ilen.toNat } := by
    simp only [decShadow_of_check hcheck, h, if_neg hp]
  exact exec_dec_of_error status_malformedPayload hshadow

/-- The first cell whose step raises is the fault of the command (R242). -/
theorem decShadow_of_step_error {before after : List Cell} {d : Cell} {r : Raise}
    (hpayload : s.payload = before ++ d :: after)
    (hbefore : walkFrom s 0 before { p := s.root, out := [] } = .ok w)
    (h : walkStep s before.length d w = .error r) : decShadow s = .error r := by
  refine decShadow_of_walk_error hcheck ?_
  rw [hpayload, walkFrom_append, hbefore]
  simp only [Nat.zero_add]
  exact walkFrom_cons_error h

end Walked

/-- A shadow that was computed is what a walk that ended at ROOT emitted, at most one symbol a cell (R151 a). -/
theorem decShadow_ok_inv {s : State} {out : List Cell} (h : decShadow s = .ok out) : decCheck s = none ∧
    out.length ≤ s.ilen.toNat ∧
    walkFrom s 0 s.payload { p := s.root, out := [] } = .ok { p := s.root, out := out } := by
  rcases decShadow_cases s with ⟨⟨p, out'⟩, hw, hcheck, hwalk, hp, -, hle⟩ | ⟨r, hr, -⟩
  · cases h.symm.trans hw
    subst hp
    exact ⟨hcheck, hle, hwalk⟩
  · cases h.symm.trans hr

/-- Settles O27: a success committed a shadow, which is no longer than the payload (`decShadow_ok_inv`). -/
theorem decSuccessFacts : Obligations.DecSuccessFacts := by
  unfold Obligations.DecSuccessFacts
  intro s t hc h herr
  rw [exec_dec_eq] at h
  obtain ⟨out, hshadow, rfl⟩ := finishOutput_of_err_zero h herr
  obtain ⟨-, hle, -⟩ := decShadow_ok_inv hshadow
  have hlt := outputShadow_lt hc (i := .dec) (by decide) hshadow
  refine ⟨?_, commitOutput_sameBut out s, fun k hk => commitOutput_outCell_of_olen_le hlt hk⟩
  rwa [commitOutput_olen, toNat_ofNat_of_le le_rfl hlt]

theorem payload_of_ilen_zero {s : State} (h : s.ilen = 0#32) : s.payload = [] :=
  List.eq_nil_of_length_eq_zero (by rw [payload_length, h]; rfl)

/-- Settles O23: the two outcomes of the test at the end of the walk, and the empty walk, which ends at ROOT. -/
theorem decTestsRootAtEnd : Obligations.DecTestsRootAtEnd := by
  unfold Obligations.DecTestsRootAtEnd
  intro s hc hin hkey hroot
  have hcheck := decCheck_eq_none.2 ⟨hin, hkey, hroot⟩
  refine ⟨fun w hw => ⟨fun hp => ?_, exec_dec_of_walk_inside hcheck hw⟩, fun hlen => ?_⟩
  · obtain ⟨t, ht, hdone, -, houtput, -⟩ := exec_dec_of_ok hc (decShadow_of_walk_root hcheck hw hp)
    exact ⟨t, ht, hdone, houtput⟩
  · have hshadow : decShadow s = .ok [] :=
      decShadow_of_walk_root (w := { p := s.root, out := [] }) hcheck (by rw [payload_of_ilen_zero hlen, walkFrom]) rfl
    rw [exec_dec_eq, hshadow]
    rfl

/-! ### A payload of one digit -/

/-- A payload of one cell: deciphered with the first cell of the key when CIPH = 1 (R142). -/
theorem payload_of_ilen_one {s : State} (h : s.ilen = 1#32) :
    s.payload = [if s.ciph then s.inCell 0 ^^^ s.keyCell 0 else s.inCell 0] := by
  unfold State.payload
  split <;> simp [State.cipherInput, State.cipherCell, State.input, h, List.range_succ]

section OneCell

variable {s : State} {cell : Cell} (hcheck : decCheck s = none) (hpayload : s.payload = [cell])

include hcheck hpayload

theorem exec_dec_of_one_error {kind : ErrorKind} {status : Word} (hstatus : statusWord kind.code = status)
    (h : walkStep s 0 cell { p := s.root, out := [] } = .error { kind := kind, pos := 0 }) :
    exec .dec s = .next (s.outputFault status 0) :=
  exec_dec_of_error hstatus (decShadow_of_step_error hcheck (before := []) hpayload rfl h)

theorem exec_dec_of_one_inside {w : Walk} (h : walkStep s 0 cell { p := s.root, out := [] } = .ok w)
    (hp : w.p ≠ s.root) : exec .dec s = .next (s.outputFault 0x103#32 1) := by
  rw [exec_dec_of_walk_inside hcheck (by rw [hpayload, walkFrom_one, h]) hp, ← payload_length, hpayload]
  rfl

theorem exec_dec_of_one_root (hc : s.cfg.Valid) {w : Walk}
    (h : walkStep s 0 cell { p := s.root, out := [] } = .ok w) (hp : w.p = s.root) :
    ∃ t, exec .dec s = .next t ∧ t.Completed ∧ t.output = w.out := by
  obtain ⟨t, ht, hdone, -, houtput, -⟩ :=
    exec_dec_of_ok hc (decShadow_of_walk_root hcheck (by rw [hpayload, walkFrom_one, h]) hp)
  exact ⟨t, ht, hdone, houtput⟩

theorem exec_dec_of_one_emit (hc : s.cfg.Valid) {sym : Cell}
    (h : walkStep s 0 cell { p := s.root, out := [] } = emit s 0 sym s.root { p := s.root, out := [] }) :
    ∃ t, exec .dec s = .next t ∧ t.Completed ∧ t.output = [sym] :=
  exec_dec_of_one_root hcheck hpayload hc
    (h.trans (emit_of_room (w := { p := s.root, out := [] }) hc.2.1.1 sym s.root)) rfl

end OneCell

/-- Settles O24: the payload is the one cell, and each clause is a branch of the move on it. -/
theorem decOneDigitCases : Obligations.DecOneDigitCases := by
  unfold Obligations.DecOneDigitCases
  intro s hc hlen hkey hroot cell top childlessTop child next childlessNext
  have hin : s.ilen.toNat ≤ s.cfg.nin := by rw [hlen]; exact hc.1.1
  have hcheck := decCheck_eq_none.2 ⟨hin, hkey, hroot⟩
  have hpayload : s.payload = [cell] := payload_of_ilen_one hlen
  have htopNode : s.node s.root.toNat = top := rfl
  have hchild : top.child (cellDir cell) = child := child_cellDir top cell
  have hnextNode : s.node child.toNat = next := rfl
  clear_value next child top cell
  refine ⟨fun hstrict h0 h1 => exec_dec_of_one_error hcheck hpayload status_malformedPayload
    (walkStep_of_no_digit hstrict h0 h1 0 _), fun hselects => ?_⟩
  have hstep := walkStep_of_selects hselects 0 { p := s.root, out := [] }
  have raise {kind : ErrorKind} {status : Word} (hstatus : statusWord kind.code = status)
      (h : walkMove s 0 (cellDir cell) { p := s.root, out := [] } = .error { kind := kind, pos := 0 }) :=
    exec_dec_of_one_error hcheck hpayload hstatus (hstep.trans h)
  refine ⟨fun htop h => ?_, fun htop hleaf h0 => ?_, fun htop h => ?_, fun htop hne h => ?_,
    fun htop hlt h hleaf => ?_, fun htop hlt h hleaf => ?_, fun htop hlt h hne => ?_, fun htop h => ?_⟩
  · exact raise status_malformedPayload (walkMove_of_degenerate_error htopNode htop (h.imp_right cellDir_of_ne))
  · exact exec_dec_of_one_emit hcheck hpayload hc
      (hstep.trans (walkMove_of_degenerate_leaf htopNode htop hleaf (if_pos h0)))
  · exact raise status_malformedPayload (walkMove_of_absent htopNode htop hchild h)
  · exact raise status_treeFormat (walkMove_of_nnode_le htopNode htop hchild hne h)
  · exact raise status_malformedPayload (walkMove_of_bare_child htopNode htop hchild hc hlt hnextNode h hleaf)
  · exact exec_dec_of_one_emit hcheck hpayload hc
      (hstep.trans (walkMove_of_leaf_child htopNode htop hchild hc hlt hnextNode h hleaf))
  · exact exec_dec_of_one_inside hcheck hpayload
      (hstep.trans (walkMove_of_inner_child htopNode htop hchild hc hlt hnextNode h)) hne
  · have htopChild : s.node child.toNat = top := by rw [h, htopNode]
    have hlt : child.toNat < s.cfg.nnode := by rwa [h]
    exact exec_dec_of_one_root hcheck hpayload hc
      (hstep.trans (walkMove_of_inner_child htopNode htop hchild hc hlt htopChild htop)) h

/-! ### STRICT (R144) -/

/-- Under STRICT = 1 a walk that raises nothing met digit cells only. -/
theorem digits_of_walkFrom_ok {s : State} (hstrict : s.strict = true) (cells : List Cell) : ∀ (i : Nat) (w w' : Walk),
    walkFrom s i cells w = .ok w' → ∀ d ∈ cells, d = ch0 ∨ d = ch1 := by
  induction cells with
  | nil => intro i w w' _ d hd; cases hd
  | cons c cells ih =>
    intro i w w' h
    have hc : c = ch0 ∨ c = ch1 := by
      by_contra hno
      obtain ⟨h0, h1⟩ := not_or.1 hno
      rw [walkFrom_cons_error (walkStep_of_no_digit hstrict h0 h1 i w)] at h
      cases h
    cases hstep : walkStep s i c w with
    | error r => rw [walkFrom_cons_error hstep] at h; cases h
    | ok v =>
      rw [walkFrom_cons_ok hstep] at h
      exact List.forall_mem_cons.2 ⟨hc, ih _ _ _ h⟩

/-- On digit cells the walk does not look at CTRL. -/
theorem walkFrom_setCtrl_of_digits {s : State} (ctrl : Word) (cells : List Cell) : ∀ (i : Nat) (w : Walk),
    (∀ d ∈ cells, d = ch0 ∨ d = ch1) → walkFrom { s with ctrl := ctrl } i cells w = walkFrom s i cells w := by
  induction cells with
  | nil => intro i w _; rfl
  | cons c cells ih =>
    intro i w h
    obtain ⟨hc, hcells⟩ := List.forall_mem_cons.1 h
    have hstep : walkStep { s with ctrl := ctrl } i c w = walkStep s i c w := by
      rw [walkStep_of_selects (.inr hc), walkStep_of_selects (.inr hc)]
      rfl
    simp only [walkFrom, hstep, fun i w => ih i w hcells]

/-- Clearing CTRL.STRICT leaves CTRL.CIPH (R31). -/
theorem ciph_clearStrict (s : State) : ({ s with ctrl := s.ctrl &&& 0xFFFFFFFE#32 } : State).ciph = s.ciph := by
  simp [State.ciph]

/-- A success under STRICT = 1 is the same success under STRICT = 0. -/
theorem decShadow_clearStrict {s : State} {out : List Cell} (hstrict : s.strict = true) (h : decShadow s = .ok out) :
    (∀ d ∈ s.payload, d = ch0 ∨ d = ch1) ∧ decShadow { s with ctrl := s.ctrl &&& 0xFFFFFFFE#32 } = .ok out := by
  obtain ⟨hcheck, -, hwalk⟩ := decShadow_ok_inv h
  have hdigits := digits_of_walkFrom_ok hstrict _ _ _ _ hwalk
  have hpayload : ({ s with ctrl := s.ctrl &&& 0xFFFFFFFE#32 } : State).payload = s.payload := by
    rw [State.payload, ciph_clearStrict]
    rfl
  refine ⟨hdigits, decShadow_of_walk_root (w := { p := s.root, out := out }) ?_ ?_ rfl⟩
  · rw [decCheck_eq_none, ciph_clearStrict]
    exact decCheck_eq_none.1 hcheck
  · rw [hpayload, walkFrom_setCtrl_of_digits _ _ _ _ hdigits]
    exact hwalk

/-- Settles O26: by `decShadow_clearStrict` for the command; for the step, a cell that is no digit selects no direction
under STRICT = 1, and the direction of CH_1 under STRICT = 0. -/
theorem strictSelectsNonDigitCells : Obligations.StrictSelectsNonDigitCells := by
  unfold Obligations.StrictSelectsNonDigitCells
  refine ⟨fun s t hstrict h herr => ?_, fun s i d w hstrict h0 h1 => walkStep_of_no_digit hstrict h0 h1 i w,
    fun s i d w hstrict h0 => ?_⟩
  · rw [exec_dec_eq] at h
    obtain ⟨out, hshadow, rfl⟩ := finishOutput_of_err_zero h herr
    obtain ⟨hdigits, hclear⟩ := decShadow_clearStrict hstrict hshadow
    refine ⟨hdigits, ?_⟩
    rw [exec_dec_eq, hclear]
    rfl
  · rw [walkStep_of_selects (.inl hstrict), walkStep_of_selects (.inl hstrict), cellDir_of_ne h0]
    rfl

end Sys2Proof.Machine
end

section
/-! PROOFS. DEC on a held tree (41_decode R146 to R153): whole codes, a code cut short, the first fault in input order
and the full OUT. -/

namespace Sys2Proof.Machine

open Sys2Proof

/-- The cells of codes one after another are the cells of their digits one after another (R103). -/
theorem codeCells_eq (leaves : List (Cell × List Bit)) :
    (leaves.map fun leaf => leaf.2.map bitCell).flatten = (leaves.map Prod.snd).flatten.map bitCell := by
  simp [List.map_flatten, Function.comp_def]

/-- The payload written out (R142). -/
theorem payload_eq (s : State) : s.payload = (List.range s.ilen.toNat).map fun i =>
    if s.ciph then s.inCell i ^^^ s.keyCell (i % s.klen.toNat) else s.inCell i := by
  unfold State.payload
  split <;> rfl

/-- With a tree at ROOT, the checks of DEC are those of the input and the key (R143). -/
theorem decCheck_of_held {s : State} {tree : HTree} (hin : s.ilen.toNat ≤ s.cfg.nin)
    (hkey : s.ciph = true → s.klen ≠ 0#32 ∧ s.klen.toNat ≤ s.cfg.nkey) (htree : tree.held s)
    (hroot : s.root.toNat = tree.index) : decCheck s = none :=
  decCheck_eq_none.2 ⟨hin, hkey, hroot ▸ held_index htree⟩

section HeldTree

variable {s : State} {tree : HTree} (hc : s.cfg.Valid) (htree : tree.held s) (hroot : s.root.toNat = tree.index)

include hc htree hroot

/-- After the codes of some leaves the walk stands at ROOT and has emitted their symbols (R146). -/
theorem walkFrom_codes_append {leaves : List (Cell × List Bit)} (hleaves : ∀ leaf ∈ leaves, leaf ∈ tree.codes)
    (hfit : leaves.length ≤ s.cfg.nout) (rest : List Cell) :
    walkFrom s 0 ((leaves.map Prod.snd).flatten.map bitCell ++ rest) { p := s.root, out := [] } =
      walkFrom s (leaves.map Prod.snd).flatten.length rest { p := s.root, out := leaves.map Prod.fst } := by
  have hcodes := walkFrom_codes hc htree hroot leaves 0 [] hleaves (by simpa using hfit)
  rw [codeCells_eq] at hcodes
  rw [walkFrom_append, hcodes]
  simp only [List.length_map, Nat.zero_add, List.nil_append]

/-- A payload of whole codes decodes to the symbols of their leaves (R146). -/
theorem decShadow_of_codes {leaves : List (Cell × List Bit)} (hcheck : decCheck s = none)
    (hleaves : ∀ leaf ∈ leaves, leaf ∈ tree.codes) (hfit : leaves.length ≤ s.cfg.nout)
    (hpayload : s.payload = (leaves.map Prod.snd).flatten.map bitCell) :
    decShadow s = .ok (leaves.map Prod.fst) := by
  have hwalk := walkFrom_codes_append hc htree hroot hleaves hfit []
  rw [List.append_nil, ← hpayload] at hwalk
  exact decShadow_of_walk_root hcheck hwalk rfl

/-- The beginning of a code leads from ROOT to an inner record that is not ROOT: it holds a smaller tree. -/
theorem walkFrom_cut_code {sym : Cell} {cut left : List Bit} (hmem : (sym, cut ++ left) ∈ tree.codes)
    (hcut : cut ≠ []) (hleft : left ≠ []) (i : Nat) (out : List Cell) :
    ∃ w, walkFrom s i (cut.map bitCell) { p := s.root, out := out } = .ok w ∧ w.p ≠ s.root := by
  have hcutPos := List.length_pos_iff.2 hcut
  have hleftPos := List.length_pos_iff.2 hleft
  cases tree with
  | leaf n sym' f =>
    simp only [HTree.codes, List.mem_singleton, Prod.mk.injEq] at hmem
    have hlen := congrArg List.length hmem.2
    simp only [List.length_append, List.length_singleton] at hlen
    omega
  | node n f l r =>
    obtain ⟨w, t, hw, -, ht, hp, hsize⟩ :=
      walkFrom_cut hc _ sym cut left i { p := s.root, out := out } htree hmem hleft hroot
    refine ⟨w, hw, fun hroot' => ?_⟩
    have heq := held_size hc t _ ht htree (by rw [← hp, hroot', hroot])
    omega

/-- Once OUT is full, one more whole code does not fit, which shows at its last digit (R153 f). -/
theorem walkFrom_code_of_full {sym : Cell} {digits : List Bit} (hmem : (sym, digits) ∈ tree.codes) {out : List Cell}
    (hfull : out.length = s.cfg.nout) (i : Nat) (more : List Cell) :
    walkFrom s i (digits.map bitCell ++ more) { p := s.root, out := out } =
      .error { kind := .capacity, pos := i + (digits.length - 1) } := by
  rw [walkFrom_append, walkFrom_code hc htree hroot hmem, emit_of_full hfull.ge]

end HeldTree

/-- Settles O21: the shadow is the symbols of the leaves (`decShadow_of_codes`), which the command commits. -/
theorem decDecodesCodeSequence : Obligations.DecDecodesCodeSequence := by
  unfold Obligations.DecDecodesCodeSequence
  intro s tree leaves hc hin hkey htree hroot hleaves hpayload hfit
  have hcheck := decCheck_of_held hin hkey htree hroot
  simp only [bitCell_eq_if] at hpayload
  rw [← payload_eq, codeCells_eq] at hpayload
  obtain ⟨t, ht, hdone, holen, hrest⟩ :=
    exec_dec_of_ok hc (decShadow_of_codes hc htree hroot hcheck hleaves hfit hpayload)
  exact ⟨t, ht, hdone, holen.trans (List.length_map _), hrest⟩

/-- Settles O22: after the whole codes the walk stands at ROOT, and the beginning of one more leads away from it
(`walkFrom_cut_code`). -/
theorem decRejectsTruncatedPayload : Obligations.DecRejectsTruncatedPayload := by
  unfold Obligations.DecRejectsTruncatedPayload
  intro s tree leaves sym cut left hc hin hkey htree hroot hleaves hmem hcut hleft hpayload hfit
  obtain ⟨w, hw, hp⟩ := walkFrom_cut_code hc htree hroot hmem hcut hleft (leaves.map Prod.snd).flatten.length
    (leaves.map Prod.fst)
  simp only [bitCell_eq_if, List.map_append] at hpayload
  refine exec_dec_of_walk_inside (decCheck_of_held hin hkey htree hroot) ?_ hp
  rw [hpayload, walkFrom_codes_append hc htree hroot hleaves hfit, hw]

/-- Settles O25: a step that raises after a walk that did not is the fault of the command; with OUT full that step is
an emission, or a test of the record it would come from; a whole code emits at its last digit. -/
theorem decReportsFirstFault : Obligations.DecReportsFirstFault := by
  unfold Obligations.DecReportsFirstFault
  refine ⟨fun s before after d w r hin hkey hroot hpayload hbefore hstep => ?_, ?_,
    fun s tree leaves sym digits more hc hin hkey htree hroot hleaves hfull hmem hpayload => ?_⟩
  · have hpos : r.pos = before.length := by
      rcases walkStep_cases s before.length d w with ⟨q, hq, hpos, -⟩ | ⟨w', hw', -⟩
      · cases hstep.symm.trans hq
        exact hpos
      · cases hstep.symm.trans hw'
    rw [← hpos]
    exact exec_dec_of_error rfl
      (decShadow_of_step_error (decCheck_eq_none.2 ⟨hin, hkey, hroot⟩) hpayload hbefore hstep)
  · intro s before after d w hc hin hkey hroot hpayload hbefore hfull hselects here childlessHere child next
      childlessNext
    have hnode : s.node w.p.toNat = here := rfl
    have hchild : here.child (cellDir d) = child := child_cellDir here d
    have hnext : s.node child.toNat = next := rfl
    clear_value next child here
    have raise {kind : ErrorKind} {status : Word} (hstatus : statusWord kind.code = status)
        (h : walkMove s before.length (cellDir d) w = .error { kind := kind, pos := before.length }) :
        exec .dec s = .next (s.outputFault status before.length) :=
      exec_dec_of_error hstatus (decShadow_of_step_error (decCheck_eq_none.2 ⟨hin, hkey, hroot⟩) hpayload hbefore
        ((walkStep_of_selects hselects _ w).trans h))
    refine ⟨fun hhere hleaf h0 => ?_, fun hhere h => ?_, fun hhere hlt h hleaf => ?_, fun hhere hlt h hleaf => ?_⟩
    · exact raise status_capacity
        ((walkMove_of_degenerate_leaf hnode hhere hleaf (if_pos h0)).trans (emit_of_full hfull.ge _ _))
    · exact raise status_malformedPayload (walkMove_of_degenerate_error hnode hhere (h.imp_right cellDir_of_ne))
    · exact raise status_capacity
        ((walkMove_of_leaf_child hnode hhere hchild hc hlt hnext h hleaf).trans (emit_of_full hfull.ge _ _))
    · exact raise status_malformedPayload (walkMove_of_bare_child hnode hhere hchild hc hlt hnext h hleaf)
  · have hdigits := List.length_pos_iff.2 (ne_nil_of_mem_codes hmem)
    simp only [bitCell_eq_if, List.map_append, List.append_assoc] at hpayload
    rw [List.length_append, Nat.add_sub_assoc hdigits]
    refine exec_dec_of_error status_capacity
      (decShadow_of_walk_error (decCheck_of_held hin hkey htree hroot) ?_)
    rw [hpayload, walkFrom_codes_append hc htree hroot hleaves hfull.le,
      walkFrom_code_of_full hc htree hroot hmem (by rw [List.length_map, hfull])]

end Sys2Proof.Machine
end

section
/-! PROOFS. The ways through several commands that end in DEC (41_decode R142, R152; 42_xor R164): the result of one
command, moved to IN, is the payload of the next. -/

namespace Sys2Proof.Machine

open Sys2Proof

theorem exec_enc_eq (s : State) : exec .enc s = finishOutput (encShadow s) s := rfl

theorem exec_xor_eq (s : State) : exec .xor s = finishOutput (xorShadow s) s := rfl

/-! ### A result moved to IN -/

/-- A committed stream of a length that fits OLEN, moved to IN, is the input. -/
theorem movedOut_commitOutput_input {out : List Cell} (h : out.length < 2 ^ 32) (s : State) :
    (commitOutput out s).movedOut.input = out := by
  rw [movedOut_input, commitOutput_output _ _ h]

theorem movedOut_commitOutput_ilen {out : List Cell} (h : out.length < 2 ^ 32) (s : State) :
    (commitOutput out s).movedOut.ilen.toNat = out.length := by
  rw [movedOut_ilen, commitOutput_olen, toNat_ofNat_of_le le_rfl h]

theorem payload_of_ciph {s : State} (h : s.ciph = true) : s.payload = s.cipherInput := if_pos h

theorem payload_of_not_ciph {s : State} (h : s.ciph = false) : s.payload = s.input := by
  rw [State.payload, h]
  rfl

theorem cipherInput_lt (s : State) : s.cipherInput.length < 2 ^ 32 := by
  rw [cipherInput_length]
  exact s.ilen.isLt

/-- The ciphered input has as many cells as the input, so ILEN stays (R162). -/
theorem movedOut_cipherInput_ilen (s : State) : (commitOutput s.cipherInput s).movedOut.ilen = s.ilen :=
  BitVec.eq_of_toNat_eq (by rw [movedOut_commitOutput_ilen (cipherInput_lt s), cipherInput_length])

theorem movedOut_cipherInput_inCell {s : State} {i : Nat} (h : i < s.ilen.toNat) :
    (commitOutput s.cipherInput s).movedOut.inCell i = s.cipherCell i := by
  have hout : i < s.cipherInput.length := by rwa [cipherInput_length]
  rw [movedOut_inCell, commitOutput_outCell_lt _ _ hout]
  · simp [State.cipherInput]
  · rwa [commitOutput_olen, toNat_ofNat_of_le le_rfl (cipherInput_lt s)]

/-- The cipher is its own inverse: the ciphered input, moved to IN and ciphered again, is the input (R163). -/
theorem cipherInput_movedOut_cipherInput (s : State) :
    (commitOutput s.cipherInput s).movedOut.cipherInput = s.input := by
  rw [State.cipherInput, movedOut_cipherInput_ilen]
  refine List.map_congr_left fun i hi => ?_
  rw [State.cipherCell, movedOut_cipherInput_inCell (List.mem_range.1 hi)]
  show (s.inCell i ^^^ s.keyCell (i % s.klen.toNat)) ^^^ s.keyCell (i % s.klen.toNat) = s.inCell i
  rw [BitVec.xor_assoc, BitVec.xor_self, BitVec.xor_zero]

/-! ### Deciphering in DEC and before it (R142) -/

/-- The shadow of DEC looks at the parameters, STRICT, ROOT, TREE and the payload, once the checks pass (R262). -/
theorem decShadow_of_same_payload {s u : State} (hs : decCheck s = none) (hu : decCheck u = none)
    (hcfg : s.cfg = u.cfg) (hstrict : s.strict = u.strict) (hroot : s.root = u.root) (hnode : ∀ n, s.node n = u.node n)
    (hpayload : s.payload = u.payload) : decShadow s = decShadow u := by
  have hlen : s.ilen.toNat = u.ilen.toNat := by rw [← payload_length, hpayload, payload_length]
  rw [decShadow_of_check hs, decShadow_of_check hu, ← hpayload, ← hroot, ← hlen,
    walkFrom_congr hcfg hstrict hroot (fun n _ => hnode n) _ _ _ .root]

/-- The state after XOR, `mvout` and the clearing of CIPH (R142). -/
def State.deciphered (s : State) : State :=
  { (commitOutput s.cipherInput s).movedOut with ctrl := s.ctrl &&& 0xFFFFFFFD#32 }

theorem deciphered_ciph (s : State) : s.deciphered.ciph = false := by
  simp [State.deciphered, State.ciph]

theorem deciphered_strict (s : State) : s.strict = s.deciphered.strict := by
  simp [State.deciphered, State.strict]

theorem deciphered_payload {s : State} (hciph : s.ciph = true) : s.payload = s.deciphered.payload := by
  rw [payload_of_ciph hciph, payload_of_not_ciph (deciphered_ciph s)]
  exact (movedOut_commitOutput_input (cipherInput_lt s) s).symm

/-- Where XOR succeeds, DEC has the same shadow before and after deciphering. -/
theorem decShadow_deciphered {s : State} (hciph : s.ciph = true) (hkey : s.klen ≠ 0#32 ∧ s.klen.toNat ≤ s.cfg.nkey)
    (hin : s.ilen.toNat ≤ s.cfg.nin) : decShadow s = decShadow s.deciphered := by
  have hilen : s.deciphered.ilen = s.ilen := movedOut_cipherInput_ilen s
  rcases Nat.lt_or_ge s.root.toNat s.cfg.nnode with hroot | hroot
  · refine decShadow_of_same_payload (decCheck_eq_none.2 ⟨hin, fun _ => hkey, hroot⟩)
      (decCheck_eq_none.2 ⟨hilen ▸ hin, ?_, hroot⟩) rfl (deciphered_strict s) rfl (fun _ => rfl)
      (deciphered_payload hciph)
    simp [deciphered_ciph]
  · rw [decShadow_of_check_error (decCheck_of_nnode_le hin (fun _ => hkey) hroot),
      decShadow_of_check_error
        (decCheck_of_nnode_le (s := s.deciphered) (hilen ▸ hin) (by simp [deciphered_ciph]) hroot)]

/-- Settles O28: XOR commits the ciphered input, so DEC has one shadow on both ways (`decShadow_deciphered`), and
one shadow leaves one result. -/
theorem decipherStageIsXorThenDec : Obligations.DecipherStageIsXorThenDec := by
  unfold Obligations.DecipherStageIsXorThenDec
  intro s t u v hc hciph hxor herr hu hv
  rw [exec_dec_eq] at hu hv
  rw [exec_xor_eq] at hxor
  obtain ⟨out, hout, rfl⟩ := finishOutput_of_err_zero hxor herr
  rcases xorShadow_cases s with ⟨r, hr, -⟩ | ⟨hok, hne, hnkey, hin, -⟩
  · cases hout.symm.trans hr
  · cases hout.symm.trans hok
    rw [decShadow_deciphered hciph ⟨hne, hnkey⟩ hin] at hu
    exact finishOutput_congr (fun _ h => outputShadow_lt (s := s.deciphered) hc (i := .dec) (by decide) h) hu hv

/-! ### The text of a payload (R152) -/

/-- A symbol of a tree's leaves stands in its code table with the code the table gives it. -/
theorem mem_codes_of_mem_leaves {tree : HTree} {sym : Cell} (h : sym ∈ tree.leaves.map Prod.fst) :
    (sym, codeOf tree.codes sym) ∈ tree.codes := by
  obtain ⟨entry, hentry, rfl⟩ := List.mem_map.1 (codes_symbols tree ▸ h)
  obtain ⟨found, hfound⟩ : ∃ found, tree.codes.find? (fun e => e.1 == entry.1) = some found :=
    Option.isSome_iff_exists.1 (List.find?_isSome.2 ⟨entry, hentry, beq_self_eq_true _⟩)
  have hsym : found.1 = entry.1 := by simpa using List.find?_some hfound
  rw [codeOf, hfound, ← hsym]
  exact List.mem_of_find?_eq_some hfound

/-- TREE holds the records of a tree in every state with the same records. -/
theorem held_congr {s u : State} (hcfg : u.cfg = s.cfg) (hnode : ∀ n, u.node n = s.node n) {tree : HTree}
    (h : tree.held s) : tree.held u := by
  induction tree with
  | leaf i sym f => simpa only [HTree.held, hcfg, hnode] using h
  | node i f l r ihl ihr =>
    obtain ⟨hi, hleft, hright, hl, hr⟩ := h
    rw [HTree.held, hcfg, hnode]
    exact ⟨hi, hleft, hright, ihl hl, ihr hr⟩

/-- A payload that is the digits of a text over the tree's symbols decodes to the text. -/
theorem exec_dec_of_textDigits {s : State} {tree : HTree} {text : List Cell} (hc : s.cfg.Valid)
    (hcheck : decCheck s = none) (htree : tree.held s) (hroot : s.root.toNat = tree.index)
    (hsyms : ∀ c ∈ text, c ∈ tree.leaves.map Prod.fst) (hfit : text.length ≤ s.cfg.nout)
    (hpayload : s.payload = (textDigits tree.codes text).map bitCell) :
    ∃ t, exec .dec s = .next t ∧ t.Completed ∧ t.olen.toNat = text.length ∧ t.output = text := by
  have hshadow := decShadow_of_codes (leaves := text.map fun c => (c, codeOf tree.codes c)) hc htree hroot hcheck
    (List.forall_mem_map.2 fun c hmem => mem_codes_of_mem_leaves (hsyms c hmem)) (by simpa using hfit)
    (by simpa [textDigits, Function.comp_def] using hpayload)
  obtain ⟨t, ht, hdone, holen, houtput, -⟩ := exec_dec_of_ok hc hshadow
  exact ⟨t, ht, hdone, by simpa using holen, by simpa [Function.comp_def] using houtput⟩

/-- A text has at least one digit for each character (R134 a). -/
theorem length_le_textDigits {tree : HTree} {text : List Cell} (hsyms : ∀ c ∈ text, c ∈ tree.leaves.map Prod.fst) :
    text.length ≤ (textDigits tree.codes text).length := by
  have hone : ∀ len ∈ (text.map (codeOf tree.codes)).map List.length, 1 ≤ len := by
    simp only [List.map_map, List.forall_mem_map]
    exact fun c hmem => List.length_pos_iff.2 (ne_nil_of_mem_codes (mem_codes_of_mem_leaves (hsyms c hmem)))
  simpa [textDigits, List.length_flatten] using List.length_le_sum_of_one_le _ hone

section HeldCodes

variable {s : State} {tree : HTree} (hcodes : codesHeld s tree.codes)

include hcodes

/-- The entry the lookup finds for a symbol of the tree holds that symbol's code, inside CDIG (R215). -/
theorem codeDigits_of_lookup {sym : Cell} (hsym : sym ∈ tree.leaves.map Prod.fst) {j : Nat}
    (hj : s.lookup sym = some j) : s.codeDigits j = codeOf tree.codes sym ∧
      (s.codeEntry j).base.toNat + (s.codeEntry j).len.toNat ≤ s.cfg.ncdig := by
  obtain ⟨k, hk, hdigits, hcdig⟩ := hcodes _ (mem_codes_of_mem_leaves hsym)
  cases hj.symm.trans hk
  exact ⟨hdigits, hcdig⟩

theorem exists_lookup {sym : Cell} (hsym : sym ∈ tree.leaves.map Prod.fst) : ∃ j, s.lookup sym = some j := by
  obtain ⟨j, hj, -⟩ := hcodes _ (mem_codes_of_mem_leaves hsym)
  exact ⟨j, hj⟩

variable (hsyms : ∀ c ∈ s.input, c ∈ tree.leaves.map Prod.fst)

include hsyms

/-- What ENC leaves is the digits of the text (R103, R133). -/
theorem encodedFirst_eq_textDigits {j : Nat → Nat} (hj : ∀ k < s.ilen.toNat, s.lookup (s.inCell k) = some (j k)) :
    s.encodedFirst j s.ilen.toNat = (textDigits tree.codes s.input).map bitCell := by
  rw [State.encodedFirst, textDigits, State.input, List.map_flatten, List.map_map, List.map_map]
  refine congrArg List.flatten (List.map_congr_left fun k hk => ?_)
  have hcell : s.inCell k ∈ s.input := List.mem_map_of_mem hk
  exact congrArg (List.map bitCell) (codeDigits_of_lookup hcodes (hsyms _ hcell) (hj k (List.mem_range.1 hk))).1

/-- ENC of a text over the tree's symbols succeeds where the digits fit OUT (R152). -/
theorem encShadow_eq_textDigits (hccnt : s.ccnt.toNat ≤ s.cfg.ncode) (hone : 1 ≤ s.ilen.toNat)
    (hin : s.ilen.toNat ≤ s.cfg.nin) (hfit : (textDigits tree.codes s.input).length ≤ s.cfg.nout) :
    encShadow s = .ok ((textDigits tree.codes s.input).map bitCell) := by
  have hsym (k : Nat) (hk : k < s.ilen.toNat) : s.inCell k ∈ tree.leaves.map Prod.fst :=
    hsyms _ (List.mem_map_of_mem (List.mem_range.2 hk))
  choose! j hj using fun k hk => exists_lookup hcodes (hsym k hk)
  have htext := encodedFirst_eq_textDigits hcodes hsyms hj
  have hlength : s.codesLength j s.ilen.toNat ≤ s.cfg.nout := by
    rwa [← encodedFirst_length, htext, List.length_map]
  have hne : s.ilen ≠ 0#32 := fun h0 => by simp [h0] at hone
  rw [encShadow_of_check_none (encCheck_eq_none.2 ⟨hin, hccnt, hne⟩), ← htext]
  exact encFrom_first (fun k hk => ⟨hj k hk, (codeDigits_of_lookup hcodes (hsym k hk) (hj k hk)).2⟩) hlength

end HeldCodes

/-- DEC, started from a state with the parameters, ROOT and TREE of `s` and the digits of the text of `s` as its
payload, restores that text. -/
theorem exec_dec_restores {s u : State} {tree : HTree} (hc : s.cfg.Valid) (htree : tree.held s)
    (hroot : s.root.toNat = tree.index) (hsyms : ∀ c ∈ s.input, c ∈ tree.leaves.map Prod.fst)
    (hnout : (textDigits tree.codes s.input).length ≤ s.cfg.nout)
    (hnin : (textDigits tree.codes s.input).length ≤ s.cfg.nin)
    (hcfg : u.cfg = s.cfg) (huroot : u.root = s.root) (hnode : ∀ n, u.node n = s.node n)
    (hkey : u.ciph = true → u.klen ≠ 0#32 ∧ u.klen.toNat ≤ u.cfg.nkey)
    (hpayload : u.payload = (textDigits tree.codes s.input).map bitCell) :
    ∃ v, exec .dec u = .next v ∧ v.Completed ∧ v.olen = s.ilen ∧ v.output = s.input := by
  have hilen : u.ilen.toNat ≤ u.cfg.nin := by rwa [← payload_length, hpayload, List.length_map, hcfg]
  have hutree := held_congr hcfg hnode htree
  obtain ⟨v, hv, hdone, holen, houtput⟩ := exec_dec_of_textDigits (hcfg ▸ hc)
    (decCheck_of_held hilen hkey hutree (huroot ▸ hroot)) hutree (huroot ▸ hroot) hsyms
    (hcfg ▸ (length_le_textDigits hsyms).trans hnout) hpayload
  exact ⟨v, hv, hdone, BitVec.eq_of_toNat_eq (holen.trans (input_length s)), houtput⟩

/-- Settles O57: ENC commits the digits of the text (`encShadow_eq_textDigits`), which are the payload of DEC once they
are moved (`exec_dec_restores`). -/
theorem encodeThenDecodeRestoresText : Obligations.EncodeThenDecodeRestoresText := by
  unfold Obligations.EncodeThenDecodeRestoresText
  intro s tree hc htree hroot _ hcodes hccnt hone hin hsyms hnout hnin
  have hshadow := encShadow_eq_textDigits hcodes hsyms hccnt hone hin hnout
  have hlt := outputShadow_lt hc (i := .enc) (by decide) hshadow
  refine ⟨_, by rw [exec_enc_eq, hshadow, finishOutput_ok], commitOutput_completed _ _, fun ctrl hciph => ?_⟩
  refine exec_dec_restores hc htree hroot hsyms hnout hnin rfl rfl (fun _ => rfl)
    (fun h => absurd (h.symm.trans hciph) (by decide)) ?_
  refine (payload_of_not_ciph ?_).trans (movedOut_commitOutput_input hlt s)
  exact hciph

/-- Settles O58: the success of ENC committed the digits of the text; XOR commits them ciphered, and deciphering in
DEC gives them back (`cipherInput_movedOut_cipherInput`). -/
theorem cipheredRoundTripRestoresText : Obligations.CipheredRoundTripRestoresText := by
  unfold Obligations.CipheredRoundTripRestoresText
  intro s t tree hc htree hroot _ hcodes hccnt hone hin hsyms hne hnkey henc herr holen
  rw [exec_enc_eq] at henc
  obtain ⟨out, hshadow, rfl⟩ := finishOutput_of_err_zero henc herr
  have hlt := outputShadow_lt hc (i := .enc) (by decide) hshadow
  have hnout := outputShadow_length (i := .enc) (by decide) hshadow
  obtain ⟨-, j, hj, hout⟩ := encShadow_ok_inv hshadow
  obtain rfl : out = (textDigits tree.codes s.input).map bitCell :=
    hout.trans (encodedFirst_eq_textDigits hcodes hsyms hj)
  have hilen := movedOut_commitOutput_ilen hlt s
  have hnin := hilen ▸ holen
  rw [List.length_map] at hnin hnout hilen
  have hxor := xorShadow_ok (s := (commitOutput ((textDigits tree.codes s.input).map bitCell) s).movedOut) hne hnkey
    holen (hilen ▸ hnout)
  refine ⟨_, by rw [exec_xor_eq, hxor, finishOutput_ok], commitOutput_completed _ _, fun ctrl hciph => ?_⟩
  refine exec_dec_restores hc htree hroot hsyms hnout hnin rfl rfl (fun _ => rfl) (fun _ => ⟨hne, hnkey⟩) ?_
  refine (payload_of_ciph ?_).trans
    ((cipherInput_movedOut_cipherInput _).trans (movedOut_commitOutput_input hlt s))
  exact hciph

end Sys2Proof.Machine
end

section
/-! PROOFS. XOR (42_xor R160 to R163): the checks in their order, what a completed XOR leaves, and the second XOR with
the same key. -/

namespace Sys2Proof.Machine

open Sys2Proof

/-! ### The checks, in order (R161) -/

theorem xorCheck_of_no_key {s : State} (h : s.klen = 0#32) : xorCheck s = some { kind := .invalidKey, pos := 0 } :=
  if_pos h

theorem xorCheck_of_nkey_lt {s : State} (hne : s.klen ≠ 0#32) (h : s.cfg.nkey < s.klen.toNat) :
    xorCheck s = some { kind := .capacity, pos := s.cfg.nkey } := by
  rw [xorCheck, if_neg hne, if_pos h]

theorem xorCheck_of_nin_lt {s : State} (hne : s.klen ≠ 0#32) (hnkey : s.klen.toNat ≤ s.cfg.nkey)
    (h : s.cfg.nin < s.ilen.toNat) : xorCheck s = some { kind := .capacity, pos := s.cfg.nin } := by
  rw [xorCheck, if_neg hne, if_neg hnkey.not_gt, if_pos h]

theorem xorCheck_of_nout_lt {s : State} (hne : s.klen ≠ 0#32) (hnkey : s.klen.toNat ≤ s.cfg.nkey)
    (hin : s.ilen.toNat ≤ s.cfg.nin) (h : s.cfg.nout < s.ilen.toNat) :
    xorCheck s = some { kind := .capacity, pos := s.cfg.nout } := by
  rw [xorCheck, if_neg hne, if_neg hnkey.not_gt, if_neg hin.not_gt, if_pos h]

/-- A check of XOR that raises is its fault (R240). -/
theorem exec_xor_of_check {s : State} {kind : ErrorKind} {pos : Nat} {status : Word}
    (hstatus : statusWord kind.code = status) (h : xorCheck s = some { kind := kind, pos := pos }) :
    exec .xor s = .next (s.outputFault status pos) := by
  rw [exec_xor_eq, xorShadow, h, finishOutput_error, ← hstatus]

/-- Settles O29: the four checks in order, each raise being the fault XOR takes (`exec_xor_of_check`). -/
theorem xorChecksInOrder : Obligations.XorChecksInOrder := by
  unfold Obligations.XorChecksInOrder
  exact fun s => ⟨fun h => exec_xor_of_check status_invalidKey (xorCheck_of_no_key h),
    fun hne h => exec_xor_of_check status_capacity (xorCheck_of_nkey_lt hne h),
    fun hne hnkey h => exec_xor_of_check status_capacity (xorCheck_of_nin_lt hne hnkey h),
    fun hne hnkey hin h => exec_xor_of_check status_capacity (xorCheck_of_nout_lt hne hnkey hin h)⟩

/-! ### The completed command (R162) -/

/-- Where the checks pass, XOR commits the ciphered input. -/
theorem exec_xor_of_ok {s : State} (hne : s.klen ≠ 0#32) (hnkey : s.klen.toNat ≤ s.cfg.nkey)
    (hin : s.ilen.toNat ≤ s.cfg.nin) (hout : s.ilen.toNat ≤ s.cfg.nout) :
    exec .xor s = .next (commitOutput s.cipherInput s) := by
  rw [exec_xor_eq, xorShadow_ok hne hnkey hin hout, finishOutput_ok]

/-- An XOR that reports no error passed the checks and committed the ciphered input. -/
theorem exec_xor_ok_inv {s t : State} (h : exec .xor s = .next t) (herr : t.err = 0#8) :
    t = commitOutput s.cipherInput s ∧ s.klen ≠ 0#32 ∧ s.klen.toNat ≤ s.cfg.nkey ∧ s.ilen.toNat ≤ s.cfg.nin ∧
      s.ilen.toNat ≤ s.cfg.nout := by
  obtain ⟨out, hshadow, rfl⟩ := finishOutput_of_err_zero (exec_xor_eq s ▸ h) herr
  rcases xorShadow_cases s with ⟨r, hr, -⟩ | ⟨hok, hchecks⟩
  · cases hshadow.symm.trans hr
  · cases hshadow.symm.trans hok
    exact ⟨rfl, hchecks⟩

theorem commitOutput_cipherInput_olen (s : State) : (commitOutput s.cipherInput s).olen = s.ilen := by
  rw [commitOutput_olen, cipherInput_length, BitVec.ofNat_toNat, BitVec.setWidth_eq]

theorem commitOutput_cipherInput_outCell {s : State} {i : Nat} (h : i < s.ilen.toNat) :
    (commitOutput s.cipherInput s).outCell i = s.cipherCell i := by
  rw [commitOutput_outCell_lt _ _ (by rwa [cipherInput_length])]
  simp [State.cipherInput]

/-- A bit of a ciphered cell is 1 exactly where the bits of the two operands differ. -/
theorem cipherCell_getLsbD (s : State) (i b : Nat) : (s.cipherCell i).getLsbD b =
    ((s.inCell i).getLsbD b != (s.keyCell (i % s.klen.toNat)).getLsbD b) := BitVec.getLsbD_xor

/-- Settles O30: XOR commits the ciphered input (`exec_xor_of_ok`), whose cells are those of `cipherCell_getLsbD`; a
commit keeps the cells past its stream and everything outside the result. -/
theorem xorCiphersEveryCell : Obligations.XorCiphersEveryCell := by
  unfold Obligations.XorCiphersEveryCell
  intro s hne hnkey hin hout
  refine ⟨_, exec_xor_of_ok hne hnkey hin hout, commitOutput_completed _ _, commitOutput_cipherInput_olen s,
    fun i hi b _ => ?_, fun i hi => commitOutput_outCell_ge _ _ ?_, commitOutput_sameBut _ _⟩
  · rw [commitOutput_cipherInput_outCell hi, cipherCell_getLsbD]
  · rwa [cipherInput_length]

/-! ### The second XOR (R163) -/

/-- Settles O31: the first XOR passed the checks, which read the same key and length after the move, so the second one
commits the ciphered cipher of the input, which is the input (`cipherInput_movedOut_cipherInput`). -/
theorem xorTwiceRestoresData : Obligations.XorTwiceRestoresData := by
  unfold Obligations.XorTwiceRestoresData
  intro s t hxor herr
  obtain ⟨rfl, hne, hnkey, hin, hout⟩ := exec_xor_ok_inv hxor herr
  have hilen := movedOut_cipherInput_ilen s
  refine ⟨_, exec_xor_of_ok hne hnkey (hilen ▸ hin) (hilen ▸ hout), commitOutput_completed _ _, ?_⟩
  rw [commitOutput_output _ _ (cipherInput_lt _), cipherInput_movedOut_cipherInput]

end Sys2Proof.Machine
end

section
/-! PROOFS. The lines of a record and the verdict on one line (43_freqtable R171 to R176, R181). -/

namespace Sys2Proof.Machine

open Sys2Proof

/-! ### The lines of a record (R171) -/

/-- Lines that stand one after another from `start` on, each with one newline after it. -/
def linesAt : Nat → List (List Cell) → List (Nat × List Cell)
  | _, [] => []
  | start, l :: ls => (start, l) :: linesAt (start + l.length + 1) ls

/-- Lines as a record writes them. -/
def joinLines (lines : List (List Cell)) : List Cell := (lines.map (· ++ [chNL])).flatten

@[simp] theorem joinLines_nil : joinLines [] = [] := rfl

@[simp] theorem joinLines_cons (l : List Cell) (ls : List (List Cell)) :
    joinLines (l :: ls) = l ++ chNL :: joinLines ls := by
  simp [joinLines]

theorem joinLines_length (ls : List (List Cell)) : (joinLines ls).length = (ls.map fun l => l.length + 1).sum := by
  simp [joinLines, List.length_flatten, Function.comp_def]

theorem sum_take_le_joinLines_length (ls : List (List Cell)) (k : Nat) :
    ((ls.take k).map fun l => l.length + 1).sum ≤ (joinLines ls).length := by
  rw [joinLines_length]
  exact ((List.take_sublist k ls).map _).sum_le_sum fun _ _ => Nat.zero_le _

theorem linesAt_lines (ls : List (List Cell)) : ∀ start, (linesAt start ls).map Prod.snd = ls := by
  induction ls with
  | nil => exact fun _ => rfl
  | cons l ls ih => exact fun start => congrArg (l :: ·) (ih _)

theorem linesAt_length (start : Nat) (ls : List (List Cell)) : (linesAt start ls).length = ls.length := by
  simpa using congrArg List.length (linesAt_lines ls start)

/-- A line starts after the lines before it and their newlines. -/
theorem start_of_linesAt (ls : List (List Cell)) : ∀ (start k pos : Nat) (l : List Cell),
    (linesAt start ls)[k]? = some (pos, l) → pos = start + ((ls.take k).map fun l => l.length + 1).sum := by
  induction ls with
  | nil => intro _ _ _ _ h; cases h
  | cons m ls ih =>
    intro start k pos l h
    cases k with
    | zero => cases h; rfl
    | succ k =>
      rw [ih _ k pos l h, List.take_succ_cons, List.map_cons, List.sum_cons]
      omega

/-- Lines with a newline after each are the lines of their text; cells after the last newline make one line more. -/
theorem linesFrom_joinLines {last : List Cell} (hlast : chNL ∉ last) (ls : List (List Cell))
    (h : ∀ l ∈ ls, chNL ∉ l) : ∀ start, linesFrom start start [] (joinLines ls ++ last) =
      linesAt start (ls ++ if last = [] then [] else [last]) := by
  induction ls with
  | nil =>
    intro start
    rw [joinLines_nil, List.nil_append, List.nil_append, linesFrom_last last _ _ _ hlast]
    cases last <;> simp [linesAt]
  | cons l ls ih =>
    intro start
    have hl := h l List.mem_cons_self
    rw [joinLines_cons, List.append_assoc, List.cons_append, linesFrom_line l _ _ _ _ hl,
      ih fun m hm => h m (List.mem_cons_of_mem l hm)]
    rfl

theorem recordLines_joinLines_append {ls : List (List Cell)} {last : List Cell} (h : ∀ l ∈ ls, chNL ∉ l)
    (hlast : chNL ∉ last) :
    recordLines (joinLines ls ++ last) = linesAt 0 (ls ++ if last = [] then [] else [last]) :=
  linesFrom_joinLines hlast ls h 0

/-- The lines of a record that ends in a newline. -/
theorem recordLines_joinLines {ls : List (List Cell)} (h : ∀ l ∈ ls, chNL ∉ l) :
    recordLines (joinLines ls) = linesAt 0 ls := by
  simpa using recordLines_joinLines_append h (last := []) List.not_mem_nil

/-- A line of a record starts after the lines before it and their newlines, inside the record. -/
theorem start_of_recordLines {ls : List (List Cell)} {last : List Cell} (h : ∀ l ∈ ls, chNL ∉ l) (hlast : chNL ∉ last)
    {k start : Nat} {l : List Cell} (hk : (recordLines (joinLines ls ++ last))[k]? = some (start, l)) :
    start = ((ls.take k).map fun l => l.length + 1).sum ∧ start ≤ (joinLines ls ++ last).length := by
  rw [recordLines_joinLines_append h hlast] at hk
  have hle : k ≤ ls.length := by
    have hlt := (List.getElem?_eq_some_iff.1 hk).1
    have hone : (if last = [] then [] else [last]).length ≤ 1 := by split <;> simp
    rw [linesAt_length, List.length_append] at hlt
    omega
  have hstart := start_of_linesAt _ 0 k start l hk
  rw [List.take_append_of_le_length hle, Nat.zero_add] at hstart
  have hfit := sum_take_le_joinLines_length ls k
  rw [List.length_append]
  exact ⟨hstart, by omega⟩

/-- Settles O32: the lines of a record are those of `linesAt` (`recordLines_joinLines_append`), and each starts inside
the record, after the lines before it (`start_of_recordLines`). -/
theorem recordSplitsAtNewlines : Obligations.RecordSplitsAtNewlines := by
  unfold Obligations.RecordSplitsAtNewlines
  intro lines last hlines hlast
  refine ⟨(congrArg _ (recordLines_joinLines_append hlines hlast)).trans (linesAt_lines _ 0), fun k start l hk => ?_⟩
  obtain ⟨hstart, hfit⟩ := start_of_recordLines hlines hlast hk
  exact ⟨(List.length_take_of_le hfit).symm, hstart⟩

/-! ### The fields of a line (R172 to R176) -/

theorem isBlankLine_iff {line : List Cell} : isBlankLine line = true ↔ ∀ c ∈ line, c = chSP ∨ c = chTAB ∨ c = chCR := by
  simp [isBlankLine, isBlankCell, or_assoc]

theorem isDecimal_iff {c : Cell} : isDecimal c = true ↔ 0x30 ≤ c.toNat ∧ c.toNat ≤ 0x39 := by
  simp [isDecimal, BitVec.le_def, ch0, ch9, symw]

/-- The number a text spells, digit by digit with its place value (R176). -/
def placeValue (count : List Cell) : Nat :=
  ((List.range count.length).map fun k => ((count[k]?.getD 0).toNat - 0x30) * 10 ^ (count.length - 1 - k)).sum

theorem placeValue_append (count : List Cell) (c : Cell) :
    placeValue (count ++ [c]) = 10 * placeValue count + (c.toNat - 0x30) := by
  have hplace : ∀ k ∈ List.range count.length,
      (((count ++ [c])[k]?.getD 0).toNat - 0x30) * 10 ^ (count.length + 1 - 1 - k) =
        10 * (((count[k]?.getD 0).toNat - 0x30) * 10 ^ (count.length - 1 - k)) := by
    intro k hk
    have hlt : k < count.length := List.mem_range.1 hk
    rw [List.getElem?_append_left hlt, show count.length + 1 - 1 - k = count.length - 1 - k + 1 by omega, pow_succ]
    ring
  rw [placeValue, placeValue, List.length_append, List.length_singleton, List.sum_range_succ,
    List.map_congr_left hplace, List.sum_map_mul_left]
  simp

theorem decimalValue_eq_placeValue (count : List Cell) : decimalValue count = placeValue count := by
  induction count using List.reverseRecOn with
  | nil => rfl
  | append_singleton count c ih => rw [decimalValue_append, placeValue_append, ih]

/-- A count text has at least one cell and digits only (R175). -/
def IsNumeric (count : List Cell) : Prop := count ≠ [] ∧ ∀ c ∈ count, 0x30 ≤ c.toNat ∧ c.toNat ≤ 0x39

theorem numeric_test_iff {count : List Cell} :
    (count.isEmpty || !(count.all isDecimal)) = true ↔ ¬IsNumeric count := by
  simp only [Bool.or_eq_true, List.isEmpty_iff, Bool.not_eq_true', ← Bool.not_eq_true, List.all_eq_true, isDecimal_iff,
    IsNumeric, not_and_or, ne_eq, not_not]

theorem countValue_of_numeric {count : List Cell} (h : IsNumeric count) (hmax : decimalValue count ≤ cntMax) :
    countValue count = some (BitVec.ofNat 32 (decimalValue count)) := by
  rw [countValue, if_neg (mt numeric_test_iff.1 (not_not.2 h)), if_neg hmax.not_gt]

theorem countValue_eq_none {count : List Cell} (h : ¬IsNumeric count ∨ cntMax < decimalValue count) :
    countValue count = none := by
  by_cases hnum : IsNumeric count
  · rw [countValue, if_neg (mt numeric_test_iff.1 (not_not.2 hnum)), if_pos (h.resolve_left (not_not.2 hnum))]
  · rw [countValue, if_pos (numeric_test_iff.2 hnum)]

theorem tokenSymbol_newline : tokenSymbol [chN, chL] = some chNL := rfl

theorem tokenSymbol_singleton (c : Cell) : tokenSymbol [c] = some c := rfl

theorem tokenSymbol_eq_none {token : List Cell} (hone : token.length ≠ 1) (hnl : token ≠ [chN, chL]) :
    tokenSymbol token = none := by
  match token with
  | [] => rfl
  | [_] => exact absurd rfl hone
  | [a, b] => exact if_neg fun ⟨ha, hb⟩ => hnl (by rw [ha, hb])
  | _ :: _ :: _ :: _ => rfl

/-! ### The verdict on a line (R172 to R177) -/

theorem lineVerdict_of_blank {line : List Cell} (h : isBlankLine line = true) : lineVerdict line = .blank := if_pos h

theorem lineVerdict_of_no_colon {line : List Cell} (hblank : ¬isBlankLine line = true) (h : chColon ∉ line) :
    lineVerdict line = .skipped := by
  rw [lineVerdict, if_neg hblank, splitColon_none line h]

/-- A line with a colon is not blank. -/
theorem not_isBlankLine_colon (token count : List Cell) : ¬isBlankLine (token ++ chColon :: count) = true :=
  fun h => absurd (isBlankLine_iff.1 h chColon (by simp)) (by decide)

section WithColon

variable {token count : List Cell} (hcolon : chColon ∉ token)

include hcolon

theorem lineVerdict_of_token_none (h : tokenSymbol token = none) :
    lineVerdict (token ++ chColon :: count) = .skipped := by
  simp only [lineVerdict, if_neg (not_isBlankLine_colon token count), splitColon_token token count hcolon, h]

theorem lineVerdict_of_count_none (h : countValue count = none) :
    lineVerdict (token ++ chColon :: count) = .skipped := by
  simp only [lineVerdict, if_neg (not_isBlankLine_colon token count), splitColon_token token count hcolon, h]
  cases tokenSymbol token <;> rfl

theorem lineVerdict_of_fields {sym : Cell} {v : Word} (hsym : tokenSymbol token = some sym)
    (hcount : countValue count = some v) : lineVerdict (token ++ chColon :: count) = .entry sym v := by
  simp only [lineVerdict, if_neg (not_isBlankLine_colon token count), splitColon_token token count hcolon, hsym, hcount]

end WithColon

/-- Settles O33: the verdict by the two fields of a line (`lineVerdict_of_fields` and the three ways to skip), the
count's value being its sum of place values (`decimalValue_eq_placeValue`). -/
theorem lineVerdictByForm : Obligations.LineVerdictByForm := by
  unfold Obligations.LineVerdictByForm
  refine ⟨fun line h => lineVerdict_of_blank (isBlankLine_iff.2 h), ?_, ?_⟩
  · rintro line hcolon ⟨c, hc, hsp, htab, hcr⟩
    refine lineVerdict_of_no_colon (fun hblank => ?_) hcolon
    rcases isBlankLine_iff.1 hblank c hc with h | h | h
    · exact hsp h
    · exact htab h
    · exact hcr h
  · intro token count hcolon value numeric
    have hvalue : decimalValue count = value := decimalValue_eq_placeValue count
    have hcount (hnum : numeric) (hmax : value ≤ 4294967295) : countValue count = some (BitVec.ofNat 32 value) :=
      hvalue ▸ countValue_of_numeric hnum (hvalue.trans_le hmax)
    refine ⟨fun h => lineVerdict_of_count_none hcolon (countValue_eq_none (hvalue.symm ▸ h)), ?_, ?_,
      fun hone hnl => lineVerdict_of_token_none hcolon (tokenSymbol_eq_none hone hnl)⟩
    · rintro hnum hmax rfl
      exact lineVerdict_of_fields hcolon tokenSymbol_newline (hcount hnum hmax)
    · rintro hnum hmax c rfl
      exact lineVerdict_of_fields hcolon (tokenSymbol_singleton c) (hcount hnum hmax)

/-- Settles O34: each line is written out, so its verdict is computed. -/
theorem lineVerdictTable : Obligations.LineVerdictTable := by
  unfold Obligations.LineVerdictTable
  decide

end Sys2Proof.Machine
end

section
/-! PROOFS. FPARSE (43_freqtable R170, R177 to R180): what a computed shadow is, what each fault needs, and what a
completed command leaves. -/

namespace Sys2Proof.Machine

open Sys2Proof

/-! ### Tables with each symbol once -/

/-- The entry found for the symbol of an entry of a table that lists each symbol once is that entry. -/
theorem find?_symbol_of_mem {table : List (Cell × Word)} (hn : (table.map Prod.fst).Nodup) {entry : Cell × Word}
    (h : entry ∈ table) : table.find? (fun x => x.1 == entry.1) = some entry := by
  obtain ⟨found, hfound⟩ : ∃ found, table.find? (fun x => x.1 == entry.1) = some found :=
    Option.isSome_iff_exists.1 (List.find?_isSome.2 ⟨entry, h, beq_self_eq_true _⟩)
  have hsym : found.1 = entry.1 := by simpa using List.find?_some hfound
  rw [hfound, List.inj_on_of_nodup_map hn (List.mem_of_find?_eq_some hfound) h hsym]

/-- A table whose symbols are those of a list that has each once, and whose entries stand in that list, is the list. -/
theorem table_eq_of_symbols {table entries : List (Cell × Word)} (hn : (entries.map Prod.fst).Nodup)
    (hsyms : table.map Prod.fst = entries.map Prod.fst) (h : ∀ entry ∈ table, entry ∈ entries) : table = entries := by
  have hlen : table.length = entries.length := by simpa using congrArg List.length hsyms
  refine List.ext_getElem hlen fun k hk hk' => ?_
  refine List.inj_on_of_nodup_map hn (h _ (List.getElem_mem hk)) (List.getElem_mem hk') ?_
  simpa [hk, hk'] using congrArg (·[k]?) hsyms

theorem firstSymbols_nodup (entries : List (Cell × Word)) : (firstSymbols entries).Nodup :=
  nodup_eraseDups _ _ le_rfl

theorem firstSymbols_of_nodup {entries : List (Cell × Word)} (h : (entries.map Prod.fst).Nodup) :
    firstSymbols entries = entries.map Prod.fst := eraseDups_of_nodup h

theorem firstSymbols_length_le (entries : List (Cell × Word)) : (firstSymbols entries).length ≤ entries.length := by
  have hsub : firstSymbols entries ⊆ entries.map Prod.fst := fun _ h => List.mem_eraseDups.1 h
  simpa using ((firstSymbols_nodup entries).subperm hsub).length_le

theorem firstSymbols_eq_nil_iff {entries : List (Cell × Word)} : firstSymbols entries = [] ↔ entries = [] := by
  cases entries <;> simp [firstSymbols, List.eraseDups_cons]

/-! ### The loop over the lines of a record -/

/-- What the loop leaves (R177, R178). -/
theorem parseLines_record {nfreq : Nat} {text : List Cell} {p : Parse}
    (h : parseLines nfreq (recordLines text) { table := [], warn := 0 } = .ok p) :
    p.table.map Prod.fst = firstSymbols (recordEntries text) ∧ p.warn = recordSkipped text ∧
    ∀ entry ∈ p.table, (recordEntries text).reverse.find? (fun x => x.1 == entry.1) = some entry := by
  obtain ⟨hwarn, -, hsyms, hfind⟩ := parseLines_ok _ h List.nodup_nil
  refine ⟨hsyms, hwarn.trans (Nat.zero_add _), fun entry hentry => ?_⟩
  have hn : (p.table.map Prod.fst).Nodup := hsyms ▸ firstSymbols_nodup _
  rw [← find?_symbol_of_mem hn hentry, hfind, List.append_nil]
  rfl

theorem parseLines_record_fits {nfreq : Nat} {text : List Cell}
    (hfit : (firstSymbols (recordEntries text)).length ≤ nfreq) :
    ∃ p, parseLines nfreq (recordLines text) { table := [], warn := 0 } = .ok p := parseLines_fits _ List.nodup_nil hfit

/-- The loop raises at the first line whose new symbol finds the table full (R179 b). -/
theorem parseLines_full {nfreq a : Nat} {lines more : List (Nat × List Cell)} {line : List Cell} {p q : Parse}
    {sym : Cell} {count : Word} (hbefore : parseLines nfreq lines q = .ok p)
    (hline : lineVerdict line = .entry sym count) (hnew : sym ∉ p.table.map Prod.fst) (hfull : nfreq ≤ p.table.length) :
    parseLines nfreq (lines ++ (a, line) :: more) q = .error { kind := .capacity, pos := a } := by
  have hinsert : insertEntry nfreq a sym count p.table = .error { kind := .capacity, pos := a } := by
    simp only [insertEntry, (replaceCount_eq_none sym count p.table).2 hnew, if_pos hfull]
  simp only [parseLines_append, hbefore]
  exact parseLines_cons_error (by simp only [parseLine, hline, hinsert])

/-! ### The shadow (R170, R179) -/

theorem fparseShadow_of_nin_lt {s : State} (h : s.cfg.nin < s.ilen.toNat) :
    fparseShadow s = .error ({ kind := .capacity, pos := s.cfg.nin }, 0) := if_pos h

theorem fparseShadow_of_loop_error {s : State} {r : Raise} (hin : s.ilen.toNat ≤ s.cfg.nin)
    (h : parseLines s.cfg.nfreq (recordLines s.input) { table := [], warn := 0 } = .error r) :
    fparseShadow s = .error (r, 0) := by
  rw [fparseShadow, if_neg hin.not_gt, h]

theorem fparseShadow_of_loop_ok {s : State} {p : Parse} (hin : s.ilen.toNat ≤ s.cfg.nin)
    (h : parseLines s.cfg.nfreq (recordLines s.input) { table := [], warn := 0 } = .ok p) : fparseShadow s =
      if p.table = [] then .error ({ kind := .tableParse, pos := s.ilen.toNat }, p.warn) else .ok p := by
  rw [fparseShadow, if_neg hin.not_gt, h]
  simp only [List.length_eq_zero_iff]

/-- FPARSE has a table where the input fits, a line is valid and the distinct symbols fit FREQ. -/
theorem exists_fparseShadow_ok {s : State} (hin : s.ilen.toNat ≤ s.cfg.nin) (hne : recordEntries s.input ≠ [])
    (hfit : (firstSymbols (recordEntries s.input)).length ≤ s.cfg.nfreq) : ∃ p, fparseShadow s = .ok p := by
  obtain ⟨p, hp⟩ := parseLines_record_fits hfit
  refine ⟨p, (fparseShadow_of_loop_ok hin hp).trans (if_neg fun hnil => hne (firstSymbols_eq_nil_iff.1 ?_))⟩
  rw [← (parseLines_record hp).1, hnil, List.map_nil]

/-- A record with no valid line leaves no table (R179 c). -/
theorem fparseShadow_of_no_entry {s : State} (hin : s.ilen.toNat ≤ s.cfg.nin) (h : recordEntries s.input = []) :
    fparseShadow s = .error ({ kind := .tableParse, pos := s.ilen.toNat }, recordSkipped s.input) := by
  have hsyms : firstSymbols (recordEntries s.input) = [] := firstSymbols_eq_nil_iff.2 h
  obtain ⟨p, hp⟩ := parseLines_record_fits (nfreq := s.cfg.nfreq) (text := s.input) (by simp [hsyms])
  obtain ⟨htable, hwarn, -⟩ := parseLines_record hp
  rw [fparseShadow_of_loop_ok hin hp, if_pos (List.map_eq_nil_iff.1 (htable.trans hsyms)), hwarn]

/-- What FPARSE has computed when it raises nothing (R170, R177, R178). -/
theorem fparseShadow_ok_inv {s : State} {p : Parse} (h : fparseShadow s = .ok p) :
    p.table.map Prod.fst = firstSymbols (recordEntries s.input) ∧ p.warn = recordSkipped s.input ∧
    (∀ entry ∈ p.table, (recordEntries s.input).reverse.find? (fun x => x.1 == entry.1) = some entry) ∧
    p.warn ≤ s.cfg.nin ∧ 1 ≤ p.table.length ∧ p.table.length ≤ s.cfg.nfreq := by
  rcases fparseShadow_cases s with ⟨q, hq, hin, hloop, hone, hnfreq, -, hle, -⟩ | ⟨r, hr, -⟩ | ⟨hr, -⟩
  · cases h.symm.trans hq
    obtain ⟨hsyms, hwarn, hfind⟩ := parseLines_record hloop
    exact ⟨hsyms, hwarn, hfind, hle.trans hin, hone, hnfreq⟩
  · cases h.symm.trans hr
  · cases h.symm.trans hr

/-! ### The faults (R179) -/

theorem exec_fparse_eq (s : State) : exec .fparse s = execFparse s := rfl

/-- A raise inside FPARSE is its fault (R240). -/
theorem exec_fparse_of_error {s : State} {kind : ErrorKind} {pos warn : Nat} {status : Word}
    (hstatus : statusWord kind.code = status) (h : fparseShadow s = .error ({ kind := kind, pos := pos }, warn)) :
    exec .fparse s = .next (s.tableFault status pos warn) := by
  rw [exec_fparse_eq, execFparse_of_error h, takeFault_table, hstatus]

/-- Settles O36: the shadow raises in each of the three cases (`parseLines_full` at the line that finds the table
full), and a raise is the fault FPARSE takes (`exec_fparse_of_error`). -/
theorem fparseFaults : Obligations.FparseFaults := by
  unfold Obligations.FparseFaults
  intro s _
  refine ⟨fun h => exec_fparse_of_error status_capacity (fparseShadow_of_nin_lt h), ?_,
    fun hin h => exec_fparse_of_error status_tableParse (fparseShadow_of_no_entry hin h)⟩
  intro hin lines more a line p sym count hlines hbefore hline hnew hfull
  refine exec_fparse_of_error status_capacity (fparseShadow_of_loop_error hin ?_)
  rw [hlines]
  exact parseLines_full hbefore hline hnew hfull.ge

/-! ### The completed command (R177, R178, R180) -/

/-- What a computed table leaves (R170, R241): `State.table` is the table, WARN its count of skipped lines, and
nothing else changes. -/
theorem exec_fparse_of_ok {s : State} {p : Parse} (hc : s.cfg.Valid) (h : fparseShadow s = .ok p) :
    ∃ t, exec .fparse s = .next t ∧ t.Completed ∧ t.table = p.table ∧ t.fcnt.toNat = p.table.length ∧
      t.warn.toNat = p.warn ∧ (∀ k, t.fcnt.toNat ≤ k → t.freqEntry k = s.freqEntry k) ∧
      SameBut [.status, .errpos, .fcnt, .warn] [.freqSym, .freqCount] s t := by
  have hlt := fparseShadow_lt hc h
  obtain ⟨-, -, -, hwarn, -⟩ := fparseShadow_ok_inv h
  have hnin := hc.1.2
  exact ⟨_, execFparse_of_ok h, commitTable_completed _ _ _, commitTable_table _ _ s hlt,
    toNat_ofNat_of_le le_rfl hlt, toNat_ofNat_of_le hwarn (by omega),
    fun k hk => commitTable_freqEntry_of_fcnt_le hlt hk, commitTable_sameBut _ _ s⟩

/-- Settles O35: FPARSE computes a table (`exists_fparseShadow_ok`), `fparseShadow_ok_inv` says which, and
`exec_fparse_of_ok` what it leaves. -/
theorem fparseBuildsTable : Obligations.FparseBuildsTable := by
  unfold Obligations.FparseBuildsTable
  intro s hc hin hne hfit
  obtain ⟨p, hp⟩ := exists_fparseShadow_ok hin hne hfit
  obtain ⟨hsyms, hskipped, hfind, -⟩ := fparseShadow_ok_inv hp
  obtain ⟨t, ht, hdone, htable, hfcnt, hwarn, hrest, hsame⟩ := exec_fparse_of_ok hc hp
  exact ⟨t, ht, hdone, htable ▸ hsyms, htable ▸ hfind, by rw [hfcnt, ← hsyms, List.length_map],
    hwarn.trans hskipped, hrest, hsame⟩

/-- An FPARSE that reports no error committed a table it had computed. -/
theorem exec_fparse_of_err_zero {s t : State} (h : exec .fparse s = .next t) (herr : t.err = 0#8) :
    ∃ p, fparseShadow s = .ok p := by
  rcases execFparse_cases h with ⟨p, hp, -⟩ | ⟨r, w, -, rfl⟩
  · exact ⟨p, hp⟩
  · exact absurd ((takeFault_err _ r s).symm.trans herr) (code_ne_zero r.kind)

/-- Every line that is not blank is an entry or is skipped (R172, R177). -/
theorem entries_add_skipped (lines : List (Nat × List Cell)) : (lineEntries lines).length + linesSkipped lines =
    (lines.filter fun line => lineVerdict line.2 != .blank).length := by
  induction lines with
  | nil => rfl
  | cons line lines ih =>
    have hone : (lineEntries [line]).length + linesSkipped [line] =
        ([line].filter fun line => lineVerdict line.2 != .blank).length := by
      cases hv : lineVerdict line.2 <;> simp [lineEntries, linesSkipped, hv]
    rw [lineEntries_cons, linesSkipped_cons, List.length_append, show line :: lines = [line] ++ lines from rfl,
      List.filter_append, List.length_append, ← hone, ← ih]
    omega

/-- Settles O37: FCNT is the number of distinct symbols and WARN that of the skipped lines (`fparseShadow_ok_inv`); the
lines that are not blank are the entries and the skipped ones (`entries_add_skipped`). -/
theorem fparseSuccessFacts : Obligations.FparseSuccessFacts := by
  unfold Obligations.FparseSuccessFacts
  intro s t hc h herr nonBlank
  obtain ⟨p, hp⟩ := exec_fparse_of_err_zero h herr
  obtain ⟨hsyms, hskipped, -, -, hone, hnfreq⟩ := fparseShadow_ok_inv hp
  obtain ⟨u, hu, -, htable, hfcnt, hwarn, hrest, hsame⟩ := exec_fparse_of_ok hc hp
  cases h.symm.trans hu
  have hlines : (recordEntries s.input).length + recordSkipped s.input = nonBlank := entries_add_skipped _
  have hlen : p.table.length = (firstSymbols (recordEntries s.input)).length := by rw [← hsyms, List.length_map]
  have hle := firstSymbols_length_le (recordEntries s.input)
  rw [hfcnt, hwarn, hskipped, htable, hsyms]
  refine ⟨⟨hone, hnfreq⟩, firstSymbols_nodup _, by omega, fun hn => ?_, hfcnt ▸ hrest, hsame⟩
  rw [hlen, firstSymbols_of_nodup hn, List.length_map, hlines]

end Sys2Proof.Machine
end

section
/-! PROOFS. FSER (43_freqtable R185, R186; 60_exceptions R236): the decimal rendering of a count, the completed command
and the two capacity faults. -/

namespace Sys2Proof.Machine

open Sys2Proof

/-! ### The decimal rendering (R186) -/

theorem decimalDigits_of_lt {v : Nat} (fuel : Nat) (h : v < 10) : decimalDigits (fuel + 1) v = [v] := if_pos h

theorem decimalDigits_of_ge {v : Nat} (fuel : Nat) (h : 10 ≤ v) :
    decimalDigits (fuel + 1) v = decimalDigits fuel (v / 10) ++ [v % 10] := if_neg h.not_gt

/-- Every digit of a rendering is below 10. -/
theorem lt_of_mem_decimalDigits {d : Nat} (fuel : Nat) : ∀ v, d ∈ decimalDigits fuel v → d < 10 := by
  induction fuel with
  | zero => exact fun _ h => absurd h List.not_mem_nil
  | succ fuel ih =>
    intro v h
    rcases Nat.lt_or_ge v 10 with hv | hv
    · rw [decimalDigits_of_lt fuel hv, List.mem_singleton] at h
      omega
    · rw [decimalDigits_of_ge fuel hv, List.mem_append, List.mem_singleton] at h
      rcases h with h | h
      · exact ih _ h
      · omega

/-- The fuel bounds the number of digits. -/
theorem decimalDigits_length_le (fuel : Nat) : ∀ v, (decimalDigits fuel v).length ≤ fuel := by
  induction fuel with
  | zero => exact fun _ => le_rfl
  | succ fuel ih =>
    intro v
    rcases Nat.lt_or_ge v 10 with hv | hv
    · simp [decimalDigits_of_lt fuel hv]
    · simp [decimalDigits_of_ge fuel hv, ih]

/-- With fuel enough the digits spell the number. -/
theorem decimalValue_decimalDigits (fuel : Nat) : ∀ v < 10 ^ fuel,
    decimalValue ((decimalDigits fuel v).map digitCell) = v := by
  induction fuel with
  | zero =>
    intro v h
    exact (Nat.lt_one_iff.1 h).symm
  | succ fuel ih =>
    intro v h
    rcases Nat.lt_or_ge v 10 with hv | hv
    · rw [decimalDigits_of_lt fuel hv, List.map_singleton, ← List.nil_append [digitCell v], decimalValue_append,
        digitCell_toNat hv, decimalValue, List.foldl_nil]
      omega
    · rw [decimalDigits_of_ge fuel hv, List.map_append, List.map_singleton, decimalValue_append,
        digitCell_toNat (by omega), ih _ (by rw [pow_succ] at h; omega)]
      omega

/-- With fuel enough a number above 0 has no leading zero. -/
theorem decimalDigits_head (fuel : Nat) : ∀ v < 10 ^ fuel, v ≠ 0 →
    ∃ d rest, decimalDigits fuel v = d :: rest ∧ d ≠ 0 := by
  induction fuel with
  | zero =>
    intro v h hne
    exact absurd (Nat.lt_one_iff.1 h) hne
  | succ fuel ih =>
    intro v h hne
    rcases Nat.lt_or_ge v 10 with hv | hv
    · exact ⟨v, [], decimalDigits_of_lt fuel hv, hne⟩
    · obtain ⟨d, rest, heq, hd⟩ := ih (v / 10) (by rw [pow_succ] at h; omega) (by omega)
      exact ⟨d, rest ++ [v % 10], by rw [decimalDigits_of_ge fuel hv, heq, List.cons_append], hd⟩

/-- Ten digits are enough for a count. -/
theorem toNat_lt_ten_pow_ten (v : Word) : v.toNat < 10 ^ 10 := by omega

theorem decimalValue_decimalCells (v : Word) : decimalValue (decimalCells v) = v.toNat :=
  decimalValue_decimalDigits 10 v.toNat (toNat_lt_ten_pow_ten v)

/-- The cells of a rendering are digits. -/
theorem digit_of_mem_decimalCells {v : Word} {c : Cell} (h : c ∈ decimalCells v) : 0x30 ≤ c.toNat ∧ c.toNat ≤ 0x39 := by
  obtain ⟨d, hd, rfl⟩ := List.mem_map.1 h
  have hlt := lt_of_mem_decimalDigits 10 _ hd
  rw [digitCell_toNat hlt]
  omega

theorem decimalCells_zero : decimalCells 0#32 = [0x0030#symw] := rfl

/-- A count above 0 is written without a leading zero. -/
theorem decimalCells_head {v : Word} (h : v ≠ 0#32) : ∃ c rest, decimalCells v = c :: rest ∧ c ≠ 0x0030#symw := by
  have hne : v.toNat ≠ 0 := fun h0 => h (BitVec.eq_of_toNat_eq h0)
  obtain ⟨d, rest, heq, hd⟩ := decimalDigits_head 10 v.toNat (toNat_lt_ten_pow_ten v) hne
  have hlt := lt_of_mem_decimalDigits 10 v.toNat (heq ▸ List.mem_cons_self)
  refine ⟨digitCell d, rest.map digitCell, by rw [decimalCells, heq, List.map_cons], fun h0 => hd ?_⟩
  have hcell : 0x30 + d = 0x30 := (digitCell_toNat hlt).symm.trans (congrArg BitVec.toNat h0)
  omega

theorem decimalCells_ne_nil (v : Word) : decimalCells v ≠ [] := by
  by_cases h : v = 0#32
  · simp [h, decimalCells_zero]
  · obtain ⟨c, rest, heq, -⟩ := decimalCells_head h
    simp [heq]

theorem decimalCells_length_le (v : Word) : (decimalCells v).length ≤ 10 := by
  simpa [decimalCells] using decimalDigits_length_le 10 v.toNat

/-- Settles O38: the value, the digits, the length and the head of a rendering. -/
theorem decimalRendering : Obligations.DecimalRendering := by
  unfold Obligations.DecimalRendering
  refine fun v => ⟨decimalValue_decimalCells v, fun c => digit_of_mem_decimalCells,
    List.length_pos_iff.2 (decimalCells_ne_nil v), decimalCells_length_le v, fun h => ?_, ?_⟩
  · obtain ⟨c, rest, heq, hc⟩ := decimalCells_head h
    simpa [heq] using hc
  · rintro rfl
    exact decimalCells_zero

/-! ### The completed command (R185) -/

theorem exec_fser_eq (s : State) : exec .fser s = finishOutput (fserShadow s) s := rfl

theorem recordText_length (table : List (Cell × Word)) :
    ((table.map recordLine).flatten).length = (table.map fun entry => (recordLine entry).length).sum := by
  simp [List.length_flatten, Function.comp_def]

/-- The shadow of FSER where the table and its text fit. -/
theorem fserShadow_of_fits {s : State} (hfcnt : s.fcnt.toNat ≤ s.cfg.nfreq)
    (hfit : ((s.table.map recordLine).flatten).length ≤ s.cfg.nout) :
    fserShadow s = .ok (s.table.map recordLine).flatten := by
  rw [recordText_length] at hfit
  rw [fserShadow, if_neg hfcnt.not_gt, fserFrom_ok _ _ _ _ (by simpa using hfit), List.nil_append]

/-- FSER commits the lines of the table where they fit. -/
theorem exec_fser_of_fits {s : State} (hc : s.cfg.Valid) (hfcnt : s.fcnt.toNat ≤ s.cfg.nfreq)
    (hfit : ((s.table.map recordLine).flatten).length ≤ s.cfg.nout) :
    ∃ t, exec .fser s = .next t ∧ t.Completed ∧ t.olen.toNat = ((s.table.map recordLine).flatten).length ∧
      t.output = (s.table.map recordLine).flatten ∧ (∀ k, t.olen.toNat ≤ k → t.outCell k = s.outCell k) ∧
      SameBut [.status, .errpos, .olen] [.output] s t := by
  have hshadow := fserShadow_of_fits hfcnt hfit
  rw [exec_fser_eq, hshadow]
  exact finishOutput_next (outputShadow_lt hc (i := .fser) (by decide) hshadow)

/-- Settles O39: the text is the lines of `State.table`, which FSER commits (`exec_fser_of_fits`). -/
theorem fserWritesRecord : Obligations.FserWritesRecord := by
  unfold Obligations.FserWritesRecord
  intro s hc hfcnt line text hfit
  have htext : (s.table.map recordLine).flatten = text := by rw [State.table, List.map_map]; rfl
  exact htext ▸ exec_fser_of_fits hc hfcnt (htext ▸ hfit)

/-! ### The capacity faults (R236) -/

/-- The loop past the entries whose lines fit. -/
theorem fserFrom_append (nout : Nat) (before rest : List (Cell × Word)) : ∀ (e : Nat) (out : List Cell),
    out.length + ((before.map fun entry => (recordLine entry).length).sum) ≤ nout →
    fserFrom nout e (before ++ rest) out =
      fserFrom nout (e + before.length) rest (out ++ (before.map recordLine).flatten) := by
  induction before with
  | nil => intro e out _; simp
  | cons entry before ih =>
    intro e out h
    rw [List.map_cons, List.sum_cons] at h
    rw [List.cons_append, fserFrom, if_neg (by omega), ih _ _ (by rw [List.length_append]; omega), List.length_cons,
      List.map_cons, List.flatten_cons, List.append_assoc, Nat.add_assoc, Nat.add_comm 1]

/-- FREQ up to entry `e`, that entry, and the rest. -/
theorem table_split {s : State} {e : Nat} (he : e < s.fcnt.toNat) :
    s.table = (List.range e).map s.freqEntry ++ s.freqEntry e :: s.table.drop (e + 1) := by
  have hlt : e < s.table.length := by rwa [table_length]
  have htake : s.table.take e = (List.range e).map s.freqEntry := by
    rw [State.table, ← List.map_take, List.take_range, Nat.min_eq_left he.le]
  have hentry : s.table[e] = s.freqEntry e := by simp [State.table]
  rw [← htake, ← hentry, ← List.drop_eq_getElem_cons hlt, List.take_append_drop]

/-- The first entry whose line does not fit OUT raises. -/
theorem fserShadow_of_full {s : State} {e : Nat} (hfcnt : s.fcnt.toNat ≤ s.cfg.nfreq) (he : e < s.fcnt.toNat)
    (hfit : ((List.range e).map fun k => (recordLine (s.freqEntry k)).length).sum ≤ s.cfg.nout)
    (hfull : s.cfg.nout < ((List.range (e + 1)).map fun k => (recordLine (s.freqEntry k)).length).sum) :
    fserShadow s = .error { kind := .capacity, pos := e } := by
  have hsum : ((((List.range e).map s.freqEntry).map fun entry => (recordLine entry).length)).sum =
      ((List.range e).map fun k => (recordLine (s.freqEntry k)).length).sum := by rw [List.map_map]; rfl
  rw [List.sum_range_succ] at hfull
  rw [fserShadow, if_neg hfcnt.not_gt, table_split he,
    fserFrom_append _ _ _ _ _ (by rwa [List.length_nil, Nat.zero_add, hsum]), fserFrom, if_pos]
  · simp
  · rw [List.nil_append, recordText_length, hsum]
    exact hfull

/-- A raise inside FSER is its fault (R240). -/
theorem exec_fser_of_capacity {s : State} {pos : Nat} (h : fserShadow s = .error { kind := .capacity, pos := pos }) :
    exec .fser s = .next (s.outputFault 0x107#32 pos) := by
  rw [exec_fser_eq, h, finishOutput_error, status_capacity]

/-- Settles O40: the check before the loop, and the entry the loop stops at (`fserShadow_of_full`). -/
theorem fserCapacityFaults : Obligations.FserCapacityFaults := by
  unfold Obligations.FserCapacityFaults
  exact fun s => ⟨fun h => exec_fser_of_capacity (if_pos h),
    fun hfcnt e he hfit hfull => exec_fser_of_capacity (fserShadow_of_full hfcnt he hfit hfull)⟩

end Sys2Proof.Machine
end

section
/-! PROOFS. The table round trip (43_freqtable R187, R188) and the frequency-table file (45_host R220): a written line
reads back as its entry, so a written table is the entries of its record. -/

namespace Sys2Proof.Machine

open Sys2Proof

/-! ### A written line (R186) -/

/-- The written line of an entry without its newline. -/
def recordFields (entry : Cell × Word) : List Cell := symbolToken entry.1 ++ chColon :: decimalCells entry.2

theorem recordLine_eq (entry : Cell × Word) : recordLine entry = recordFields entry ++ [chNL] := by
  simp [recordLine, recordFields]

theorem recordText_eq_joinLines (table : List (Cell × Word)) :
    (table.map recordLine).flatten = joinLines (table.map recordFields) := by
  rw [joinLines, List.map_map]
  exact congrArg List.flatten (List.map_congr_left fun entry _ => recordLine_eq entry)

/-- A cell of a rendering is no cell outside the digits. -/
theorem notMem_decimalCells {c : Cell} (h : ¬(0x30 ≤ c.toNat ∧ c.toNat ≤ 0x39)) (v : Word) : c ∉ decimalCells v :=
  fun hmem => h (digit_of_mem_decimalCells hmem)

theorem symbolToken_newline : symbolToken chNL = [chN, chL] := rfl

theorem symbolToken_of_ne {sym : Cell} (h : sym ≠ chNL) : symbolToken sym = [sym] := if_neg h

/-- A cell of a token outside the newline's token is the symbol itself, which is then not the newline. -/
theorem eq_of_mem_symbolToken {c sym : Cell} (h : c ∈ symbolToken sym) (hc : c ∉ [chN, chL]) :
    c = sym ∧ sym ≠ chNL := by
  by_cases hnl : sym = chNL
  · rw [hnl] at h
    exact absurd h hc
  · rw [symbolToken_of_ne hnl, List.mem_singleton] at h
    exact ⟨h, hnl⟩

theorem newline_notMem_symbolToken (sym : Cell) : chNL ∉ symbolToken sym := by
  intro h
  obtain ⟨heq, hne⟩ := eq_of_mem_symbolToken h (by decide)
  exact hne heq.symm

theorem colon_notMem_symbolToken {sym : Cell} (hsym : sym ≠ chColon) : chColon ∉ symbolToken sym :=
  fun h => hsym (eq_of_mem_symbolToken h (by decide)).1.symm

theorem newline_notMem_recordFields (entry : Cell × Word) : chNL ∉ recordFields entry := by
  rw [recordFields, List.mem_append, List.mem_cons]
  rintro (h | h | h)
  · exact newline_notMem_symbolToken _ h
  · exact absurd h (by decide)
  · exact notMem_decimalCells (by decide) _ h

/-- A written line ends in a digit, so no CH_CR is taken for part of its line end. -/
theorem recordFields_getLast? (entry : Cell × Word) : (recordFields entry).getLast? ≠ some chCR := by
  intro h
  rw [recordFields, List.append_cons, List.getLast?_append_of_ne_nil _ (decimalCells_ne_nil _)] at h
  exact notMem_decimalCells (by decide) _ (List.mem_of_getLast? h)

/-- The token of a symbol stands for it (R174, R186). -/
theorem tokenSymbol_symbolToken (sym : Cell) : tokenSymbol (symbolToken sym) = some sym := by
  by_cases h : sym = chNL
  · rw [h, symbolToken_newline, tokenSymbol_newline]
  · rw [symbolToken_of_ne h, tokenSymbol_singleton]

/-- The rendering of a count stands for it (R175, R176, R186). -/
theorem countValue_decimalCells (v : Word) : countValue (decimalCells v) = some v := by
  have hmax : decimalValue (decimalCells v) ≤ cntMax := by
    rw [decimalValue_decimalCells, cntMax]
    omega
  rw [countValue_of_numeric ⟨decimalCells_ne_nil v, fun _ => digit_of_mem_decimalCells⟩ hmax,
    decimalValue_decimalCells, BitVec.ofNat_toNat, BitVec.setWidth_eq]

/-- A written line is a valid line of its entry (R187). -/
theorem lineVerdict_recordFields {entry : Cell × Word} (h : entry.1 ≠ chColon) :
    lineVerdict (recordFields entry) = .entry entry.1 entry.2 :=
  lineVerdict_of_fields (colon_notMem_symbolToken h) (tokenSymbol_symbolToken _) (countValue_decimalCells _)

/-! ### A written table (R187, R188) -/

/-- The lines of a written table give its entries back, none of them skipped. -/
theorem entries_of_linesAt (table : List (Cell × Word)) (h : chColon ∉ table.map Prod.fst) : ∀ start,
    lineEntries (linesAt start (table.map recordFields)) = table ∧
    linesSkipped (linesAt start (table.map recordFields)) = 0 := by
  induction table with
  | nil => exact fun _ => ⟨rfl, rfl⟩
  | cons entry table ih =>
    intro start
    rw [List.map_cons, List.mem_cons, not_or] at h
    obtain ⟨hentries, hskipped⟩ := ih h.2 (start + (recordFields entry).length + 1)
    have hv := lineVerdict_recordFields (Ne.symm h.1)
    rw [List.map_cons, linesAt, lineEntries_cons, linesSkipped_cons, hentries, hskipped]
    simp [lineEntries, linesSkipped, hv]

section WrittenTable

variable {table : List (Cell × Word)} (hcolon : chColon ∉ table.map Prod.fst)

theorem recordLines_recordText (table : List (Cell × Word)) :
    recordLines (table.map recordLine).flatten = linesAt 0 (table.map recordFields) := by
  rw [recordText_eq_joinLines]
  exact recordLines_joinLines (List.forall_mem_map.2 fun entry _ => newline_notMem_recordFields entry)

include hcolon

theorem recordEntries_recordText : recordEntries (table.map recordLine).flatten = table := by
  rw [recordEntries, recordLines_recordText]
  exact (entries_of_linesAt table hcolon 0).1

theorem recordSkipped_recordText : recordSkipped (table.map recordLine).flatten = 0 := by
  rw [recordSkipped, recordLines_recordText]
  exact (entries_of_linesAt table hcolon 0).2

variable (hn : (table.map Prod.fst).Nodup)

include hn

theorem firstSymbols_recordText :
    firstSymbols (recordEntries (table.map recordLine).flatten) = table.map Prod.fst := by
  rw [recordEntries_recordText hcolon, firstSymbols_of_nodup hn]

/-- What FPARSE makes of the record of a table that lists each symbol once is that table. -/
theorem table_eq_of_recordText {read : List (Cell × Word)}
    (hsyms : read.map Prod.fst = firstSymbols (recordEntries (table.map recordLine).flatten))
    (hfind : ∀ entry ∈ read,
      (recordEntries (table.map recordLine).flatten).reverse.find? (fun x => x.1 == entry.1) = some entry) :
    read = table := by
  rw [firstSymbols_recordText hcolon hn] at hsyms
  rw [recordEntries_recordText hcolon] at hfind
  exact table_eq_of_symbols hn hsyms fun entry h => List.mem_reverse.1 (List.mem_of_find?_eq_some (hfind entry h))

end WrittenTable

/-- Tables that read the same hold the same entries. -/
theorem freqEntry_of_table_eq {s u : State} (h : u.table = s.table) {e : Nat} (he : e < s.fcnt.toNat) :
    u.freqEntry e = s.freqEntry e := by
  have hfcnt : u.fcnt.toNat = s.fcnt.toNat := by rw [← table_length, h, table_length]
  simpa [State.table, hfcnt, he] using congrArg (·[e]?) h

/-- Settles O41: FSER commits the record of the table (`fserShadow_of_fits`), and what FPARSE makes of that record is
the table (`table_eq_of_recordText`). -/
theorem tableRoundTrip : Obligations.TableRoundTrip := by
  unfold Obligations.TableRoundTrip
  intro s t hc hone hfcnt hn hcolon hnout hnin hser
  rw [← recordText_length] at hnout hnin
  have hshadow := fserShadow_of_fits hfcnt hnout
  have hlt := outputShadow_lt hc (i := .fser) (by decide) hshadow
  rw [exec_fser_eq, hshadow, finishOutput_ok] at hser
  cases hser
  have hinput := movedOut_commitOutput_input hlt s
  obtain ⟨u, hu, hdone, hsyms, hfind, hufcnt, huwarn, -⟩ := fparseBuildsTable
    (commitOutput (s.table.map recordLine).flatten s).movedOut hc ((movedOut_commitOutput_ilen hlt s).trans_le hnin)
    (by
      rw [hinput, recordEntries_recordText hcolon, ← List.length_pos_iff, table_length]
      exact hone)
    (by
      rw [hinput, firstSymbols_recordText hcolon hn, List.length_map, table_length]
      exact hfcnt)
  rw [hinput] at hsyms hfind hufcnt huwarn
  rw [firstSymbols_recordText hcolon hn, List.length_map, table_length] at hufcnt
  rw [recordSkipped_recordText hcolon] at huwarn
  have htable := table_eq_of_recordText hcolon hn hsyms hfind
  exact ⟨commitOutput_err _ s, u, hu, hdone, BitVec.eq_of_toNat_eq huwarn, BitVec.eq_of_toNat_eq hufcnt,
    fun e he => freqEntry_of_table_eq htable he⟩

/-! ### The frequency-table file (R220) -/

theorem completed_err {t : State} (h : t.Completed) : t.err = 0#8 := by
  rw [State.err, h.1]
  rfl

/-- A table that fits FREQ and whose text fits OUT is written as its record. -/
theorem exists_writeTableFile {s : State} (hc : s.cfg.Valid) (table : List (Cell × Nat))
    (hl : table.length ≤ s.cfg.nfreq)
    (hfit : (((table.map fun entry => (entry.1, BitVec.ofNat 32 entry.2)).map recordLine).flatten).length ≤
      s.cfg.nout) :
    ∃ t, writeTableFile table s =
      some (((table.map fun entry => (entry.1, BitVec.ofNat 32 entry.2)).map recordLine).flatten, t) := by
  obtain ⟨u, hload, hcfg, hfcnt, htable⟩ := performAll_loadTable hc table hl
  rw [← htable, ← hcfg] at hfit
  obtain ⟨t, ht, hdone, holen, houtput, -, htcfg, -⟩ :=
    exec_fser_of_fits (s := { u with cmd := encode .fser, response := some .okWrite }) (hcfg ▸ hc)
      (hfcnt.trans_le (hcfg ▸ hl)) hfit
  have hread : readOutput t = some t.output :=
    readOutput_eq ((htcfg.trans hcfg) ▸ hc) (by rw [holen, htcfg]; exact hfit)
  refine ⟨t, ?_⟩
  rw [writeTableFile, runChecked_cmd hload ht (completed_err hdone), Option.bind_some, hread, houtput, ← htable]
  rfl

/-- A file whose record fits IN, has a valid line and whose distinct symbols fit FREQ is read as its entries. -/
theorem exists_readTableFile {s : State} {file : List Cell} (hc : s.cfg.Valid)
    (hin : (dropLineEndCR file).length ≤ s.cfg.nin) (hne : recordEntries (dropLineEndCR file) ≠ [])
    (hfit : (firstSymbols (recordEntries (dropLineEndCR file))).length ≤ s.cfg.nfreq) :
    ∃ reading t, readTableFile file s = some (reading, t) ∧
      reading.fcnt.toNat = reading.table.length ∧ reading.warn.toNat = recordSkipped (dropLineEndCR file) ∧
      reading.table.map Prod.fst = firstSymbols (recordEntries (dropLineEndCR file)) ∧
      ∀ entry ∈ reading.table,
        (recordEntries (dropLineEndCR file)).reverse.find? (fun x => x.1 == entry.1) = some entry := by
  obtain ⟨u, hload, hcfg, hilen, hinput⟩ := performAll_loadInput hc _ hin
  rw [← hinput] at hne hfit ⊢
  obtain ⟨t, ht, hdone, hsyms, hfind, hfcnt, hwarn, -, htcfg, -⟩ := fparseBuildsTable
    { u with cmd := encode .fparse, response := some .okWrite } (hcfg ▸ hc) (hilen.trans_le (hcfg ▸ hin)) hne
    (hcfg ▸ hfit)
  have hread : readTable t = some { fcnt := t.fcnt, warn := t.warn, table := t.table } :=
    readTable_eq ((htcfg.trans hcfg) ▸ hc) (by rw [hfcnt, htcfg.trans hcfg]; exact hfit)
  refine ⟨{ fcnt := t.fcnt, warn := t.warn, table := t.table }, t, ?_, (table_length t).symm, hwarn, hsyms, hfind⟩
  rw [readTableFile, runChecked_cmd hload ht (completed_err hdone), Option.bind_some, hread]
  rfl

/-- Lines that neither hold a newline nor end in CH_CR, each ended in a way that is presented as a newline, are
presented with CH_NL alone between them. -/
theorem dropLineEndCR_lines {ending : List Cell}
    (hending : ∀ l rest, chNL ∉ l → l.getLast? ≠ some chCR →
      dropLineEndCR (l ++ ending ++ rest) = l ++ chNL :: dropLineEndCR rest)
    {lines : List (List Cell)} (h : ∀ l ∈ lines, chNL ∉ l ∧ l.getLast? ≠ some chCR) :
    dropLineEndCR (lines.map (· ++ ending)).flatten = joinLines lines := by
  induction lines with
  | nil => rfl
  | cons l lines ih =>
    obtain ⟨hnl, hcr⟩ := h l List.mem_cons_self
    rw [List.map_cons, List.flatten_cons, hending l _ hnl hcr, ih fun m hm => h m (List.mem_cons_of_mem l hm),
      joinLines_cons]

/-- A file with CR LF line ends is presented as the same lines with CH_NL. -/
theorem dropLineEndCR_crlfLines {lines : List (List Cell)} (h : ∀ l ∈ lines, chNL ∉ l ∧ l.getLast? ≠ some chCR) :
    dropLineEndCR (lines.map (· ++ [chCR, chNL])).flatten = joinLines lines :=
  dropLineEndCR_lines (fun l rest hnl hcr => by simpa using dropLineEndCR_crlf l rest hnl hcr) h

/-- A record FSER writes is presented as it stands. -/
theorem dropLineEndCR_recordText (table : List (Cell × Word)) :
    dropLineEndCR (table.map recordLine).flatten = (table.map recordLine).flatten := by
  rw [recordText_eq_joinLines]
  exact dropLineEndCR_lines (fun l rest hnl hcr => by simpa using dropLineEndCR_line l rest hnl hcr)
    (List.forall_mem_map.2 fun entry _ => ⟨newline_notMem_recordFields entry, recordFields_getLast? entry⟩)

/-- The record of a table that lists each symbol once, none of them the colon, is read back as that table. -/
theorem exists_readTableFile_recordText {s : State} {table : List (Cell × Word)} (hc : s.cfg.Valid) (hne : table ≠ [])
    (hcolon : chColon ∉ table.map Prod.fst) (hn : (table.map Prod.fst).Nodup) (hl : table.length ≤ s.cfg.nfreq)
    (hin : ((table.map recordLine).flatten).length ≤ s.cfg.nin) :
    ∃ reading t, readTableFile (table.map recordLine).flatten s = some (reading, t) ∧
      reading.fcnt.toNat = table.length ∧ reading.warn = 0#32 ∧ reading.table = table := by
  have hdrop := dropLineEndCR_recordText table
  obtain ⟨reading, t, hread, hfcnt, hwarn, hsyms, hfind⟩ := exists_readTableFile hc
    (file := (table.map recordLine).flatten) (by rwa [hdrop])
    (by rwa [hdrop, recordEntries_recordText hcolon])
    (by rwa [hdrop, firstSymbols_recordText hcolon hn, List.length_map])
  rw [hdrop] at hwarn hsyms hfind
  rw [recordSkipped_recordText hcolon] at hwarn
  have htable := table_eq_of_recordText hcolon hn hsyms hfind
  exact ⟨reading, t, hread, htable ▸ hfcnt, BitVec.eq_of_toNat_eq hwarn, htable⟩

/-- Settles O60: the file written is the record of the table (`exists_writeTableFile`), which reads back as the table
(`exists_readTableFile_recordText`); any file is read as its entries (`exists_readTableFile`), and one with CR LF line
ends is presented as the same lines (`dropLineEndCR_crlfLines`). -/
theorem tableFileReadsBack : Obligations.TableFileReadsBack := by
  unfold Obligations.TableFileReadsBack
  refine ⟨?_, fun s file hc => exists_readTableFile hc, fun lines => dropLineEndCR_crlfLines⟩
  intro s u table hs hu hone hls hlu hmax hn hcolon entries file hnout hnin
  have hsyms : entries.map Prod.fst = table.map Prod.fst := by rw [List.map_map]; rfl
  have hlen : entries.length = table.length := List.length_map _
  obtain ⟨t, hwrite⟩ := exists_writeTableFile hs table hls hnout
  obtain ⟨reading, v, hread, hfcnt, hwarn, htable⟩ := exists_readTableFile_recordText (table := entries) hu
    (List.ne_nil_of_length_pos (by omega)) (hsyms ▸ hcolon) (hsyms ▸ hn) (by omega) hnin
  refine ⟨reading, t, v, hwrite, hread, hfcnt.trans hlen, hwarn, ?_⟩
  rw [htable, List.map_map]
  refine (List.map_congr_left fun entry hmem => ?_).trans (List.map_id table)
  exact Prod.ext rfl (toNat_ofNat_of_le (hmax entry hmem) (by decide))

end Sys2Proof.Machine
end

section
/-! PROOFS. NOP and the illegal command word (44_system R200, R201): what each leaves, written out field by field, and
the step on the CMD write that runs it. -/

namespace Sys2Proof.Machine

open Sys2Proof

/-! ### The illegal command word (R201) -/

/-- The write of an illegal word to CMD is the illegal command on the state with the word and the answer stored. -/
theorem perform_writeCmd_of_error {w : Word} {e : DecodeError} (h : decodeWord w = .error e) (s : State) :
    perform (.write 0 4 w) s = .next (illegalCommand { s with cmd := w, response := some .okWrite }) :=
  (perform_write_of_locate_cmd (locate_cmd s.cfg) w).trans (startCommand_of_error h _)

/-- The fault entry of an illegal word zeroes no length register (R240). -/
theorem illegalCommand_eq (s : State) : illegalCommand s = { s with status := 0x108#32, errpos := 0#32 } := by
  rw [← status_illegalCommand]
  rfl

/-- Settles O5: the decoder rejects the word (`decodeWord_error_iff`), so its write is the illegal command
(`perform_writeCmd_of_error`), which records ERR 8 and position 0 (`illegalCommand_eq`). -/
theorem illegalWordEffect : Obligations.IllegalWordEffect := by
  unfold Obligations.IllegalWordEffect
  intro s w rest hpending hillegal
  obtain ⟨e, he⟩ := decodeWord_error_iff.2 hillegal
  rw [step_of_pending hpending, perform_writeCmd_of_error he, illegalCommand_eq]

/-! ### NOP (R200) -/

theorem status_completed : statusWord 0#8 = 0x100#32 := by decide

/-- Completing writes STATUS and ERRPOS alone (R241). -/
theorem complete_eq (s : State) : complete s = { s with status := 0x100#32, errpos := 0#32 } := by
  rw [← status_completed]
  rfl

/-- NOP completes in every state and does nothing else. -/
theorem exec_nop_eq (s : State) : exec .nop s = .next { s with status := 0x100#32, errpos := 0#32 } :=
  congrArg Host.Outcome.next (complete_eq s)

/-- Settles O14: NOP only completes (`exec_nop_eq`), and the write of the word 0 runs it (`perform_writeCmd`). -/
theorem nopClearsStatus : Obligations.NopClearsStatus := by
  unfold Obligations.NopClearsStatus
  refine ⟨exec_nop_eq, fun s rest hpending => ?_⟩
  have hnop : decodeWord 0#32 = .ok .nop := decodeWord_encode .nop
  rw [step_of_pending hpending, perform_writeCmd hnop, exec_nop_eq]

end Sys2Proof.Machine
end

section
/-! PROOFS. No code of a tree begins another (45_host R217): the codes below two children of a node begin with
different paths of one length. -/

namespace Sys2Proof.Machine

open Sys2Proof

/-- What begins with one of two different paths of one length is no beginning of what begins with the other. -/
theorem not_prefix_of_ne_of_prefix {p q x y : List Bit} (hlen : p.length = q.length) (hne : p ≠ q) (hx : p <+: x)
    (hy : q <+: y) : ¬x <+: y :=
  fun h => hne ((List.prefix_of_prefix_length_le (hx.trans h) hy hlen.le).eq_of_length hlen)

/-- Neither code is a beginning of the other. -/
def CodesApart (x y : Cell × List Bit) : Prop := ¬x.2 <+: y.2 ∧ ¬y.2 <+: x.2

/-- A code behind a left turn and one behind a right turn at the same node (R214). -/
theorem codesApart_of_children {path : List Bit} {x y : Cell × List Bit} (hx : path ++ [0#1] <+: x.2)
    (hy : path ++ [1#1] <+: y.2) : CodesApart x y :=
  ⟨not_prefix_of_ne_of_prefix (by simp) (by simp) hx hy, not_prefix_of_ne_of_prefix (by simp) (by simp) hy hx⟩

/-- The code of a leaf below a node begins with the node's path (R214). -/
theorem prefix_of_mem_paths {t : HTree} {x : Cell × List Bit} : ∀ {path : List Bit}, x ∈ t.paths path →
    path <+: x.2 := by
  induction t with
  | leaf i sym f =>
    intro path h
    rw [List.mem_singleton.1 h]
  | node i f l r ihl ihr =>
    intro path h
    rcases List.mem_append.1 h with hl | hr
    · exact (List.prefix_append path _).trans (ihl hl)
    · exact (List.prefix_append path _).trans (ihr hr)

theorem paths_pairwise_codesApart (t : HTree) : ∀ path : List Bit, (t.paths path).Pairwise CodesApart := by
  induction t with
  | leaf i sym f => exact fun path => List.pairwise_singleton _ _
  | node i f l r ihl ihr =>
    exact fun path => List.pairwise_append.2 ⟨ihl _, ihr _, fun x hx y hy =>
      codesApart_of_children (prefix_of_mem_paths hx) (prefix_of_mem_paths hy)⟩

theorem codes_pairwise_codesApart (t : HTree) : t.codes.Pairwise CodesApart := by
  cases t with
  | leaf i sym f => exact List.pairwise_singleton _ _
  | node i f l r => exact paths_pairwise_codesApart _ []

/-- Settles O53: any two positions of the table hold codes apart (`codes_pairwise_codesApart`), in either order. -/
theorem codesArePrefixFree : Obligations.CodesArePrefixFree := by
  unfold Obligations.CodesArePrefixFree
  intro tree a b x y hx hy hne
  obtain ⟨ha, rfl⟩ := List.getElem?_eq_some_iff.1 hx
  obtain ⟨hb, rfl⟩ := List.getElem?_eq_some_iff.1 hy
  have apart := List.pairwise_iff_getElem.1 (codes_pairwise_codesApart tree)
  rcases Nat.lt_or_gt_of_ne hne with hlt | hgt
  · exact (apart a b ha hb hlt).1
  · exact (apart b a hb ha hgt).2

end Sys2Proof.Machine
end

section
/-! PROOFS. The frequency counter and the reference builder (45_host R210 to R213, R218): a round of the builder keeps
the leaves of its nodes, and that every internal node's frequency is the sum of its children's. -/

namespace Sys2Proof.Machine

open Sys2Proof

/-! ### Counting (R210) -/

theorem sum_countOne (c : Cell) (table : List (Cell × Nat)) :
    ((countOne c table).map Prod.snd).sum = (table.map Prod.snd).sum + 1 := by
  induction table with
  | nil => rfl
  | cons entry table ih =>
    obtain ⟨x, n⟩ := entry
    rw [countOne]
    split
    · simp only [List.map_cons, List.sum_cons]
      omega
    · simp only [List.map_cons, List.sum_cons, ih]
      omega

theorem mem_countOne {c d : Cell} {table : List (Cell × Nat)} :
    d ∈ (countOne c table).map Prod.fst ↔ d ∈ table.map Prod.fst ∨ d = c := by
  induction table with
  | nil => simp [countOne]
  | cons entry table ih =>
    obtain ⟨x, n⟩ := entry
    rw [countOne]
    split
    case isTrue hx =>
      subst hx
      simp only [List.map_cons, List.mem_cons]
      tauto
    case isFalse => simp only [List.map_cons, List.mem_cons, ih, or_assoc]

theorem countText_concat (text : List Cell) (c : Cell) : countText (text ++ [c]) = countOne c (countText text) :=
  List.foldl_concat ..

/-- The counts of a text add up to its length. -/
theorem sum_countText (text : List Cell) : ((countText text).map Prod.snd).sum = text.length := by
  induction text using List.reverseRecOn with
  | nil => rfl
  | append_singleton text c ih => rw [countText_concat, sum_countOne, ih, List.length_append, List.length_singleton]

/-- The table of a text lists the characters of the text and no others. -/
theorem mem_countText {text : List Cell} {c : Cell} : c ∈ (countText text).map Prod.fst ↔ c ∈ text := by
  induction text using List.reverseRecOn with
  | nil => rfl
  | append_singleton text d ih => rw [countText_concat, mem_countOne, ih, List.mem_append, List.mem_singleton]

/-! ### Building (R211 to R213) -/

theorem tableLeaves_flatMap_leaves (table : List (Cell × Nat)) : ∀ e : Nat,
    (tableLeaves e table).flatMap HTree.leaves = table := by
  induction table with
  | nil => exact fun e => rfl
  | cons entry table ih => exact fun e => congrArg (entry :: ·) (ih (e + 1))

theorem tableLeaves_length (table : List (Cell × Nat)) : ∀ e : Nat, (tableLeaves e table).length = table.length := by
  induction table with
  | nil => exact fun e => rfl
  | cons entry table ih => exact fun e => congrArg (· + 1) (ih (e + 1))

theorem conserves_of_mem_tableLeaves {t : HTree} {table : List (Cell × Nat)} : ∀ {e : Nat},
    t ∈ tableLeaves e table → t.Conserves := by
  induction table with
  | nil => exact fun h => absurd h List.not_mem_nil
  | cons entry table ih =>
    intro e h
    rcases List.mem_cons.1 h with rfl | h
    · trivial
    · exact ih h

/-- The builder's ordered collection holds the nodes put into it. -/
theorem foldr_insertNode_perm (nodes : List HTree) : (nodes.foldr insertNode []).Perm nodes := by
  induction nodes with
  | nil => exact .refl _
  | cons t nodes ih => exact (insertNode_perm t _).trans (ih.cons t)

/-- Enough rounds join any non-empty collection to one tree with the same leaves (R211). -/
theorem exists_mergeNodes (fuel : Nat) : ∀ (seq : Nat) (nodes : List HTree), nodes ≠ [] → nodes.length ≤ fuel + 1 →
    (∀ t ∈ nodes, t.Conserves) →
    ∃ tree, mergeNodes fuel seq nodes = some tree ∧ tree.Conserves ∧
      tree.leaves.Perm (nodes.flatMap HTree.leaves) := by
  induction fuel with
  | zero =>
    intro seq nodes hne hlen hcons
    obtain ⟨t, rfl⟩ := List.length_eq_one_iff.1 (le_antisymm hlen (List.length_pos_iff.2 hne))
    exact ⟨t, rfl, hcons t List.mem_cons_self, by simp⟩
  | succ fuel ih =>
    intro seq nodes hne hlen hcons
    match nodes with
    | [] => exact absurd rfl hne
    | [t] => exact ⟨t, rfl, hcons t List.mem_cons_self, by simp⟩
    | a :: b :: rest =>
      simp only [List.mem_cons, forall_eq_or_imp] at hcons
      obtain ⟨ha, hb, hrest⟩ := hcons
      have hperm := insertNode_perm (.node seq (a.freq + b.freq) a b) rest
      have hjoined : ∀ t ∈ insertNode (.node seq (a.freq + b.freq) a b) rest, t.Conserves := by
        intro t ht
        rcases List.mem_cons.1 (hperm.mem_iff.1 ht) with rfl | ht
        · exact ⟨rfl, ha, hb⟩
        · exact hrest t ht
      obtain ⟨tree, htree, hconserves, hleaves⟩ := ih (seq + 1) _ (List.ne_nil_of_length_pos (by simp [hperm.length_eq]))
        (by simpa [hperm.length_eq] using hlen) hjoined
      refine ⟨tree, htree, hconserves, hleaves.trans ((hperm.flatMap_right _).trans ?_)⟩
      simp [HTree.leaves]

/-- R211, R218: the builder makes a tree of every non-empty table. -/
theorem exists_buildTree {table : List (Cell × Nat)} (h : table ≠ []) : ∃ tree, buildTree table = .ok tree ∧
    tree.leaves.Perm table ∧ tree.Conserves := by
  have hperm := foldr_insertNode_perm (tableLeaves 0 table)
  have hlen := hperm.length_eq.trans (tableLeaves_length table 0)
  obtain ⟨tree, htree, hconserves, hleaves⟩ := exists_mergeNodes table.length table.length _
    (List.ne_nil_of_length_pos (hlen ▸ List.length_pos_iff.2 h)) (hlen.trans_le (Nat.le_succ _))
    (fun t ht => conserves_of_mem_tableLeaves (hperm.mem_iff.1 ht))
  refine ⟨tree, by simp only [buildTree, htree], ?_, hconserves⟩
  exact hleaves.trans ((hperm.flatMap_right _).trans (.of_eq (tableLeaves_flatMap_leaves table 0)))

/-- Settles O54: the tree is that of `exists_buildTree`, its frequency the sum of its leaves' (`freq_leaves`); the
counts of a text by `sum_countText` and `mem_countText`. -/
theorem builderConservesFrequency : Obligations.BuilderConservesFrequency := by
  unfold Obligations.BuilderConservesFrequency
  refine ⟨fun table h => ?_, fun _ _ => rfl, fun text => ⟨sum_countText text, fun c => mem_countText.symm⟩, rfl⟩
  obtain ⟨tree, htree, hleaves, hconserves⟩ := exists_buildTree h
  exact ⟨tree, htree, hleaves, hconserves, (freq_leaves hconserves).trans (hleaves.map Prod.snd).sum_eq⟩

end Sys2Proof.Machine
end

section
/-! PROOFS. Loading a tree (30_encoding R109 `node`; 45_host R216): the records of a subtree are written one by one,
and the records written after it are others. -/

namespace Sys2Proof.Machine

open Sys2Proof

/-- `node` (R109) writes one record of TREE and leaves the others. -/
theorem performAll_nodeScript {s : State} (hc : s.cfg.Valid) {n : Nat} (hn : n < s.cfg.nnode)
    (left right sym leaf : Word) :
    ∃ t, performAll (nodeScript n left right sym leaf) s = .next t ∧ t.cfg = s.cfg ∧
      ∀ j, t.node j = if j = n then ⟨left, right, sym.setWidth symw, leaf.setWidth 1⟩ else s.node j := by
  obtain ⟨s₁, h₁, hs₁, hcfg₁, -⟩ := perform_wrElem_next hc (f := .treeLeft) (k := n) hn left
  obtain ⟨s₂, h₂, hs₂, hcfg₂, -⟩ := perform_wrElem_next (s := s₁) (hcfg₁ ▸ hc) (f := .treeRight) (k := n)
    (hcfg₁ ▸ hn) right
  rw [hcfg₁] at hcfg₂
  obtain ⟨s₃, h₃, hs₃, hcfg₃, -⟩ := perform_wrElem_next (s := s₂) (hcfg₂ ▸ hc) (f := .treeSym) (k := n)
    (hcfg₂ ▸ hn) sym
  rw [hcfg₂] at hcfg₃
  obtain ⟨t, h₄, ht, hcfg, -⟩ := perform_wrElem_next (s := s₃) (hcfg₃ ▸ hc) (f := .treeLeaf) (k := n)
    (hcfg₃ ▸ hn) leaf
  refine ⟨t, ?_, hcfg.trans hcfg₃, fun j => ?_⟩
  · rw [nodeScript, performAll_cons_next h₁, performAll_cons_next h₂, performAll_cons_next h₃,
      performAll_cons_next h₄]
    rfl
  · rw [ht, node_setLeaf, hs₃, node_setSym, hs₂, node_setRight, hs₁, node_setLeft]
    by_cases hj : j = n <;> simp [hj]

/-- A record index fits the 32 bits of LEFT, RIGHT and ROOT (R6, R40). -/
theorem toNat_ofNat_of_lt_nnode {c : Config} (hc : c.Valid) {k : Nat} (hk : k < c.nnode) :
    (BitVec.ofNat 32 k).toNat = k := by
  obtain ⟨-, -, -, -, -, ⟨-, hmax⟩, -⟩ := hc
  exact toNat_ofNat_of_le hk.le (by omega)

theorem index_mem_treeIndices (t : HTree) : t.index ∈ treeIndices t := by
  cases t <;> simp [HTree.index, treeIndices]

/-- A tree stays held where its own records stay. -/
theorem held_of_node_eq {s u : State} (hcfg : u.cfg = s.cfg) {tree : HTree}
    (hnode : ∀ n ∈ treeIndices tree, u.node n = s.node n) (h : tree.held s) : tree.held u := by
  induction tree with
  | leaf i sym f =>
    have hi := hnode i List.mem_cons_self
    simpa only [HTree.held, hcfg, hi] using h
  | node i f l r ihl ihr =>
    simp only [treeIndices, List.mem_append, List.mem_singleton] at hnode
    obtain ⟨hlt, hleft, hright, hl, hr⟩ := h
    rw [HTree.held, hcfg, hnode i (.inr rfl)]
    exact ⟨hlt, hleft, hright, ihl (fun n hn => hnode n (.inl (.inl hn))) hl,
      ihr (fun n hn => hnode n (.inl (.inr hn))) hr⟩

/-- The records of a tree at distinct places of TREE, loaded: the tree is held and no other record changed. -/
theorem performAll_loadNodes (tree : HTree) : ∀ {s : State}, s.cfg.Valid → (treeIndices tree).Nodup →
    (∀ i ∈ treeIndices tree, i < s.cfg.nnode) →
    ∃ t, performAll tree.loadNodes s = .next t ∧ t.cfg = s.cfg ∧ tree.held t ∧
      ∀ j ∉ treeIndices tree, t.node j = s.node j := by
  induction tree with
  | leaf i sym f =>
    intro s hc _ hlt
    have hi := hlt i List.mem_cons_self
    obtain ⟨t, ht, hcfg, hnode⟩ := performAll_nodeScript hc hi null null (sym.setWidth 32) 1#32
    refine ⟨t, ht, hcfg, ?_, fun j hj => ?_⟩
    · rw [HTree.held, hcfg, hnode, if_pos rfl]
      exact ⟨hi, rfl, rfl, setWidth_cell sym, rfl⟩
    · rw [hnode, if_neg (by simpa [treeIndices] using hj)]
  | node i f l r ihl ihr =>
    intro s hc hnodup hlt
    simp only [treeIndices, List.nodup_append', List.disjoint_singleton, List.mem_append, not_or] at hnodup
    obtain ⟨⟨hl, hr, hlr⟩, -, hil, hir⟩ := hnodup
    simp only [treeIndices, List.mem_append, List.mem_singleton] at hlt
    obtain ⟨t₁, ht₁, hcfg₁, hheld₁, hnode₁⟩ := ihl hc hl fun n hn => hlt n (.inl (.inl hn))
    obtain ⟨t₂, ht₂, hcfg₂, hheld₂, hnode₂⟩ := ihr (hcfg₁ ▸ hc) hr fun n hn => hcfg₁ ▸ hlt n (.inl (.inr hn))
    rw [hcfg₁] at hcfg₂
    obtain ⟨t, ht, hcfg, hnode⟩ := performAll_nodeScript (s := t₂) (n := i) (hcfg₂ ▸ hc) (hcfg₂ ▸ hlt i (.inr rfl))
      (BitVec.ofNat 32 l.index) (BitVec.ofNat 32 r.index) 0#32 0#32
    refine ⟨t, ?_, hcfg.trans hcfg₂, ⟨?_, ?_, ?_, ?_, ?_⟩, fun j hj => ?_⟩
    · rw [HTree.loadNodes, List.append_assoc, performAll_append_next ht₁, performAll_append_next ht₂, ht]
    · rw [hcfg, hcfg₂]
      exact hlt i (.inr rfl)
    · rw [hnode, if_pos rfl]
      exact toNat_ofNat_of_lt_nnode hc (hlt _ (.inl (.inl (index_mem_treeIndices l))))
    · rw [hnode, if_pos rfl]
      exact toNat_ofNat_of_lt_nnode hc (hlt _ (.inl (.inr (index_mem_treeIndices r))))
    · refine held_of_node_eq (hcfg.trans (hcfg₂.trans hcfg₁.symm)) (fun n hn => ?_) hheld₁
      rw [hnode, if_neg (ne_of_mem_of_not_mem hn hil), hnode₂ n (hlr hn)]
    · refine held_of_node_eq hcfg (fun n hn => ?_) hheld₂
      rw [hnode, if_neg (ne_of_mem_of_not_mem hn hir)]
    · simp only [treeIndices, List.mem_append, List.mem_singleton, not_or] at hj
      obtain ⟨⟨hjl, hjr⟩, hji⟩ := hj
      rw [hnode, if_neg hji, hnode₂ j hjr, hnode₁ j hjl]

/-- Settles O55: the records by `performAll_loadNodes`; the write of ROOT changes none of them. -/
theorem loadTreeLoadsTree : Obligations.LoadTreeLoadsTree := by
  unfold Obligations.LoadTreeLoadsTree
  intro s tree hc hnodup hlt
  obtain ⟨t, ht, hcfg, hheld, -⟩ := performAll_loadNodes tree hc hnodup hlt
  have hroot := performAll_cons_next (events := []) (perform_wrReg t (r := .root) (by decide) (.ofNat 32 tree.index))
  refine ⟨_, (performAll_append_next ht).trans hroot, ?_, ?_, hcfg⟩
  · refine held_congr (s := t) ?_ (fun _ => ?_) hheld <;> rfl
  · exact toNat_ofNat_of_lt_nnode hc (hlt _ (index_mem_treeIndices tree))

end Sys2Proof.Machine
end

section
/-! PROOFS. Loading a code table (30_encoding R109 `code`; 45_host R215): the entries are written one by one, each with
its digits behind those of the entries before it. -/

namespace Sys2Proof.Machine

open Sys2Proof

/-! ### One entry and its digits (R109) -/

/-- A store to another array leaves the digits. -/
theorem digit_setElement_of_ne {f : Field} (hf : f ≠ .cdig) (s : State) (k : Nat) (v : Word) (r : PortResponse)
    (d : Nat) : ((s.setElement f k v).respond r).digit d = s.digit d := by
  cases f
  case cdig => exact absurd rfl hf
  all_goals rfl

/-- `code` (R109) writes one entry of CODE and leaves the others and CDIG. -/
theorem performAll_codeScript {s : State} (hc : s.cfg.Valid) {n : Nat} (hn : n < s.cfg.ncode) (sym len base : Word) :
    ∃ t, performAll (codeScript n sym len base) s = .next t ∧ t.cfg = s.cfg ∧ (∀ d, t.digit d = s.digit d) ∧
      ∀ j, t.codeEntry j = if j = n then ⟨sym.setWidth symw, len, base⟩ else s.codeEntry j := by
  obtain ⟨s₁, h₁, hs₁, hcfg₁, -⟩ := perform_wrElem_next hc (f := .codeSym) (k := n) hn sym
  obtain ⟨s₂, h₂, hs₂, hcfg₂, -⟩ := perform_wrElem_next (s := s₁) (hcfg₁ ▸ hc) (f := .codeLen) (k := n)
    (hcfg₁ ▸ hn) len
  rw [hcfg₁] at hcfg₂
  obtain ⟨t, h₃, ht, hcfg, -⟩ := perform_wrElem_next (s := s₂) (hcfg₂ ▸ hc) (f := .codeBase) (k := n)
    (hcfg₂ ▸ hn) base
  refine ⟨t, ?_, hcfg.trans hcfg₂, fun d => ?_, fun j => ?_⟩
  · rw [codeScript, performAll_cons_next h₁, performAll_cons_next h₂, performAll_cons_next h₃]
    rfl
  · rw [ht, digit_setElement_of_ne (by decide), hs₂, digit_setElement_of_ne (by decide), hs₁,
      digit_setElement_of_ne (by decide)]
  · rw [ht, codeEntry_setBase, hs₂, codeEntry_setLen, hs₁, codeEntry_setSym]
    by_cases hj : j = n <;> simp [hj]

theorem digit_setDigit (s : State) (k j : Nat) (d : Bit) (r : PortResponse) :
    ((s.setElement .cdig k (d.setWidth 32)).respond r).digit j = if j = k then d else s.digit j := by
  have hd : (d.setWidth 32).setWidth 1 = d := by
    rw [BitVec.setWidth_setWidth_of_le _ (by decide), BitVec.setWidth_eq]
  exact (Memory.read_write ..).trans (by rw [hd]; rfl)

/-- Digits written to CDIG from `base` on: those before `base` stay, and no entry of CODE changes. -/
theorem performAll_ldDigits (digits : List Bit) : ∀ {s : State} (base : Nat), s.cfg.Valid →
    base + digits.length ≤ s.cfg.ncdig →
    ∃ t, performAll (ldcellsFrom .cdig base (digits.map fun d => d.setWidth 32)) s = .next t ∧ t.cfg = s.cfg ∧
      (∀ j, t.codeEntry j = s.codeEntry j) ∧ (∀ d < base, t.digit d = s.digit d) ∧
      (List.range digits.length).map (fun k => t.digit (base + k)) = digits := by
  induction digits with
  | nil => exact fun {s} base _ _ => ⟨s, rfl, rfl, fun _ => rfl, fun _ _ => rfl, rfl⟩
  | cons d digits ih =>
    intro s base hc hfit
    rw [List.length_cons] at hfit
    have hfirst := perform_wrElem hc (f := .cdig) (k := base) (show base < s.cfg.ncdig by omega) (d.setWidth 32)
    obtain ⟨t, ht, hcfg, hentry, hbefore, hdigits⟩ :=
      ih (s := (s.setElement .cdig base (d.setWidth 32)).respond .okWrite) (base + 1) hc
        (show base + 1 + digits.length ≤ s.cfg.ncdig by omega)
    refine ⟨t, (performAll_cons_next hfirst).trans ht, hcfg, hentry, fun k hk => ?_, ?_⟩
    · rw [hbefore k (by omega), digit_setDigit, if_neg (by omega)]
    · rw [List.length_cons, List.range_succ_eq_map, List.map_cons, List.map_map, Nat.add_zero,
        hbefore base (by omega), digit_setDigit, if_pos rfl]
      refine congrArg (d :: ·) (Eq.trans (List.map_congr_left fun k _ => ?_) hdigits)
      rw [Function.comp_apply, Nat.add_right_comm, Nat.add_assoc]

/-! ### The table (R215) -/

/-- Entry `j` of CODE is the code `entry`, with its digits in CDIG below `top`. -/
structure State.HoldsCode (s : State) (j : Nat) (entry : Cell × List Bit) (top : Nat) : Prop where
  sym : (s.codeEntry j).sym = entry.1
  digits : s.codeDigits j = entry.2
  inside : (s.codeEntry j).base.toNat + (s.codeEntry j).len.toNat ≤ top

/-- An entry held stays held where the entry and the digits below its `top` stay. -/
theorem State.HoldsCode.congr {s t : State} {j top : Nat} {entry : Cell × List Bit} (h : s.HoldsCode j entry top)
    (hentry : t.codeEntry j = s.codeEntry j) (hdigit : ∀ d < top, t.digit d = s.digit d) :
    t.HoldsCode j entry top := by
  obtain ⟨hsym, hdigits, hinside⟩ := h
  refine ⟨hentry ▸ hsym, hdigits ▸ ?_, hentry ▸ hinside⟩
  rw [State.codeDigits, State.codeDigits, hentry]
  exact List.map_congr_left fun k hk => hdigit _ (by have := List.mem_range.1 hk; omega)

theorem State.HoldsCode.mono {s : State} {j top top' : Nat} {entry : Cell × List Bit} (h : s.HoldsCode j entry top)
    (htop : top ≤ top') : s.HoldsCode j entry top' :=
  ⟨h.sym, h.digits, h.inside.trans htop⟩

/-- An entry that holds a non-empty code is no unused one (R38). -/
theorem State.HoldsCode.len_ne_zero {s : State} {j top : Nat} {entry : Cell × List Bit} (h : s.HoldsCode j entry top)
    (hne : entry.2 ≠ []) : (s.codeEntry j).len ≠ 0#32 := by
  intro h0
  have hlen := codeDigits_length s j
  rw [h.digits, h0] at hlen
  exact hne (List.length_eq_zero_iff.1 hlen)

/-- One code that fits, loaded at entry `n` with its digits from `base` on. -/
theorem performAll_loadCode {s : State} (hc : s.cfg.Valid) {n base : Nat} (hn : n < s.cfg.ncode)
    (entry : Cell × List Bit) (hfit : base + entry.2.length ≤ s.cfg.ncdig) :
    ∃ t, performAll (codeScript n (entry.1.setWidth 32) (BitVec.ofNat 32 entry.2.length) (BitVec.ofNat 32 base) ++
        ldcellsFrom .cdig base (entry.2.map fun d => d.setWidth 32)) s = .next t ∧ t.cfg = s.cfg ∧
      (∀ j ≠ n, t.codeEntry j = s.codeEntry j) ∧ (∀ d < base, t.digit d = s.digit d) ∧
      t.HoldsCode n entry (base + entry.2.length) := by
  obtain ⟨u, hu, hcfgu, hdigitu, hentryu⟩ := performAll_codeScript hc hn (entry.1.setWidth 32)
    (BitVec.ofNat 32 entry.2.length) (BitVec.ofNat 32 base)
  obtain ⟨t, ht, hcfg, hentry, hbefore, hdigits⟩ := performAll_ldDigits entry.2 base (hcfgu ▸ hc) (hcfgu ▸ hfit)
  have hmax : s.cfg.ncdig < 2 ^ 32 := by
    obtain ⟨-, -, -, -, ⟨-, hmax⟩, -⟩ := hc
    omega
  have hlen : (BitVec.ofNat 32 entry.2.length).toNat = entry.2.length := toNat_ofNat_of_le (by omega) hmax
  have hbase : (BitVec.ofNat 32 base).toNat = base := toNat_ofNat_of_le (by omega) hmax
  have hself : t.codeEntry n = ⟨entry.1, BitVec.ofNat 32 entry.2.length, BitVec.ofNat 32 base⟩ := by
    rw [hentry, hentryu, if_pos rfl, setWidth_cell]
  refine ⟨t, (performAll_append_next hu).trans ht, hcfg.trans hcfgu, fun j hj => ?_, fun d hd => ?_, ?_, ?_, ?_⟩
  · rw [hentry, hentryu, if_neg hj]
  · rw [hbefore d hd, hdigitu]
  · rw [hself]
  · rw [State.codeDigits, hself, hlen, hbase, hdigits]
  · rw [hself, hlen, hbase]

/-- Codes that fit, loaded from entry `n` on with their digits from `base` on, then CCNT. -/
theorem performAll_loadCodesFrom (codes : List (Cell × List Bit)) : ∀ {s : State} (n base : Nat), s.cfg.Valid →
    n + codes.length ≤ s.cfg.ncode → base + ((codes.map Prod.snd).flatten).length ≤ s.cfg.ncdig →
    ∃ t, performAll (loadCodesFrom n base codes) s = .next t ∧ t.cfg = s.cfg ∧ t.ccnt.toNat = n + codes.length ∧
      (∀ j < n, t.codeEntry j = s.codeEntry j) ∧ (∀ d < base, t.digit d = s.digit d) ∧
      ∀ (j : Nat) (hj : j < codes.length), t.HoldsCode (n + j) codes[j] s.cfg.ncdig := by
  induction codes with
  | nil =>
    intro s n base hc hn _
    obtain ⟨-, -, -, ⟨-, hmax⟩, -⟩ := hc
    exact ⟨_, performAll_cons_next (perform_wrReg s (r := .ccnt) (by decide) _), rfl,
      toNat_ofNat_of_le hn (by omega), fun _ _ => rfl, fun _ _ => rfl, fun j hj => absurd hj (Nat.not_lt_zero j)⟩
  | cons entry codes ih =>
    intro s n base hc hn hfit
    simp only [List.length_cons, List.map_cons, List.flatten_cons, List.length_append] at hn hfit
    obtain ⟨u, hu, hcfgu, hentryu, hdigitu, hheldu⟩ := performAll_loadCode hc (n := n) (by omega) entry
      (show base + entry.2.length ≤ s.cfg.ncdig by omega)
    obtain ⟨t, ht, hcfg, hccnt, hentry, hdigit, hheld⟩ := ih (n + 1) (base + entry.2.length) (hcfgu ▸ hc)
      (by rw [hcfgu]; omega) (by rw [hcfgu]; omega)
    refine ⟨t, (performAll_append_next hu).trans ht, hcfg.trans hcfgu, ?_, fun j hj => ?_, fun d hd => ?_,
      fun j hj => ?_⟩
    · rw [hccnt, List.length_cons]
      omega
    · rw [hentry j (by omega), hentryu j (by omega)]
    · rw [hdigit d (by omega), hdigitu d hd]
    · cases j with
      | zero => exact (hheldu.congr (hentry n (by omega)) hdigit).mono (by omega)
      | succ j =>
        rw [← Nat.succ_add_eq_add_succ]
        exact hcfgu ▸ hheld j (Nat.lt_of_succ_lt_succ hj)

/-- Entries that hold the codes of distinct symbols, none of them empty, are what the lookup finds (R132). -/
theorem codesHeld_of_holdsCode {s : State} {codes : List (Cell × List Bit)} (hnodup : (codes.map Prod.fst).Nodup)
    (hne : ∀ entry ∈ codes, entry.2 ≠ []) (hccnt : s.ccnt.toNat = codes.length)
    (h : ∀ (j : Nat) (hj : j < codes.length), s.HoldsCode j codes[j] s.cfg.ncdig) : codesHeld s codes := by
  intro entry hentry
  obtain ⟨j, hj, rfl⟩ := List.getElem_of_mem hentry
  refine ⟨j, lookup_eq_some_iff.2 ⟨hccnt ▸ hj, (h j hj).sym, (h j hj).len_ne_zero (hne _ hentry), ?_⟩,
    (h j hj).digits, (h j hj).inside⟩
  rintro k hkj ⟨hsym, -⟩
  have hk : k < codes.length := hkj.trans hj
  have heq : (codes.map Prod.fst)[k]'(by simpa) = (codes.map Prod.fst)[j]'(by simpa) := by
    rw [List.getElem_map, List.getElem_map, ← (h k hk).sym, hsym]
  exact hkj.ne (hnodup.getElem_inj_iff.1 heq)

/-- Settles O56: the entries loaded hold the codes (`performAll_loadCodesFrom`), so the lookup finds them
(`codesHeld_of_holdsCode`). -/
theorem loadCodesLoadsTable : Obligations.LoadCodesLoadsTable := by
  unfold Obligations.LoadCodesLoadsTable
  intro s codes hc hnodup hne hncode hncdig
  obtain ⟨t, ht, hcfg, hccnt, -, -, hheld⟩ := performAll_loadCodesFrom codes (s := s) 0 0 hc (by omega) (by omega)
  simp only [Nat.zero_add, ← hcfg] at hccnt hheld
  exact ⟨t, ht, hccnt, codesHeld_of_holdsCode hnodup hne hccnt hheld, hcfg⟩

end Sys2Proof.Machine
end

section
/-! PROOFS. Faults are precise, atomic and repeatable (60_exceptions R240, R241, R243; R255 for the idle block). A
command that reports an error took the one fault its shadow raised (`exec_output_fault`, `exec_fparse_fault`), and
that fault writes nothing the command reads. -/

namespace Sys2Proof.Machine

open Sys2Proof

/-- Settles O6: the step with no transaction waiting (`step_of_idle`). -/
theorem idleBlockHoldsState : Obligations.IdleBlockHoldsState := by
  unfold Obligations.IdleBlockHoldsState
  intro s h
  exact step_of_idle h

/-! ### What a command that reports an error did -/

/-- NOP never faults (R200, R230). -/
theorem exec_nop_err {s t : State} (h : exec .nop s = .next t) : t.err = 0#8 := by
  cases h
  exact complete_err s

/-- A command with an output that reports an error took the fault of its shadow (R240). -/
theorem exec_output_fault {i : Instr} (hi : i ∈ [Instr.enc, Instr.dec, Instr.xor, Instr.fser]) {s t : State}
    (h : exec i s = .next t) (herr : t.err ≠ 0#8) :
    ∃ r, outputShadow i s = .error r ∧ t = takeFault .output r s := by
  rw [exec_output hi] at h
  rcases finishOutput_cases h with ⟨out, -, rfl⟩ | hfault
  · exact absurd (commitOutput_err out s) herr
  · exact hfault

/-- FPARSE, when it reports an error, took the fault of its shadow (R240). -/
theorem exec_fparse_fault {s t : State} (h : exec .fparse s = .next t) (herr : t.err ≠ 0#8) :
    ∃ r w, fparseShadow s = .error (r, w) ∧ t = takeFault (.table w) r s := by
  rcases execFparse_cases h with ⟨p, -, rfl⟩ | hfault
  · exact absurd (commitTable_err p.table p.warn s) herr
  · exact hfault

/-! ### The effect of the fault -/

/-- STATUS after a command is DONE and the code, nothing else (R29). -/
theorem exec_status_eq {i : Instr} {s t : State} (h : exec i s = .next t) : t.status = statusWord t.err := by
  obtain ⟨e, hst⟩ := exec_status h
  rw [err_of_status hst, hst]

/-- A CapacityError of FPARSE counts no warnings (R179, R240). -/
theorem fparseShadow_warn_of_capacity {s : State} {r : Raise} {w : Nat} (h : fparseShadow s = .error (r, w))
    (hcode : r.kind.code = 7#8) : w = 0 := by
  rcases fparseShadow_cases s with ⟨p, hp, -⟩ | ⟨q, hq, -⟩ | ⟨hq, -⟩
  · rw [h] at hp
    cases hp
  · rw [h] at hq
    cases hq
    rfl
  · rw [h] at hq
    cases hq
    exact absurd hcode (show ErrorKind.tableParse.code ≠ 7#8 by decide)

/-- Settles O44: the state a fault leaves is `takeFault` of the old one, which writes STATUS, ERRPOS and the
command's result length. -/
theorem faultsArePreciseAndAtomic : Obligations.FaultsArePreciseAndAtomic := by
  unfold Obligations.FaultsArePreciseAndAtomic
  intro i s t h herr
  refine ⟨exec_status_eq h, ?_⟩
  cases i with
  | nop => exact herr (exec_nop_err h)
  | enc | dec | xor | fser =>
    obtain ⟨r, -, rfl⟩ := exec_output_fault (by decide) h herr
    rfl
  | fparse =>
    obtain ⟨r, w, hshadow, rfl⟩ := exec_fparse_fault h herr
    refine ⟨rfl, fun hcode => ?_⟩
    rw [takeFault_err] at hcode
    rw [takeFault_table_warn, fparseShadow_warn_of_capacity hshadow hcode]

/-! ### The command issued again -/

/-- Taking the same fault a second time changes nothing. -/
theorem takeFault_takeFault (c : FaultClass) (r : Raise) (s : State) :
    takeFault c r (takeFault c r s) = takeFault c r s := by
  cases c with
  | output | table | illegal => rfl

/-- A fault of a command with an output leaves its operands as they were (R240, R262). -/
theorem agreeFor_takeFault_output {i : Instr} (hi : i ∈ [Instr.enc, Instr.dec, Instr.xor, Instr.fser]) (r : Raise)
    (s : State) : AgreeFor i s (takeFault .output r s) := by
  cases i with
  | enc => exact ⟨rfl, rfl, fun _ _ => rfl, rfl, fun _ _ => ⟨rfl, fun _ _ => rfl⟩⟩
  | dec => exact ⟨rfl, rfl, rfl, rfl, fun _ _ => rfl, fun _ => ⟨rfl, fun _ _ => rfl⟩, rfl, fun _ _ => rfl⟩
  | xor => exact ⟨rfl, rfl, fun _ _ => rfl, rfl, fun _ _ => rfl⟩
  | fser => exact ⟨rfl, rfl, fun _ _ => rfl⟩
  | nop | fparse => simp at hi

/-- A fault of FPARSE leaves its operands as they were (R240, R262). -/
theorem agreeFor_takeFault_table (w : Nat) (r : Raise) (s : State) : AgreeFor .fparse s (takeFault (.table w) r s) :=
  ⟨rfl, rfl, fun _ _ => rfl⟩

/-- The fault of a command with an output, issued again. -/
theorem exec_output_takeFault {i : Instr} (hi : i ∈ [Instr.enc, Instr.dec, Instr.xor, Instr.fser]) {s : State}
    {r : Raise} (h : outputShadow i s = .error r) :
    exec i (takeFault .output r s) = .next (takeFault .output r s) := by
  rw [exec_output hi, ← outputShadow_congr hi (agreeFor_takeFault_output hi r s), h]
  exact congrArg Host.Outcome.next (takeFault_takeFault .output r s)

/-- The fault of FPARSE, issued again. -/
theorem exec_fparse_takeFault {s : State} {r : Raise} {w : Nat} (h : fparseShadow s = .error (r, w)) :
    exec .fparse (takeFault (.table w) r s) = .next (takeFault (.table w) r s) := by
  rw [fparseShadow_congr (agreeFor_takeFault_table w r s)] at h
  rw [exec_fparse_eq, execFparse_of_error h, takeFault_takeFault]

/-- Settles O51: the fault leaves the command's operands as they were, so its shadow raises the same fault again,
and that fault is already in the state (`takeFault_takeFault`). -/
theorem reissuedFaultRepeats : Obligations.ReissuedFaultRepeats := by
  unfold Obligations.ReissuedFaultRepeats
  intro i s t h herr
  cases i with
  | nop => exact absurd (exec_nop_err h) herr
  | enc | dec | xor | fser =>
    obtain ⟨r, hshadow, rfl⟩ := exec_output_fault (by decide) h herr
    exact exec_output_takeFault (by decide) hshadow
  | fparse =>
    obtain ⟨r, w, hshadow, rfl⟩ := exec_fparse_fault h herr
    exact exec_fparse_takeFault hshadow

end Sys2Proof.Machine
end

section
/-! PROOFS. Nothing stops the machine (70_reset R275; 93 part 1, the last sentence): a command and a host event always
answer a next state (`exec_total`, `perform_total`), so a step does, whatever is waiting. -/

namespace Sys2Proof.Machine

open Sys2Proof

/-- A step answers a next state: the idle step holds the state (R261), and a waiting event is performed (R60). -/
theorem step_total (s : State) : ∃ t, step s = .next t := by
  cases h : s.pending with
  | nil => exact ⟨s, step_of_idle h⟩
  | cons e rest =>
    rw [step_of_pending h]
    exact perform_total e _

/-- Settles O46: the three totality lemmas, for commands, host events and steps. -/
theorem everyStepAnswersNext : Obligations.EveryStepAnswersNext := by
  unfold Obligations.EveryStepAnswersNext
  exact ⟨exec_total, perform_total, step_total⟩

end Sys2Proof.Machine
end
